-- ==== Sys2Proof/Word.lean ====
section
/-! DEFINITION. The words the block works on: bytes of the address space, 32-bit bus and register words, symbols,
and codes (bit sequences). -/

namespace Sys2Proof

/-- One byte lane of a bus word (20_memory R65). -/
abbrev Byte := BitVec 8

/-- A bus word, a register, a command word (10_state R23, 30_encoding R80). -/
abbrev Word := BitVec 32

/-- One symbol, an unsigned `SYM_W`-bit value (30_encoding R89), held in 16 bits, the larger of the two legal widths.
With `SYM_W = 8` bits 15..8 are zero. DEDUCED (log 1). -/
abbrev Sym := BitVec 16

/-- A bit sequence, leftmost bit first (00_scope R9): a code, the accumulator or a bitstream. `false` is 0 (left),
`true` is 1 (right) (30_encoding R94). -/
abbrev Code := List Bool

end Sys2Proof
end

