-- ==== Sys2Proof/Syntax.lean ====
section
/-! DEFINITION. The instructions of the block are its command words (00_scope R2); one constructor per row of
spec/opcode_table.json. The seven rows cover every 32-bit word, each word in exactly one row (30_encoding R82, R83). -/

namespace Sys2Proof

/-- The command words of spec/opcode_table.json. A field is what the row leaves open of the word. -/
inductive Instr where
  /-- NOP: the word 0x0000_0000 (40_command R113). -/
  | nop
  /-- ENCODE: the word 0x0000_0001 (43_encoder R160). -/
  | encode
  /-- DECODE: the word 0x0000_0002 (44_decoder R180). -/
  | decode
  /-- ILLEGAL_OP3: the reserved word 0x0000_0003 (40_command R112). -/
  | illegalOp3
  /-- ILLEGAL_OP4_7: RSVD = 0 and OP = 0b01oo (40_command R112). -/
  | illegalOp4to7 (o : BitVec 2)
  /-- ILLEGAL_OP8_F: RSVD = 0 and OP = 0b1ooo (40_command R112). -/
  | illegalOp8toF (o : BitVec 3)
  /-- ILLEGAL_RSVD: "any word with a non-zero bit in [31:4], whatever OP" (40_command R112). -/
  | illegalRsvd (rsvd : BitVec 28) (op : BitVec 4)
deriving DecidableEq, Repr

end Sys2Proof
end

