-- ==== Sys2Proof/WellFormed.lean ====
section
/-! DEFINITION. Which terms of `Instr` stand for a command word. -/

namespace Sys2Proof

/-- Well-formed instructions: row ILLEGAL_RSVD has the condition "RSVD != 0" (spec/opcode_table.json); the other rows'
fields may take every value. -/
def Instr.wf : Instr → Bool
  | .nop => true
  | .encode => true
  | .decode => true
  | .illegalOp3 => true
  | .illegalOp4to7 _ => true
  | .illegalOp8toF _ => true
  | .illegalRsvd rsvd _ => rsvd != 0

end Sys2Proof
end

