-- ==== Sys2Proof/Decode.lean ====
section
/-! DEFINITION. The decoder of command words (30_encoding R81-R83), total on words and on bytes, and the encoder
written from the same table. -/

namespace Sys2Proof

/-- `OP` = bits[3:0] of a command word (30_encoding R81). -/
def opField (w : Word) : BitVec 4 := w.extractLsb' 0 4

/-- `RSVD` = bits[31:4] of a command word (30_encoding R81). -/
def rsvdField (w : Word) : BitVec 28 := w.extractLsb' 4 28

/-- "A decoder of command words: `w[31:4] != 0` is illegal; otherwise `w[3:0]` selects NOP, ENCODE, DECODE or illegal"
(30_encoding R82). Every word is some row of the table, so no word is left without an instruction. -/
def decodeWord (w : Word) : Instr :=
  if rsvdField w ≠ 0 then .illegalRsvd (rsvdField w) (opField w)
  else if opField w = 0 then .nop
  else if opField w = 1 then .encode
  else if opField w = 2 then .decode
  else if opField w = 3 then .illegalOp3
  else if (opField w).extractLsb' 2 2 = 1 then .illegalOp4to7 ((opField w).extractLsb' 0 2)
  else .illegalOp8toF ((opField w).extractLsb' 0 3)

/-- Why a byte sequence holds no command word. -/
inductive DecodeError where
  /-- Fewer than the four bytes of a command word ("every command is one 32-bit word", 30_encoding R80). -/
  | shortWord
deriving DecidableEq, Repr

/-- The decoder on bytes: the first four are the byte lanes of the command word, lane 0 first (20_memory R65). It
answers the instruction and the bytes left over, or rejects by name. -/
def decodeBytes : List Byte → Except DecodeError (Instr × List Byte)
  | b0 :: b1 :: b2 :: b3 :: rest => .ok (decodeWord (b3 ++ b2 ++ b1 ++ b0), rest)
  | _ => .error .shortWord

/-- The `OP` field of an instruction's word (30_encoding R82; the "encoding" columns of spec/opcode_table.json). -/
def Instr.op : Instr → BitVec 4
  | .nop => 0x0
  | .encode => 0x1
  | .decode => 0x2
  | .illegalOp3 => 0x3
  | .illegalOp4to7 o => 0b01#2 ++ o
  | .illegalOp8toF o => 0b1#1 ++ o
  | .illegalRsvd _ op => op

/-- The `RSVD` field of an instruction's word. -/
def Instr.rsvd : Instr → BitVec 28
  | .nop => 0
  | .encode => 0
  | .decode => 0
  | .illegalOp3 => 0
  | .illegalOp4to7 _ => 0
  | .illegalOp8toF _ => 0
  | .illegalRsvd rsvd _ => rsvd

/-- The command word of an instruction: RSVD above OP (30_encoding R81). -/
def encode (i : Instr) : Word := i.rsvd ++ i.op

/-- The byte lanes of an instruction's word, lane 0 first (20_memory R65). -/
def encodeBytes (i : Instr) : List Byte :=
  [(encode i).extractLsb' 0 8, (encode i).extractLsb' 8 8, (encode i).extractLsb' 16 8, (encode i).extractLsb' 24 8]

/-- A legal command word: "`RSVD = 0` and `OP` is 0x0, 0x1 or 0x2" (30_encoding R83). -/
def legalWord (w : Word) : Bool :=
  rsvdField w == 0 && (opField w == 0 || opField w == 1 || opField w == 2)

/-- The word whose low `nbits` bits are `w` and whose other bits are zero. -/
def tableWord (nbits w : Nat) : Word := BitVec.ofNat 32 (w % 2 ^ nbits)

/-- The instruction the decoder reads from the word whose low `nbits` bits are `w` (numbered as spec/opcode_table.json
numbers them) and whose other bits are zero: its byte lanes are laid out lane 0 first and given to `decodeBytes`. -/
def decodeTableWord (nbits w : Nat) : Option Instr :=
  match decodeBytes [(tableWord nbits w).extractLsb' 0 8, (tableWord nbits w).extractLsb' 8 8,
      (tableWord nbits w).extractLsb' 16 8, (tableWord nbits w).extractLsb' 24 8] with
  | .ok (i, _) => some i
  | .error _ => none

end Sys2Proof
end

