-- ==== Sys2Proof/Config.lean ====
section
/-! DEFINITION. What an implementation fixes (the parameters of 00_scope R6) and the free values the spec leaves open
(93_implementation_defined U1-U6), each an opaque constant with no body. -/

namespace Sys2Proof

/-- `SYM_W`, the width in bits of one symbol: "8 or 16" (00_scope R6). -/
inductive SymW where
  | w8
  | w16
deriving DecidableEq, Repr

/-- The number of bits that PARAM_SYM_W shows (30_encoding R88). -/
def SymW.bits : SymW → Nat
  | .w8 => 8
  | .w16 => 16

/-- The implementation parameters (00_scope R6). They are constants of the block; they stand in the state so that a
claim about every state is a claim about every choice of them. -/
structure Params where
  /-- `SYM_W`. -/
  symW : SymW
  /-- `IN_CAP`, symbol words in IN. -/
  inCap : Nat
  /-- `OUT_CAP`, symbol words in OUT. -/
  outCap : Nat
  /-- `MAX_CODE_LEN`, the longest code the code table and the reverse code table can hold. -/
  maxCodeLen : Nat
  /-- `RCT_CAP`, distinct codes the reverse code table can hold. -/
  rctCap : Nat
  /-- `BLOCK_BASE`, the block's base address on the host bus; OPEN in the spec (log 9). -/
  blockBase : Nat
deriving DecidableEq, Repr

/-- The legal values of the parameters (00_scope R6). -/
abbrev Params.Legal (p : Params) : Prop :=
  1 ≤ p.inCap ∧ p.inCap ≤ 262144 ∧ p.inCap ≤ p.outCap ∧ p.outCap ≤ 262144 ∧
  1 ≤ p.maxCodeLen ∧ p.maxCodeLen ≤ 65535 ∧ 1 ≤ p.rctCap ∧ p.rctCap ≤ 65536 ∧
  p.blockBase % 0x400000 = 0

/-- The values this spec fixes for the reference build (00_scope R6). DESIGN CHOICE: `BLOCK_BASE`, which the spec
leaves OPEN, is 0 here; no statement rests on it (log 9). -/
def Params.reference : Params where
  symW := .w16
  inCap := 65536
  outCap := 262144
  maxCodeLen := 64
  rctCap := 65536
  blockBase := 0

/-- One choice of the schedule (40_command R117, 93 U5 and U6): the host's next bus access, or a block step that makes
`extra + 1` iterations of the operation's pseudocode (log 5, log 6). -/
inductive Slot where
  | host
  | block (extra : Nat)
deriving DecidableEq, Repr, Inhabited

/-- FREE VALUE. What IN word `i` holds after the `epoch`-th reset until the host writes it: "each word as an unknown
value" (10_state R45, 93 U1; log 3). -/
opaque Config.freeIn (epoch i : Nat) : Sym

/-- FREE VALUE. What the `n`-th read of an undefined OUT word returns: "any value, a fresh draw per read"
(20_memory R69, 93 U2 and U3; log 4). -/
opaque Config.freeOut (n : Nat) : Word

/-- FREE VALUE. The schedule's choice where `State.schedule` fixes none: "free choices of the schedule"
(40_command R117, 93 U5 and U6; log 5). -/
opaque Config.slot (n : Nat) : Slot

end Sys2Proof
end

