-- ==== Sys2Proof/Machine/Chars.lean ====
section
/-! DEFINITION. The character codes of 30_encoding R90 and the bit characters of 00_scope R12. -/

namespace Sys2Proof.Machine

/-- `CH_0`, the character '0' (30_encoding R90). -/
def ch0 : Sym := 0x30

/-- `CH_1`, the character '1' (30_encoding R90). -/
def ch1 : Sym := 0x31

/-- `COLON` (30_encoding R90). -/
def colon : Sym := 0x3A

/-- `SEMI` (30_encoding R90). -/
def semi : Sym := 0x3B

/-- `LF`, newline (30_encoding R90, R91). -/
def lf : Sym := 0x0A

/-- `bitchar(b)` (00_scope R12). -/
def bitchar (b : Bool) : Sym := if b then ch1 else ch0

/-- The characters of a bit sequence. -/
def bitchars (c : Code) : List Sym := c.map bitchar

/-- Membership of `{CH_0, CH_1}`. -/
def isBit (c : Sym) : Bool := c == ch0 || c == ch1

/-- `charbit(c)`, the inverse of `bitchar` on `{CH_0, CH_1}` (00_scope R12). -/
def charbit (c : Sym) : Bool := c == ch1

/-- The symbol in bits[SYM_W-1:0] of a bus word; bits[31:SYM_W] are ignored (30_encoding R89). -/
def symOfWord (w : SymW) (v : Word) : Sym :=
  match w with
  | .w8 => (v.extractLsb' 0 8).zeroExtend 16
  | .w16 => v.extractLsb' 0 16

/-- `zext_32` of a symbol (30_encoding R89). -/
def wordOfSym (c : Sym) : Word := c.zeroExtend 32

end Sys2Proof.Machine
end

