-- ==== Sys2Proof/Machine/State.lean ====
section
/-! DEFINITION. Everything the spec gives the machine, as plain data (10_state R20): the register page and the
operation state, the buffers, the internal working state, the parameters and the reset input (`Block`); and around it
what the outside world does next and has seen (`State`). -/

namespace Sys2Proof.Machine

/-- STATUS.STATE (30_encoding R85). -/
inductive RunState where
  | idle
  | busy
  | done
  | failed
deriving DecidableEq, Repr

/-- STATUS.PHASE (30_encoding R85). -/
inductive Phase where
  | noPhase
  | count
  | build
  | derive
  | serialize
  | emit
  | awaitHeader
  | parseTable
  | parseStream
deriving DecidableEq, Repr

/-- STATUS.ERR (60_exceptions R211). -/
inductive ErrCode where
  | noError
  | emptyInput
  | invalidFormat
  | duplicateCode
  | truncatedStream
  | capacity
  | illegalCommand
deriving DecidableEq, Repr

/-- FT: a map from symbol to count, its keys in ascending order (10_state R39, 00_scope R10). -/
abbrev FreqTable := List (Sym × Nat)

/-- A tree node: "either `Leaf(sym, w, seq)` or `Internal(left, right, w, seq)`" (10_state R40). -/
inductive Node where
  | leaf (sym : Sym) (w seq : Nat)
  | internal (left right : Node) (w seq : Nat)
deriving DecidableEq, Repr

/-- One `<symbol>:<code>` element of a table section (00_scope R14). -/
abbrev Entry := Sym × Code

/-- CT: a map from symbol to code, its keys in ascending order (10_state R41). -/
abbrev CodeTable := List Entry

/-- RCT: a map from code to symbol, in the order the codes were added (10_state R42). -/
abbrev RevTable := List (Code × Sym)

/-- The bytes of IN and OUT that have been written: (byte offset from BLOCK_BASE, byte), offsets strictly rising. An
unlisted offset holds no value (log 2). -/
abbrev Memory := List Host.Cell

/-- The internal working state of an operation (10_state R20 (e), R39-R43). It is not architectural (R44) and exists
only during an operation. -/
structure Work where
  /-- FT (R39). -/
  ft : FreqTable
  /-- The node store (R40): the trees not yet combined, each with the nodes below it. -/
  pool : List Node
  /-- `next` of 41_tree_builder R136, the sequence number of the next internal node. -/
  nextSeq : Nat
  /-- CT (R41). -/
  ct : CodeTable
  /-- The entries the validator has read (44_decoder R182). -/
  entries : List Entry
  /-- `T` of 44_decoder R182, once the table-to-stream separator has been read. -/
  tableEnd : Option Nat
  /-- The next entry to serialize (43_encoder R162) or to put into RCT (44_decoder R185). -/
  entryPos : Nat
  /-- RCT (R42). -/
  rct : RevTable
  /-- ACC (R43). -/
  acc : Code
  /-- The scan cursor in IN, the next character to read (R43). -/
  inPos : Nat
  /-- The scan cursor in OUT, the next word to write (R43). -/
  outPos : Nat
deriving DecidableEq, Repr

/-- No operation in progress: nothing is held (10_state R44, R45). DESIGN CHOICE for the discarded values (log 7). -/
def Work.empty : Work where
  ft := []
  pool := []
  nextSeq := 0
  ct := []
  entries := []
  tableEnd := none
  entryPos := 0
  rct := []
  acc := []
  inPos := 0
  outPos := 0

/-- The values of the five result registers (40_command R115), as exact counts. -/
structure Results where
  outLen : Nat
  tableLen : Nat
  streamLen : Nat
  symCount : Nat
  entries : Nat
deriving DecidableEq, Repr

/-- The outcome `F_op(t)` of an operation: `Ok(out, r, last)` or `Err(code, phase)` (40_command R115). -/
inductive OpResult where
  | ok (out : List Sym) (r : Results) (last : Phase)
  | err (code : ErrCode) (phase : Phase)
deriving DecidableEq, Repr

/-- The block: every piece of state the spec gives it (10_state R20). -/
structure Block where
  /-- The parameters, which the PARAM registers show (R35). -/
  params : Params
  /-- The reset input is asserted (70_reset R240). -/
  inReset : Bool
  /-- STATUS.STATE (R26). -/
  state : RunState
  /-- STATUS.PHASE (R26). -/
  phase : Phase
  /-- STATUS.ERR (R26). -/
  err : ErrCode
  /-- STATUS.OP (R26). -/
  op : BitVec 4
  /-- IN_LEN (R27). -/
  inLen : Word
  /-- OUT_LEN (R28). -/
  outLen : Word
  /-- TABLE_LEN (R29). -/
  tableLen : Word
  /-- STREAM_LEN (R30). -/
  streamLen : Word
  /-- SYM_COUNT (R31). -/
  symCount : Word
  /-- ENTRIES (R32). -/
  entries : Word
  /-- IN and OUT (R33, R34). -/
  mem : Memory
  /-- The internal working state (R39-R43). -/
  work : Work
  /-- The model's own: how many resets there have been, which selects what the unwritten IN words hold (log 3). -/
  epoch : Nat
deriving DecidableEq, Repr

/-- The width of a bus access (20_memory R62). -/
inductive Width where
  | w8
  | w16
  | w32
  | w64
deriving DecidableEq, Repr

/-- One bus access of the host: width, byte offset from BLOCK_BASE, and for a write the data (30_encoding R100). Only a
32-bit write has an effect, so 32 bits of data are all that is held. -/
inductive Access where
  | read (width : Width) (off : Nat)
  | write (width : Width) (off : Nat) (val : Word)
deriving DecidableEq, Repr

/-- Why an access is a bus error (20_memory R62, R63). -/
inductive BusError where
  | badWidth
  | misaligned
  | unmapped
deriving DecidableEq, Repr

/-- What the bus carries back to the host: the data of a read, the completion of a write, or an error response
("a read returns no data (the bus carries an error response)", 20_memory R62). -/
inductive Response where
  | data (w : Word)
  | ack
  | error (e : BusError)
deriving DecidableEq, Repr

/-- What the outside world does: a bus access, the two pseudo-operations of 30_encoding R101 whose expansion depends on
a value read (the others are lists of these, Machine/Bus.lean), and the two edges of the reset input (70_reset R240). -/
inductive HostOp where
  | access (a : Access)
  | wait
  | readOut
  | assertReset
  | releaseReset
deriving DecidableEq, Repr

/-- The machine: the block, and the inputs and outputs of the outside world as lists the step reads and writes. -/
structure State where
  /-- The block (10_state R20). -/
  block : Block
  /-- What the outside world does next, in order (20_memory R64). The model's own (log 8). -/
  host : List HostOp
  /-- The accesses completed so far with their responses, newest first. The model's own (log 16). -/
  log : List (Access × Response)
  /-- The schedule's next choices, as far as they are fixed from outside. The model's own (log 5). -/
  schedule : List Slot
  /-- How many free values have been drawn. The model's own (log 4, log 5). -/
  draws : Nat
deriving DecidableEq, Repr

/-- Why a step can stop. -/
inductive Fault where
  /-- Raised by a block step (Machine/Agents.lean `Block.tick`) in a BUSY state whose internal working state does not
  belong to its OP and PHASE, which no run from reset reaches (93 U12: "a model that meets a never-produced value in
  its own state has a bug"). Safe: the machine stops (log 13). -/
  | corruptWork
deriving DecidableEq, Repr

/-- What a step gives no meaning. -/
inductive Refusal where
  /-- Raised by no meaning: the form a refused arm of `exec` takes for an instruction without a meaning. -/
  | notModelled (mnemonic : String)
  /-- Raised by `busAccess` (Machine/Bus.lean) for a host access while reset is asserted: "host accesses are not
  defined" (70_reset R240), treatment `refuse` (93 U4). Safe (log 11). -/
  | accessDuringReset
deriving DecidableEq, Repr

/-- The block right after reset, with the given parameters (10_state R45): STATE IDLE, PHASE NONE, ERR and OP 0,
every register 0, IN and OUT unspecified (nothing listed), no internal state, the reset input released. -/
def Block.initial (p : Params) : Block where
  params := p
  inReset := false
  state := .idle
  phase := .noPhase
  err := .noError
  op := 0
  inLen := 0
  outLen := 0
  tableLen := 0
  streamLen := 0
  symCount := 0
  entries := 0
  mem := []
  work := Work.empty
  epoch := 0

/-- The machine right after reset (10_state R45), with the parameters of the reference build (00_scope R6) and nothing
yet asked of it by the outside world. DESIGN CHOICE for the model's own fields (log 16). -/
def State.reset : State where
  block := Block.initial Params.reference
  host := []
  log := []
  schedule := []
  draws := 0

end Sys2Proof.Machine
end

