-- ==== Sys2Proof/Machine/Ops.lean ====
section
/-! DEFINITION. The named operations over memory and the register page: byte cells and 32-bit words, the IN and OUT
buffers, entry into FAILED (60_exceptions R214) and DONE (40_command R116), the start of an operation (R114), and the
two edges of reset (70_reset R240). -/

namespace Sys2Proof.Machine

/-! ## Memory cells -/

/-- The canonical form: offsets strictly rising. No entry can equal what an unlisted offset reads as, since an unlisted
offset holds no value (log 2). -/
abbrev Memory.wf (m : Memory) : Prop := m.Pairwise (fun x y => x.1 < y.1)

/-- The byte written at offset `a`, if any. -/
def Memory.read? (m : Memory) (a : Nat) : Option Byte :=
  match m with
  | [] => none
  | (k, v) :: r => if k = a then some v else Memory.read? r a

/-- Write byte `v` at offset `a`. -/
def Memory.write (m : Memory) (a : Nat) (v : Byte) : Memory :=
  match m with
  | [] => [(a, v)]
  | (k, x) :: r =>
    if a < k then (a, v) :: (k, x) :: r
    else if a = k then (a, v) :: r
    else (k, x) :: Memory.write r a v

/-- Write the four byte lanes of `w` from offset `a` up, lane `k` holding bits[8k+7:8k] (20_memory R65). -/
def Memory.storeWord (m : Memory) (a : Nat) (w : Word) : Memory :=
  (((m.write a (w.extractLsb' 0 8)).write (a + 1) (w.extractLsb' 8 8)).write (a + 2) (w.extractLsb' 16 8)).write
    (a + 3) (w.extractLsb' 24 8)

/-- The word written at offset `a`, if all four of its bytes have been (20_memory R65). -/
def Memory.readWord? (m : Memory) (a : Nat) : Option Word :=
  match m.read? a, m.read? (a + 1), m.read? (a + 2), m.read? (a + 3) with
  | some b0, some b1, some b2, some b3 => some (b3 ++ b2 ++ b1 ++ b0)
  | _, _, _, _ => none

/-! ## The buffers -/

/-- Byte offset of IN word 0 (20_memory R61). -/
def inBase : Nat := 0x100000

/-- Byte offset of OUT word 0 (20_memory R61). -/
def outBase : Nat := 0x200000

/-- Byte offset of `IN[i]` (10_state R33). -/
def inAddr (i : Nat) : Nat := inBase + 4 * i

/-- Byte offset of `OUT[i]` (10_state R34). -/
def outAddr (i : Nat) : Nat := outBase + 4 * i

/-- The symbol `IN[i]` holds: the one the host last wrote, or for a word not written since reset the free value
(20_memory R68, 10_state R45; log 3). -/
def Block.inSym (b : Block) (i : Nat) : Sym :=
  match b.mem.readWord? (inAddr i) with
  | some w => symOfWord b.params.symW w
  | none => symOfWord b.params.symW (wordOfSym (Config.freeIn b.epoch i))

/-- A host write of `v` to `IN[i]` while not BUSY stores the symbol `v[SYM_W-1:0]` (30_encoding R89, 20_memory R68). -/
def Block.storeIn (b : Block) (i : Nat) (v : Word) : Block :=
  { b with mem := b.mem.storeWord (inAddr i) (wordOfSym (symOfWord b.params.symW v)) }

/-- The word the block last wrote to `OUT[i]` since reset, if any (20_memory R69). -/
def Block.outWord? (b : Block) (i : Nat) : Option Word := b.mem.readWord? (outAddr i)

/-- `OUT[i] <- c` (00_scope R11). -/
def Block.storeOut (b : Block) (i : Nat) (c : Sym) : Block :=
  { b with mem := b.mem.storeWord (outAddr i) (wordOfSym c) }

/-- `OUT[i] <- cs[0]; OUT[i+1] <- cs[1]; ...`. -/
def Block.storeOuts (b : Block) (i : Nat) (cs : List Sym) : Block :=
  match cs with
  | [] => b
  | c :: r => Block.storeOuts (b.storeOut i c) (i + 1) r

/-- Replace the internal working state. -/
def Block.withWork (b : Block) (w : Work) : Block := { b with work := w }

/-- `PHASE <- p`, with the internal working state the phase starts from. -/
def Block.enter (b : Block) (p : Phase) (w : Work) : Block := { b with phase := p, work := w }

/-! ## Errors, completion and the start of an operation -/

/-- `OUT_LEN <- 0; TABLE_LEN <- 0; STREAM_LEN <- 0; SYM_COUNT <- 0; ENTRIES <- 0` (40_command R112, R114). -/
def Block.clearResults (b : Block) : Block :=
  { b with outLen := 0, tableLen := 0, streamLen := 0, symCount := 0, entries := 0 }

/-- `raise E(phase)`, the one entry into FAILED (60_exceptions R214): ERR and PHASE record the error, OP and the result
registers keep the values set at acceptance, the internal state is discarded. -/
def Block.raise (b : Block) (e : ErrCode) (p : Phase) : Block :=
  { b with err := e, phase := p, state := .failed, work := Work.empty }

/-- `finish(out, r, last)` once OUT holds `out` (40_command R116): the five result registers take their values,
PHASE the last phase, STATE is DONE, and the internal state is discarded (10_state R44). -/
def Block.finish (b : Block) (r : Results) (last : Phase) : Block :=
  { b with
    outLen := BitVec.ofNat 32 r.outLen
    tableLen := BitVec.ofNat 32 r.tableLen
    streamLen := BitVec.ofNat 32 r.streamLen
    symCount := BitVec.ofNat 32 r.symCount
    entries := BitVec.ofNat 32 r.entries
    phase := last
    state := .done
    work := Work.empty }

/-- An accepted illegal command word (40_command R112): STATE never passes through BUSY. -/
def Block.illegal (b : Block) (op : BitVec 4) : Block :=
  ({ b.clearResults with op := op } : Block).raise .illegalCommand .noPhase

/-- Start of ENCODE or DECODE (40_command R114), with the capacity check on IN_LEN in the acceptance step. Leaving
FAILED is this or `Block.illegal` or reset (60_exceptions R216). -/
def Block.start (b : Block) (op : BitVec 4) : Block :=
  let b1 := { b.clearResults with op := op, err := .noError, phase := .noPhase }
  if b.params.inCap < b.inLen.toNat then b1.raise .capacity .noPhase
  else { b1 with state := .busy, work := Work.empty }

/-- Reset is asserted (70_reset R240, R241; 10_state R45): every register and field takes its reset value, the internal
state is discarded, the contents of IN and OUT become unspecified (nothing listed, a new epoch), the parameters stay. -/
def Block.assertReset (b : Block) : Block :=
  { Block.initial b.params with inReset := true, epoch := b.epoch + 1 }

/-- Reset is released: the block is IDLE and accepts commands (70_reset R240). -/
def Block.releaseReset (b : Block) : Block := { b with inReset := false }

/-- The block agent has an enabled step: STATE = BUSY (40_command R117) and reset is not asserted ("while reset is
asserted the block takes no step", 70_reset R240). -/
def Block.enabled (b : Block) : Bool := b.state == .busy && !b.inReset

end Sys2Proof.Machine
end

