-- ==== Sys2Proof/Machine/Commands.lean ====
section
/-! DEFINITION. The meanings of the command words: what a host write of the word to CMD does (40_command R110-R114). One
definition per instruction. -/

namespace Sys2Proof.Machine

/-- A command word reaches CMD: "a host write to CMD while STATE = BUSY is ignored" (40_command R111), otherwise it is
accepted and has its effect in one step (R110). -/
def State.command (s : State) (effect : Block → Block) : State :=
  { s with block := if s.block.state = .busy then s.block else effect s.block }

/-- NOP: no effect; STATE, PHASE, ERR, OP and every result register keep their values (40_command R113). -/
def execNop (s : State) : Host.Outcome State Fault Refusal := .next (s.command fun b => b)

/-- ENCODE: the start of the operation (40_command R114); the block's steps run it (43_encoder R160). -/
def execEncode (s : State) : Host.Outcome State Fault Refusal := .next (s.command fun b => b.start 1)

/-- DECODE: the start of the operation (40_command R114); the block's steps run it (44_decoder R180). -/
def execDecode (s : State) : Host.Outcome State Fault Refusal := .next (s.command fun b => b.start 2)

/-- ILLEGAL_OP3: FAILED with ILLEGAL_COMMAND and STATUS.OP = 3 (40_command R112). -/
def execIllegalOp3 (s : State) : Host.Outcome State Fault Refusal :=
  .next (s.command fun b => b.illegal Instr.illegalOp3.op)

/-- ILLEGAL_OP4_7: FAILED with ILLEGAL_COMMAND and STATUS.OP = 0b01oo (40_command R112). -/
def execIllegalOp4to7 (o : BitVec 2) (s : State) : Host.Outcome State Fault Refusal :=
  .next (s.command fun b => b.illegal (Instr.illegalOp4to7 o).op)

/-- ILLEGAL_OP8_F: FAILED with ILLEGAL_COMMAND and STATUS.OP = 0b1ooo (40_command R112). -/
def execIllegalOp8toF (o : BitVec 3) (s : State) : Host.Outcome State Fault Refusal :=
  .next (s.command fun b => b.illegal (Instr.illegalOp8toF o).op)

/-- ILLEGAL_RSVD: FAILED with ILLEGAL_COMMAND and STATUS.OP = w[3:0], whatever the reserved bits (40_command R112). -/
def execIllegalRsvd (rsvd : BitVec 28) (op : BitVec 4) (s : State) : Host.Outcome State Fault Refusal :=
  .next (s.command fun b => b.illegal (Instr.illegalRsvd rsvd op).op)

end Sys2Proof.Machine
end

