-- ==== Sys2Proof/Machine/Dispatch.lean ====
section
/-! DEFINITION. One arm per command word: what a host write of it to CMD does (40_command R110). -/

namespace Sys2Proof.Machine

def exec (i : Instr) (s : State) : Host.Outcome State Fault Refusal :=
  match i with
  | .nop => Sys2Proof.Machine.execNop s
  | .encode => Sys2Proof.Machine.execEncode s
  | .decode => Sys2Proof.Machine.execDecode s
  | .illegalOp3 => Sys2Proof.Machine.execIllegalOp3 s
  | .illegalOp4to7 o => Sys2Proof.Machine.execIllegalOp4to7 o s
  | .illegalOp8toF o => Sys2Proof.Machine.execIllegalOp8toF o s
  | .illegalRsvd rsvd op => Sys2Proof.Machine.execIllegalRsvd rsvd op s

end Sys2Proof.Machine
end

