-- ==== Sys2Proof/Machine/Flags.lean ====
section
/-! DEFINITION. The STATUS word and the register page's read values. There are no flags but the fields of STATUS
(10_state R22). -/

namespace Sys2Proof.Machine

/-- STATE values (30_encoding R85). -/
def RunState.code : RunState → BitVec 2
  | .idle => 0
  | .busy => 1
  | .done => 2
  | .failed => 3

/-- PHASE values (30_encoding R85). -/
def Phase.code : Phase → BitVec 4
  | .noPhase => 0
  | .count => 1
  | .build => 2
  | .derive => 3
  | .serialize => 4
  | .emit => 5
  | .awaitHeader => 8
  | .parseTable => 9
  | .parseStream => 10

/-- ERR values (60_exceptions R211). -/
def ErrCode.code : ErrCode → BitVec 4
  | .noError => 0
  | .emptyInput => 1
  | .invalidFormat => 2
  | .duplicateCode => 3
  | .truncatedStream => 4
  | .capacity => 5
  | .illegalCommand => 6

/-- STATUS (30_encoding R84): STATE = bits[1:0], bits[3:2] = 0, PHASE = bits[7:4], ERR = bits[11:8], OP = bits[15:12],
bits[31:16] = 0. -/
def Block.statusWord (b : Block) : Word :=
  (0 : BitVec 16) ++ b.op ++ b.err.code ++ b.phase.code ++ (0 : BitVec 2) ++ b.state.code

/-- STATE = bits[1:0] of a STATUS word (30_encoding R84). -/
def stateField (w : Word) : BitVec 2 := w.extractLsb' 0 2

/-- PHASE = bits[7:4] of a STATUS word (30_encoding R84). -/
def phaseField (w : Word) : BitVec 4 := w.extractLsb' 4 4

/-- ERR = bits[11:8] of a STATUS word (30_encoding R84). -/
def errField (w : Word) : BitVec 4 := w.extractLsb' 8 4

/-- OP = bits[15:12] of a STATUS word (30_encoding R84). -/
def statusOpField (w : Word) : BitVec 4 := w.extractLsb' 12 4

/-- The value a host read of the register page returns at aligned offset `off` (10_state R23): CMD reads 0 (R25), the
PARAM registers their parameter (R35, 30_encoding R88), reserved offsets 0 (R36). -/
def Block.readReg (b : Block) (off : Nat) : Word :=
  match off with
  | 0x000 => 0
  | 0x004 => b.statusWord
  | 0x008 => b.inLen
  | 0x00C => b.outLen
  | 0x010 => b.tableLen
  | 0x014 => b.streamLen
  | 0x018 => b.symCount
  | 0x01C => b.entries
  | 0x020 => BitVec.ofNat 32 b.params.symW.bits
  | 0x024 => BitVec.ofNat 32 b.params.inCap
  | 0x028 => BitVec.ofNat 32 b.params.outCap
  | 0x02C => BitVec.ofNat 32 b.params.maxCodeLen
  | 0x030 => BitVec.ofNat 32 b.params.rctCap
  | _ => 0

end Sys2Proof.Machine
end

