-- ==== Sys2Proof/Machine/Operands.lean ====
section
/-! DEFINITION. The operands of the commands, all implicit: `IN[0..IN_LEN)`, IN_LEN and the parameters (10_state R21,
30_encoding R81). -/

namespace Sys2Proof.Machine

/-- `N` (or `L`): the number of leading IN words the command uses (10_state R27). -/
def Block.textLen (b : Block) : Nat := b.inLen.toNat

/-- `IN[i..IN_LEN)`: the characters at and after index `i`. -/
def Block.textFrom (b : Block) (i : Nat) : List Sym := (List.range' i (b.textLen - i)).map b.inSym

/-- `t = IN[0..IN_LEN)`, the operation's input (40_command R115). -/
def Block.text (b : Block) : List Sym := b.textFrom 0

/-- The characters not yet read: those at and after the IN cursor (10_state R43). -/
def Block.unread (b : Block) : List Sym := b.textFrom b.work.inPos

end Sys2Proof.Machine
end

