-- ==== Sys2Proof/Machine/Bus.lean ====
section
/-! DEFINITION. The host agent: its bus accesses (20_memory R60-R69), the reset input (70_reset R240), and the
host-program notation (30_encoding R100, R101). -/

namespace Sys2Proof.Machine

/-! ## Address decoding -/

/-- What a mapped byte offset names (20_memory R61). -/
inductive Target where
  | reg (off : Nat)
  | inWord (i : Nat)
  | outWord (i : Nat)
deriving DecidableEq, Repr

/-- The region an aligned offset lies in: the register page, IN, OUT, or unmapped (20_memory R61, R63). -/
def target? (p : Params) (off : Nat) : Option Target :=
  if off < 0x1000 then some (.reg off)
  else if inBase ≤ off ∧ off < inBase + 4 * p.inCap then some (.inWord ((off - inBase) / 4))
  else if outBase ≤ off ∧ off < outBase + 4 * p.outCap then some (.outWord ((off - outBase) / 4))
  else none

/-- "Every host access is a 32-bit access to a byte address that is a multiple of 4"; every other, and every unmapped
offset, is a bus error (20_memory R62, R63). -/
def decodeAccess (p : Params) (width : Width) (off : Nat) : Except BusError Target :=
  if width ≠ .w32 then .error .badWidth
  else if off % 4 ≠ 0 then .error .misaligned
  else
    match target? p off with
    | none => .error .unmapped
    | some t => .ok t

/-- The bus address of byte offset `off` (20_memory R61). -/
def Params.busAddress (p : Params) (off : Nat) : Nat := p.blockBase + off

/-- The byte offset that a bus address at or above BLOCK_BASE has in the block (20_memory R61; log 9). -/
def Params.offsetOf (p : Params) (addr : Nat) : Option Nat :=
  if p.blockBase ≤ addr then some (addr - p.blockBase) else none

/-! ## One access -/

/-- An access completes with a response (20_memory R64). -/
def State.record (s : State) (a : Access) (r : Response) : State := { s with log := (a, r) :: s.log }

/-- The value of a read of `OUT[i]` where the spec defines it: in DONE, below OUT_LEN, the symbol the block last wrote
there (20_memory R69). -/
def Block.readOut? (b : Block) (i : Nat) : Option Word :=
  if b.state = .done ∧ i < b.outLen.toNat then b.outWord? i else none

/-- A read of a mapped word (20_memory R66): the block is unchanged; a read of OUT that R69 leaves undefined returns a
fresh free value (93 U3). -/
def readTarget (t : Target) (a : Access) (s : State) : State :=
  match t with
  | .reg off => s.record a (.data (s.block.readReg off))
  | .inWord i => s.record a (.data (wordOfSym (s.block.inSym i)))
  | .outWord i =>
    match s.block.readOut? i with
    | some w => s.record a (.data w)
    | none => { s.record a (.data (Config.freeOut s.draws)) with draws := s.draws + 1 }

/-- A write of `v` to IN_LEN: any value, ignored while BUSY (10_state R27). -/
def Block.writeInLen (b : Block) (v : Word) : Block :=
  if b.state = .busy then b else { b with inLen := v }

/-- A write of `v` to `IN[i]`: ignored while BUSY (20_memory R68). -/
def Block.writeIn (b : Block) (i : Nat) (v : Word) : Block :=
  if b.state = .busy then b else b.storeIn i v

/-- A write of `v` to a mapped word (20_memory R66): CMD runs the command word (40_command R110); IN_LEN and IN store
the value; every other write is ignored (10_state R36, R37, 20_memory R69). -/
def writeTarget (t : Target) (v : Word) (a : Access) (s : State) : Host.Outcome State Fault Refusal :=
  match t with
  | .reg off =>
    if off = 0x000 then exec (decodeWord v) (s.record a .ack)
    else if off = 0x008 then .next { s.record a .ack with block := s.block.writeInLen v }
    else .next (s.record a .ack)
  | .inWord i => .next { s.record a .ack with block := s.block.writeIn i v }
  | .outWord _ => .next (s.record a .ack)

/-- One bus access. A bus error is reported on the bus and changes no block state (20_memory R62, R63,
60_exceptions R226; log 10). An access while reset is asserted is refused (93 U4). -/
def busAccess (a : Access) (s : State) : Host.Outcome State Fault Refusal :=
  if s.block.inReset then .refused .accessDuringReset
  else
    match a with
    | .read width off =>
      match decodeAccess s.block.params width off with
      | .error e => .next (s.record a (.error e))
      | .ok t => .next (readTarget t a s)
    | .write width off v =>
      match decodeAccess s.block.params width off with
      | .error e => .next (s.record a (.error e))
      | .ok t => writeTarget t v a s

/-! ## The host-program notation -/

/-- `RD off` (30_encoding R100). -/
def rd (off : Nat) : Access := .read .w32 off

/-- `WR off, val` (30_encoding R100). -/
def wr (off : Nat) (val : Word) : Access := .write .w32 off val

/-- `LOADSTR "t"`: the symbols into IN from index 0, then the length into IN_LEN (30_encoding R101). -/
def loadStr (t : List Sym) : List HostOp :=
  t.zipIdx.map (fun x => .access (wr (inAddr x.2) (wordOfSym x.1))) ++
    [.access (wr 0x008 (BitVec.ofNat 32 t.length))]

/-- `RUN`: the command word to CMD, then `WAIT` (30_encoding R101). -/
def runCommand (i : Instr) : List HostOp := [.access (wr 0x000 (encode i)), .wait]

/-- The reads of `READOUT` after OUT_LEN has been read as `n` (30_encoding R101). -/
def outReads (n : Nat) : List HostOp := (List.range' 0 n).map (fun i => .access (rd (outAddr i)))

/-- The host's step for the operation at the head of its list, `s` being the state with that operation taken off.
`WAIT` reads STATUS and stays at the head while `s[1:0] = 1`; `READOUT` reads OUT_LEN and puts the reads of
`OUT[0..n)` at the head (30_encoding R101). -/
def hostStep (op : HostOp) (s : State) : Host.Outcome State Fault Refusal :=
  match op with
  | .access a => busAccess a s
  | .wait =>
    if stateField (s.block.readReg 0x004) = 1 then busAccess (rd 0x004) { s with host := .wait :: s.host }
    else busAccess (rd 0x004) s
  | .readOut =>
    busAccess (rd 0x00C) { s with host := outReads (s.block.readReg 0x00C).toNat ++ s.host }
  | .assertReset => .next { s with block := s.block.assertReset }
  | .releaseReset => .next { s with block := s.block.releaseReset }

end Sys2Proof.Machine
end

