-- ==== Sys2Proof/Machine/Decoder.lean ====
section
/-! DEFINITION. DECODE's phases AWAIT_HEADER, PARSE_TABLE and PARSE_STREAM and the function `F_DECODE`
(44_decoder). -/

namespace Sys2Proof.Machine

/-! ## AWAIT_HEADER: the grammar -/

/-- Scan one entry at the front of `d` (44_decoder R182): the entry, whether LF (the table-to-stream separator) ends
it, and the characters after its separator; none on a mismatch. -/
def scanEntry (d : List Sym) : Option (Entry × Bool × List Sym) :=
  match d with
  | sym :: c :: r =>
    if c ≠ colon then none
    else if r.takeWhile isBit = [] then none
    else
      match r.dropWhile isBit with
      | [] => none
      | sep :: rest =>
        if sep = semi then some ((sym, (r.takeWhile isBit).map charbit), false, rest)
        else if sep = lf then some ((sym, (r.takeWhile isBit).map charbit), true, rest)
        else none
  | _ => none

/-- Scan the table section, at most `fuel` entries: the entries and the characters after it (44_decoder R182). -/
def scanTable (fuel : Nat) (d : List Sym) : Option (List Entry × List Sym) :=
  match fuel with
  | 0 => none
  | fuel + 1 =>
    match scanEntry d with
    | none => none
    | some (e, true, rest) => some ([e], rest)
    | some (e, false, rest) =>
      match scanTable fuel rest with
      | none => none
      | some (es, rest') => some (e :: es, rest')

/-- The bitstream line is not empty and holds only bit characters (44_decoder R182, 30_encoding R92). -/
def streamOk (d : List Sym) : Bool := !d.isEmpty && d.all isBit

/-- `VALIDATE(d)`: the entries and the bitstream characters `d[T..L)` (44_decoder R182, R184); none is
INVALID_FORMAT. An entry has more than one character, so `len(d)` entries are enough. -/
def validate (d : List Sym) : Option (List Entry × List Sym) :=
  match scanTable d.length d with
  | none => none
  | some (es, stream) => if streamOk stream then some (es, stream) else none

/-! ## PARSE_TABLE -/

/-- `RCT[code]`, if `code` has an entry (an exact match, 44_decoder R188). -/
def symOfCode (rct : RevTable) (c : Code) : Option Sym :=
  match rct with
  | [] => none
  | (k, s) :: r => if c = k then some s else symOfCode r c

/-- One entry put into RCT (44_decoder R185-R187): the code-length check, then the duplicate check, then the
table-full check (60_exceptions R213). -/
def addEntry (p : Params) (rct : RevTable) (e : Entry) : Except ErrCode RevTable :=
  if p.maxCodeLen < e.2.length then .error .capacity
  else
    match symOfCode rct e.2 with
    | some s => if s ≠ e.1 then .error .duplicateCode else .ok rct
    | none => if rct.length = p.rctCap then .error .capacity else .ok (rct ++ [(e.2, e.1)])

/-- `PARSE_TABLE(entries)`, from the RCT built so far (44_decoder R185). -/
def parseTable (p : Params) (rct : RevTable) (es : List Entry) : Except ErrCode RevTable :=
  match es with
  | [] => .ok rct
  | e :: r =>
    match addEntry p rct e with
    | .error c => .error c
    | .ok rct' => parseTable p rct' r

/-! ## PARSE_STREAM -/

/-- The greedy walk from accumulator `acc` over the bits left (44_decoder R188): the symbols emitted and the
accumulator at the end. -/
def walkStream (rct : RevTable) (acc : Code) (bits : Code) : List Sym × Code :=
  match bits with
  | [] => ([], acc)
  | x :: r =>
    match symOfCode rct (acc ++ [x]) with
    | some s => (s :: (walkStream rct [] r).1, (walkStream rct [] r).2)
    | none => walkStream rct (acc ++ [x]) r

/-! ## `F_DECODE` -/

/-- The result registers of a DECODE that reaches DONE (44_decoder R180, R192), for a document of `len` characters
whose bitstream has `streamLen` and decodes to `outLen` symbols. -/
def decodeResults (len streamLen outLen nEntries : Nat) : Results where
  outLen := outLen
  tableLen := len - streamLen
  streamLen := streamLen
  symCount := outLen
  entries := nEntries

/-- `F_DECODE(d)` (44_decoder R180, 40_command R115). -/
def fDecode (p : Params) (d : List Sym) : OpResult :=
  match validate d with
  | none => .err .invalidFormat .awaitHeader
  | some (es, stream) =>
    match parseTable p [] es with
    | .error c => .err c .parseTable
    | .ok rct =>
      if (walkStream rct [] (stream.map charbit)).2 = [] then
        .ok (walkStream rct [] (stream.map charbit)).1
          (decodeResults d.length stream.length (walkStream rct [] (stream.map charbit)).1.length es.length)
          .parseStream
      else .err .truncatedStream .parseStream

/-! ## The block's iterations -/

/-- One iteration in phase AWAIT_HEADER (44_decoder R182): one entry of the table section; after its end, the whole
bitstream line is checked and PARSE_TABLE is entered. -/
def Block.tickAwaitHeader (b : Block) : Block :=
  match b.work.tableEnd with
  | none =>
    match scanEntry b.unread with
    | none => b.raise .invalidFormat .awaitHeader
    | some (e, last, rest) => b.withWork
        { b.work with
          entries := b.work.entries ++ [e]
          inPos := b.textLen - rest.length
          tableEnd := if last then some (b.textLen - rest.length) else none }
  | some _ =>
    if streamOk b.unread then b.enter .parseTable { b.work with entryPos := 0, rct := [] }
    else b.raise .invalidFormat .awaitHeader

/-- One iteration in phase PARSE_TABLE (44_decoder R185): one entry put into RCT, or PARSE_STREAM entered. -/
def Block.tickParseTable (b : Block) : Block :=
  match b.work.entries.drop b.work.entryPos with
  | [] => b.enter .parseStream { b.work with acc := [], outPos := 0 }
  | e :: _ =>
    match addEntry b.params b.work.rct e with
    | .error c => b.raise c .parseTable
    | .ok rct => b.withWork { b.work with rct := rct, entryPos := b.work.entryPos + 1 }

/-- One iteration in phase PARSE_STREAM (44_decoder R188, R189): one bit appended to ACC and a symbol emitted to OUT on
an exact match; at the end `finish`, or TRUNCATED_STREAM if ACC is not empty. The table's end must have been found. -/
def Block.tickParseStream (b : Block) : Except Fault Block :=
  match b.work.tableEnd with
  | none => .error .corruptWork
  | some t =>
    match b.unread with
    | [] =>
      if b.work.acc = [] then
        .ok (b.finish (decodeResults b.textLen (b.textLen - t) b.work.outPos b.work.entries.length) .parseStream)
      else .ok (b.raise .truncatedStream .parseStream)
    | c :: _ =>
      match symOfCode b.work.rct (b.work.acc ++ [charbit c]) with
      | some s => .ok ((b.storeOut b.work.outPos s).withWork
          { b.work with acc := [], inPos := b.work.inPos + 1, outPos := b.work.outPos + 1 })
      | none => .ok (b.withWork
          { b.work with acc := b.work.acc ++ [charbit c], inPos := b.work.inPos + 1 })

end Sys2Proof.Machine
end

