-- ==== Sys2Proof/Machine/Builder.lean ====
section
/-! DEFINITION. ENCODE phases COUNT and BUILD (41_tree_builder): the frequency table and the Huffman tree, first as
functions of the text, then as the block's iterations. -/

namespace Sys2Proof.Machine

/-! ## COUNT -/

/-- One occurrence of `s`: `FT[s] + 1`, or 1 if `s` is unseen (41_tree_builder R131), the keys kept ascending. -/
def bumpCount (ft : FreqTable) (s : Sym) : FreqTable :=
  match ft with
  | [] => [(s, 1)]
  | (k, c) :: r =>
    if s = k then (k, c + 1) :: r
    else if s.toNat < k.toNat then (s, 1) :: (k, c) :: r
    else (k, c) :: bumpCount r s

/-- `COUNT(t)` (41_tree_builder R131). -/
def frequencies (t : List Sym) : FreqTable := t.foldl bumpCount []

/-! ## BUILD -/

/-- A node's weight (10_state R40). -/
def Node.weight : Node → Nat
  | .leaf _ w _ => w
  | .internal _ _ w _ => w

/-- A node's sequence number (41_tree_builder R135). -/
def Node.seqNo : Node → Nat
  | .leaf _ _ n => n
  | .internal _ _ _ n => n

/-- `x` has the lesser key `(w, seq)`, ordered lexicographically (41_tree_builder R135). -/
def Node.before (x y : Node) : Bool :=
  decide (x.weight < y.weight) || (x.weight == y.weight && decide (x.seqNo < y.seqNo))

/-- The leaves, in ascending order of symbol, numbered from `k` (41_tree_builder R134). -/
def leavesFrom (k : Nat) (ft : FreqTable) : List Node :=
  match ft with
  | [] => []
  | (s, w) :: r => .leaf s w k :: leavesFrom (k + 1) r

/-- The node of the pool with the least `(w, seq)`, and the pool without it (41_tree_builder R135, R136). -/
def takeLeast (pool : List Node) : Option (Node × List Node) :=
  match pool with
  | [] => none
  | x :: xs =>
    match takeLeast xs with
    | none => some (x, [])
    | some (m, rest) => if x.before m then some (x, xs) else some (m, x :: rest)

/-- One iteration of BUILD: the two least nodes become the left and the right child of a new internal node
(41_tree_builder R136, R137). A pool of fewer than two nodes stays. -/
def mergeLeast (pool : List Node) (next : Nat) : List Node :=
  match takeLeast pool with
  | none => pool
  | some (x, rest) =>
    match takeLeast rest with
    | none => pool
    | some (y, rest') => rest' ++ [.internal x y (x.weight + y.weight) next]

/-- BUILD's loop, at most `fuel` iterations: combine until one node is left, the root. -/
def buildLoop (fuel : Nat) (pool : List Node) (next : Nat) : Option Node :=
  match fuel, pool with
  | _, [] => none
  | _, [root] => some root
  | 0, x :: _ => some x
  | fuel + 1, pool => buildLoop fuel (mergeLeast pool next) (next + 1)

/-- `BUILD(FT)` (41_tree_builder R136): the root, or none for an empty table. Each iteration takes one node from the
pool, so `|FT|` iterations are enough. -/
def buildTree (ft : FreqTable) : Option Node := buildLoop ft.length (leavesFrom 0 ft) ft.length

/-! ## BUILD by sorted insertion, the source's own procedure (41_tree_builder R141) -/

/-- Insert a node "after every node of weight less than or equal to its own". -/
def insertByWeight (x : Node) (pool : List Node) : List Node :=
  match pool with
  | [] => [x]
  | y :: r => if x.weight < y.weight then x :: y :: r else y :: insertByWeight x r

/-- "Remove the two front nodes; insert the new node", at most `fuel` times. -/
def sortedLoop (fuel : Nat) (pool : List Node) (next : Nat) : Option Node :=
  match fuel, pool with
  | _, [] => none
  | _, [root] => some root
  | 0, x :: _ => some x
  | fuel + 1, x :: y :: r =>
    sortedLoop fuel (insertByWeight (.internal x y (x.weight + y.weight) next) r) (next + 1)

/-- "Keep the pool as a list sorted ascending by weight, leaves first in ascending symbol order among equal weights"
(41_tree_builder R141). -/
def buildTreeSorted (ft : FreqTable) : Option Node :=
  sortedLoop ft.length ((leavesFrom 0 ft).foldl (fun pool x => insertByWeight x pool) []) ft.length

/-! ## The block's iterations -/

/-- One iteration in phase COUNT (41_tree_builder R131, R132): fail on an empty text, count one symbol, or enter BUILD
with the leaves (R134). -/
def Block.tickCount (b : Block) : Block :=
  if b.textLen = 0 then b.raise .emptyInput .count
  else
    match b.unread with
    | s :: _ => b.withWork { b.work with ft := bumpCount b.work.ft s, inPos := b.work.inPos + 1 }
    | [] => b.enter .build
        { b.work with pool := leavesFrom 0 b.work.ft, nextSeq := b.work.ft.length }

/-- One iteration in phase BUILD (41_tree_builder R136): combine two nodes, or enter DERIVE with the root. An empty
pool belongs to no run. -/
def Block.tickBuild (b : Block) : Except Fault Block :=
  match b.work.pool with
  | [] => .error .corruptWork
  | [_] => .ok (b.enter .derive b.work)
  | pool => .ok (b.withWork
      { b.work with pool := mergeLeast pool b.work.nextSeq, nextSeq := b.work.nextSeq + 1 })

end Sys2Proof.Machine
end

