-- ==== Sys2Proof/Machine/Deriver.lean ====
section
/-! DEFINITION. ENCODE phase DERIVE (42_code_table_deriver): the code table from the tree. -/

namespace Sys2Proof.Machine

/-- `CT[s] <- c`, the keys kept ascending (00_scope R10). -/
def setCode (ct : CodeTable) (s : Sym) (c : Code) : CodeTable :=
  match ct with
  | [] => [(s, c)]
  | (k, d) :: r =>
    if s = k then (s, c) :: r
    else if s.toNat < k.toNat then (s, c) :: (k, d) :: r
    else (k, d) :: setCode r s c

/-- `CT[s]`, if `s` has an entry. -/
def codeOf (ct : CodeTable) (s : Sym) : Option Code :=
  match ct with
  | [] => none
  | (k, c) :: r => if s = k then some c else codeOf r s

/-- `walk(node, path)`: 0 when descending left, 1 when descending right (42_code_table_deriver R151). -/
def walkTree (n : Node) (path : Code) (ct : CodeTable) : CodeTable :=
  match n with
  | .leaf s _ _ => setCode ct s path
  | .internal l r _ _ => walkTree r (path ++ [true]) (walkTree l (path ++ [false]) ct)

/-- CT of a tree (42_code_table_deriver R151); a root leaf has the code "0" (R152). -/
def codeTable (root : Node) : CodeTable :=
  match root with
  | .leaf s _ _ => setCode [] s [false]
  | .internal l r w n => walkTree (.internal l r w n) [] []

/-- Some code is longer than MAX_CODE_LEN (42_code_table_deriver R154). -/
def codeTooLong (p : Params) (ct : CodeTable) : Bool := ct.any (fun e => decide (p.maxCodeLen < e.2.length))

/-- Phase DERIVE (42_code_table_deriver R151, R154): fail if a code is too long, else enter SERIALIZE with CT; the tree
is discarded (41_tree_builder R140). -/
def Block.tickDerive (b : Block) : Except Fault Block :=
  match b.work.pool with
  | [root] =>
    if codeTooLong b.params (codeTable root) then .ok (b.raise .capacity .derive)
    else .ok (b.enter .serialize
      { b.work with ct := codeTable root, pool := [], entryPos := 0, outPos := 0 })
  | _ => .error .corruptWork

end Sys2Proof.Machine
end

