-- ==== Sys2Proof/Machine/Encoder.lean ====
section
/-! DEFINITION. ENCODE phases SERIALIZE and EMIT and the function `F_ENCODE` (43_encoder). -/

namespace Sys2Proof.Machine

/-! ## The document -/

/-- One entry of the table section with the separator after it: SEMI, or LF after the last (43_encoder R162). -/
def entryText (e : Entry) (last : Bool) : List Sym :=
  [e.1, colon] ++ bitchars e.2 ++ [if last then lf else semi]

/-- `SERIALIZE(CT)`: the table section, entries in ascending order of symbol (43_encoder R162, R165). -/
def tableText (ct : CodeTable) : List Sym :=
  match ct with
  | [] => []
  | e :: r => entryText e r.isEmpty ++ tableText r

/-- `EMIT`'s bit sequence: the codes of the symbols in order (43_encoder R161). Every symbol of the text has a code
(42_code_table_deriver R153); one that has none would add nothing. -/
def bitstream (ct : CodeTable) (t : List Sym) : Code := t.flatMap (fun s => (codeOf ct s).getD [])

/-! ## `F_ENCODE` -/

/-- The result registers of an ENCODE that reaches DONE (43_encoder R160, R164). -/
def encodeResults (ct : CodeTable) (t : List Sym) : Results where
  outLen := (tableText ct).length + (bitstream ct t).length
  tableLen := (tableText ct).length
  streamLen := (bitstream ct t).length
  symCount := t.length
  entries := ct.length

/-- SERIALIZE, EMIT and `finish`, from the code table (43_encoder R160-R163). -/
def encodeDocument (p : Params) (t : List Sym) (ct : CodeTable) : OpResult :=
  if p.outCap < (tableText ct).length then .err .capacity .serialize
  else if p.outCap < (tableText ct).length + (bitstream ct t).length then .err .capacity .emit
  else .ok (tableText ct ++ bitchars (bitstream ct t)) (encodeResults ct t) .emit

/-- `F_ENCODE(t)` (43_encoder R160, 40_command R115). BUILD answers no root exactly for an empty table, which COUNT has
refused. -/
def fEncode (p : Params) (t : List Sym) : OpResult :=
  if t = [] then .err .emptyInput .count
  else
    match buildTree (frequencies t) with
    | none => .err .emptyInput .count
    | some root =>
      if codeTooLong p (codeTable root) then .err .capacity .derive
      else encodeDocument p t (codeTable root)

/-! ## The block's iterations -/

/-- One iteration in phase SERIALIZE (43_encoder R162): the capacity check, then one entry written to OUT at the OUT
cursor, or EMIT entered with the IN cursor at the first symbol. -/
def Block.tickSerialize (b : Block) : Block :=
  if b.params.outCap < (tableText b.work.ct).length then b.raise .capacity .serialize
  else
    match b.work.ct.drop b.work.entryPos with
    | [] => b.enter .emit { b.work with inPos := 0 }
    | e :: r => (b.storeOuts b.work.outPos (entryText e r.isEmpty)).withWork
        { b.work with
          entryPos := b.work.entryPos + 1
          outPos := b.work.outPos + (entryText e r.isEmpty).length }

/-- One iteration in phase EMIT (43_encoder R161): the capacity check, then one symbol's code written to OUT at the OUT
cursor, or `finish`. -/
def Block.tickEmit (b : Block) : Block :=
  if b.params.outCap < (tableText b.work.ct).length + (bitstream b.work.ct b.text).length then
    b.raise .capacity .emit
  else
    match b.unread with
    | [] => b.finish (encodeResults b.work.ct b.text) .emit
    | s :: _ => (b.storeOuts b.work.outPos (bitchars ((codeOf b.work.ct s).getD []))).withWork
        { b.work with
          inPos := b.work.inPos + 1
          outPos := b.work.outPos + ((codeOf b.work.ct s).getD []).length }

end Sys2Proof.Machine
end

