-- ==== Sys2Proof/Machine/Agents.lean ====
section
/-! DEFINITION. The block agent and the interleaving of host and block (00_scope R16, 40_command R117). -/

namespace Sys2Proof.Machine

/-! ## The block agent -/

/-- The first phase of the operation begins (30_encoding R85): COUNT for ENCODE, AWAIT_HEADER for DECODE. No other OP
runs (40_command R112, R114). -/
def Block.tickBegin (b : Block) : Except Fault Block :=
  if b.op = 1 then .ok (b.enter .count Work.empty)
  else if b.op = 2 then .ok (b.enter .awaitHeader Work.empty)
  else .error .corruptWork

/-- One iteration of the running operation's pseudocode, in the phase it is in. -/
def Block.tick (b : Block) : Except Fault Block :=
  match b.phase with
  | .noPhase => b.tickBegin
  | .count => .ok b.tickCount
  | .build => b.tickBuild
  | .derive => b.tickDerive
  | .serialize => .ok b.tickSerialize
  | .emit => .ok b.tickEmit
  | .awaitHeader => .ok b.tickAwaitHeader
  | .parseTable => .ok b.tickParseTable
  | .parseStream => b.tickParseStream

/-- At most `n` iterations, ending when the operation does. -/
def Block.ticks (n : Nat) (b : Block) : Except Fault Block :=
  match n with
  | 0 => .ok b
  | n + 1 =>
    if b.enabled then
      match b.tick with
      | .error f => .error f
      | .ok b' => Block.ticks n b'
    else .ok b

/-- One block step (40_command R117) of `extra + 1` iterations. -/
def blockStep (extra : Nat) (s : State) : Host.Outcome State Fault Refusal :=
  match s.block.ticks (extra + 1) with
  | .error f => .fault f
  | .ok b => .next { s with block := b }

/-! ## The interleaving -/

/-- The schedule's next choice: the one fixed from outside, else a fresh free value (log 5). -/
def State.nextSlot (s : State) : Slot :=
  match s.schedule with
  | c :: _ => c
  | [] => Config.slot s.draws

/-- The state once the schedule's next choice has been taken. -/
def State.takeSlot (s : State) : State :=
  match s.schedule with
  | _ :: r => { s with schedule := r }
  | [] => { s with draws := s.draws + 1 }

/-- The host's next operation, if it has one. Where it has none and the block is enabled, the block moves; where the
block is not enabled either, nothing happens (60_exceptions R225; log 12). -/
def hostMove (s : State) : Host.Outcome State Fault Refusal :=
  match s.host with
  | op :: rest => hostStep op { s with host := rest }
  | [] => if s.block.enabled then blockStep 0 s else .next s

/-- One step of the machine: while the block is enabled the schedule chooses between the host's next operation and a
block step; otherwise only the host can move (40_command R117). -/
def agentStep (s : State) : Host.Outcome State Fault Refusal :=
  if s.block.enabled then
    match s.nextSlot with
    | .host => hostMove s.takeSlot
    | .block extra => blockStep extra s.takeSlot
  else hostMove s

end Sys2Proof.Machine
end

