-- ==== Sys2Proof/Machine/Step.lean ====
section
/-! DEFINITION. The step of the machine, and how a command word comes to be its next instruction. -/

namespace Sys2Proof.Machine

/-- One step of the host or of the block (00_scope R16). -/
def step (s : State) : Host.Outcome State Fault Refusal := agentStep s

/-- `s` with the command word of low `nbits` bits `w` (the bits above zero) as what the very next step runs: the block
fetches no instructions (10_state R24, 20_memory R74), so the word is put where commands come from, a host write to CMD
at the head of the host's list; the reset input is released, without which no access reaches the block; and where the
block could move first, the schedule's next choice is the host (log 8). -/
def State.withFetchWord (s : State) (nbits w : Nat) : State :=
  { s with
    block := s.block.releaseReset
    host := .access (wr 0x000 (tableWord nbits w)) :: s.host
    schedule := if s.block.state = .busy then .host :: s.schedule else s.schedule }

end Sys2Proof.Machine
end

