-- ==== Sys2Proof/Safety.lean ====
section
/-! DEFINITION. The terms claims use: the invariant of the block, the end states of an operation, properties of trees
and code tables, and what counts as a clean run. -/

namespace Sys2Proof.Machine

/-! ## Clean runs -/

/-- A run is clean as long as no bus error is recorded: after one "the run is never a clean outcome"
(93_implementation_defined U7). -/
def State.clean (s : State) : Bool :=
  s.log.all fun x =>
    match x.2 with
    | .error _ => false
    | .data _ => true
    | .ack => true

/-- The state after `n` steps, or the first stop. -/
def steps (n : Nat) (s : State) : Host.Outcome State Fault Refusal :=
  match n with
  | 0 => .next s
  | n + 1 =>
    match step s with
    | .next t => steps n t
    | .fault f => .fault f
    | .refused r => .refused r

/-! ## Trees and code tables -/

/-- The leaves of a tree from left to right, each with its weight. -/
def Node.leaves : Node → List (Sym × Nat)
  | .leaf s w _ => [(s, w)]
  | .internal l r _ _ => l.leaves ++ r.leaves

/-- The sequence numbers of all the nodes of a tree. -/
def Node.seqNos : Node → List Nat
  | .leaf _ _ n => [n]
  | .internal l r _ n => n :: (l.seqNos ++ r.seqNos)

/-- How many internal nodes a tree has. -/
def Node.internals : Node → Nat
  | .leaf _ _ _ => 0
  | .internal l r _ _ => l.internals + r.internals + 1

/-- "For every Internal node, weight == left.weight + right.weight" (41_tree_builder R138). -/
def Node.weightsAdd : Node → Prop
  | .leaf _ _ _ => True
  | .internal l r w _ => w = l.weight + r.weight ∧ l.weightsAdd ∧ r.weightsAdd

/-- `x` has the smaller `(w, seq)`, ordered lexicographically (41_tree_builder R135). -/
def keyLess (x y : Node) : Prop := x.weight < y.weight ∨ (x.weight = y.weight ∧ x.seqNo < y.seqNo)

/-- "The first removed (the one with the smaller `(w, seq)`) becomes the left child and the second the right child"
(41_tree_builder R137), in every internal node. -/
def Node.leftFirst : Node → Prop
  | .leaf _ _ _ => True
  | .internal l r _ _ => keyLess l r ∧ l.leftFirst ∧ r.leftFirst

/-- Every leaf with sequence number `k` is the one of entry `k` of `ft` (41_tree_builder R134). -/
def Node.numbered (ft : FreqTable) : Node → Prop
  | .leaf s w k => ft[k]? = some (s, w)
  | .internal l r _ _ => l.numbered ft ∧ r.numbered ft

/-- The node a path leads to: 0 descends left, 1 descends right (42_code_table_deriver R151). -/
def Node.follow (n : Node) (path : Code) : Option Node :=
  match path, n with
  | [], n => some n
  | false :: p, .internal l _ _ _ => l.follow p
  | true :: p, .internal _ r _ _ => r.follow p
  | _ :: _, .leaf _ _ _ => none

/-- "No code is a prefix of another" (42_code_table_deriver R153). -/
def PrefixFree (ct : CodeTable) : Prop := ∀ e ∈ ct, ∀ f ∈ ct, e.2 <+: f.2 → e = f

/-! ## The operation state -/

/-- The phases an operation passes through (30_encoding R85): ENCODE (OP 1) and DECODE (OP 2). -/
def phaseOf (op : BitVec 4) : Phase → Bool
  | .noPhase => op == 1 || op == 2
  | .count | .build | .derive | .serialize | .emit => op == 1
  | .awaitHeader | .parseTable | .parseStream => op == 2

/-- The errors a command can raise, each with its phase of detection (60_exceptions R211, R212). -/
def errorOf (op : BitVec 4) : ErrCode → Phase → Bool
  | .illegalCommand, .noPhase => true
  | .capacity, .noPhase => op == 1 || op == 2
  | .emptyInput, .count => op == 1
  | .capacity, .derive | .capacity, .serialize | .capacity, .emit => op == 1
  | .invalidFormat, .awaitHeader => op == 2
  | .duplicateCode, .parseTable | .capacity, .parseTable => op == 2
  | .truncatedStream, .parseStream => op == 2
  | _, _ => false

/-- The result registers are all 0. -/
abbrev Block.ResultsZero (b : Block) : Prop :=
  b.outLen = 0 ∧ b.tableLen = 0 ∧ b.streamLen = 0 ∧ b.symCount = 0 ∧ b.entries = 0

/-- What the operation state is allowed to be in each STATE (10_state R26, R38, 30_encoding R85, R86). -/
def Block.StatusInv (b : Block) : Prop :=
  match b.state with
  | .idle => b.phase = .noPhase ∧ b.err = .noError ∧ b.op = 0
  | .busy => b.inReset = false ∧ phaseOf b.op b.phase = true ∧ b.err = .noError ∧ b.inLen.toNat ≤ b.params.inCap
  | .done => b.inReset = false ∧ b.err = .noError ∧
      ((b.op = 1 ∧ b.phase = .emit) ∨ (b.op = 2 ∧ b.phase = .parseStream))
  | .failed => b.inReset = false ∧ errorOf b.op b.err b.phase = true

/-- Every value in a result register is at most OUT_CAP (30_encoding R87), and 0 outside DONE (10_state R28-R32). In
DONE every OUT word below OUT_LEN has been written (10_state R34). -/
def Block.ResultInv (b : Block) : Prop :=
  (b.state ≠ .done → b.ResultsZero) ∧
  (b.outLen.toNat ≤ b.params.outCap ∧ b.tableLen.toNat ≤ b.params.outCap ∧ b.streamLen.toNat ≤ b.params.outCap ∧
    b.symCount.toNat ≤ b.params.outCap ∧ b.entries.toNat ≤ b.params.outCap) ∧
  (∀ i, i < b.outLen.toNat → (b.outWord? i).isSome = true)

/-- The byte offsets of the two buffers (20_memory R61). -/
abbrev bufferByte (p : Params) (a : Nat) : Prop :=
  (inBase ≤ a ∧ a < inBase + 4 * p.inCap) ∨ (outBase ≤ a ∧ a < outBase + 4 * p.outCap)

/-- Memory has its canonical form and lists only bytes of the buffers. -/
def Block.MemInv (b : Block) : Prop := b.mem.wf ∧ ∀ c ∈ b.mem, bufferByte b.params c.1

/-- How many leaves the trees of a pool have together. -/
def poolLeaves (pool : List Node) : Nat := (pool.map (fun n => n.leaves.length)).sum

/-- What the internal working state is in each phase of a running operation: the cursors stay inside the text and the
document, the tables are no larger than the text, and what a phase needs is there (10_state R39-R43, R70). Outside BUSY
nothing is held. -/
def Block.WorkInv (b : Block) : Prop :=
  if b.state = .busy then
    b.work.inPos ≤ b.textLen ∧ b.work.entries.length ≤ b.work.inPos ∧
    (∀ i, i < b.work.outPos → (b.outWord? i).isSome = true) ∧
    match b.phase with
    | .noPhase => b.work = Work.empty
    | .count => (b.work.inPos = 0 ∨ b.work.ft ≠ []) ∧ b.work.ft.length ≤ b.work.inPos ∧
        b.work.outPos = 0 ∧ b.work.entries = []
    | .build => b.work.pool ≠ [] ∧ poolLeaves b.work.pool ≤ b.textLen ∧ b.work.outPos = 0 ∧ b.work.entries = []
    | .derive => b.work.pool.length = 1 ∧ poolLeaves b.work.pool ≤ b.textLen ∧
        b.work.outPos = 0 ∧ b.work.entries = []
    | .serialize => b.work.entries = [] ∧ b.work.ct.length ≤ b.textLen ∧
        b.work.outPos + (tableText (b.work.ct.drop b.work.entryPos)).length = (tableText b.work.ct).length
    | .emit => b.work.entries = [] ∧ b.work.ct.length ≤ b.textLen ∧
        b.work.outPos + (bitstream b.work.ct b.unread).length =
          (tableText b.work.ct).length + (bitstream b.work.ct b.text).length
    | .awaitHeader => b.work.outPos = 0 ∧ (b.work.tableEnd = none ∨ b.work.tableEnd = some b.work.inPos)
    | .parseTable => b.work.outPos = 0 ∧ b.work.tableEnd = some b.work.inPos
    | .parseStream => ∃ t, b.work.tableEnd = some t ∧ b.work.outPos + t ≤ b.work.inPos
  else b.work = Work.empty

/-- The invariant of the block. -/
structure Block.Inv (b : Block) : Prop where
  legal : b.params.Legal
  status : b.StatusInv
  result : b.ResultInv
  memory : b.MemInv
  working : b.WorkInv

/-! ## The start and the end of an operation -/

/-- 40_command R112: the block that an accepted illegal command word with OP field `op` leaves. -/
def illegalBlock (b : Block) (op : BitVec 4) : Block :=
  { b with
    outLen := 0, tableLen := 0, streamLen := 0, symCount := 0, entries := 0
    op := op, phase := .noPhase, err := .illegalCommand, state := .failed, work := Work.empty }

/-- 40_command R114: the block that an accepted ENCODE (OP 1) or DECODE (OP 2) leaves: BUSY in phase NONE, or, when
IN_LEN is above IN_CAP, FAILED with CAPACITY in phase NONE. -/
def startedBlock (b : Block) (op : BitVec 4) : Block :=
  { b with
    outLen := 0, tableLen := 0, streamLen := 0, symCount := 0, entries := 0
    op := op, phase := .noPhase, work := Work.empty
    err := if b.params.inCap < b.inLen.toNat then .capacity else .noError
    state := if b.params.inCap < b.inLen.toNat then .failed else .busy }

/-- `b` is the state in which the operation that `b0` runs ends with outcome `r` (40_command R115): `finish` (R116) with
the output in OUT, or `raise` (60_exceptions R214). Parameters, OP, IN_LEN and the reset input are as before, nothing of
the internal state is held, and every byte outside the OUT words that may be written reads as before. -/
def Block.EndsAs (b0 b : Block) (r : OpResult) : Prop :=
  b.params = b0.params ∧ b.inReset = b0.inReset ∧ b.epoch = b0.epoch ∧ b.op = b0.op ∧ b.inLen = b0.inLen ∧
  b.work = Work.empty ∧
  match r with
  | .ok out res last =>
      b.state = .done ∧ b.phase = last ∧ b.err = .noError ∧
      b.outLen = BitVec.ofNat 32 res.outLen ∧ b.tableLen = BitVec.ofNat 32 res.tableLen ∧
      b.streamLen = BitVec.ofNat 32 res.streamLen ∧ b.symCount = BitVec.ofNat 32 res.symCount ∧
      b.entries = BitVec.ofNat 32 res.entries ∧
      res.outLen = out.length ∧ out.length ≤ b.params.outCap ∧
      (∀ i (h : i < out.length), b.outWord? i = some (wordOfSym out[i])) ∧
      (∀ a, a < outBase ∨ outAddr out.length ≤ a → b.mem.read? a = b0.mem.read? a)
  | .err code phase =>
      b.state = .failed ∧ b.phase = phase ∧ b.err = code ∧ b.ResultsZero ∧
      (∀ a, a < outBase ∨ outAddr b.params.outCap ≤ a → b.mem.read? a = b0.mem.read? a)

/-- A bound on the iterations of an operation that "depends only on IN_LEN and the parameters" (40_command R119). -/
def tickBound (inLen : Nat) : Nat := 4 * inLen + 8

end Sys2Proof.Machine
end

