-- ==== Sys2Proof/Certificates/Slice0/Obligations.lean ====
section
/-! DEFINITION. The statements about the block, each a numbered rule of spec/ or derived from named rules. Statements
about a run are stated for every state, so for every choice of the parameters, of the schedule and of the free
values. -/

open Sys2Proof Sys2Proof.Machine

/-! ## Encoding -/

/-- 30_encoding R81-R83: no bit of a command word is dropped. Decoding the word, or the byte lanes, of a well-formed
instruction gives the instruction back. -/
def Obligations.DecodeOfEncodeIsTheInstruction : Prop :=
  ∀ i : Instr, i.wf = true →
    decodeWord (encode i) = i ∧ ∀ rest, decodeBytes (encodeBytes i ++ rest) = .ok (i, rest)

/-- 30_encoding R82: every 32-bit word is the word of exactly one well-formed instruction. -/
def Obligations.EncodeOfDecodeIsTheWord : Prop :=
  ∀ w : Word, (decodeWord w).wf = true ∧ encode (decodeWord w) = w

/-- 30_encoding R82, R83: "a command word is legal exactly when `RSVD = 0` and `OP` is 0x0, 0x1 or 0x2"; the legal words
are those of NOP, ENCODE and DECODE, and every other word decodes to an illegal instruction with the same OP field. -/
def Obligations.OpcodeMapSelectsTheCommand : Prop :=
  ∀ w : Word,
    (decodeWord w = .nop ↔ rsvdField w = 0 ∧ opField w = 0) ∧
    (decodeWord w = .encode ↔ rsvdField w = 0 ∧ opField w = 1) ∧
    (decodeWord w = .decode ↔ rsvdField w = 0 ∧ opField w = 2) ∧
    (legalWord w = true ↔ rsvdField w = 0 ∧ (opField w = 0 ∨ opField w = 1 ∨ opField w = 2)) ∧
    (legalWord w = true ↔ decodeWord w = .nop ∨ decodeWord w = .encode ∨ decodeWord w = .decode) ∧
    (decodeWord w).op = opField w

/-- One word of each row of spec/opcode_table.json, written out from its encoding, decodes to the row's instruction. -/
def Obligations.WrittenOutWordsDecode : Prop :=
  decodeWord 0x00000000 = .nop ∧ decodeWord 0x00000001 = .encode ∧ decodeWord 0x00000002 = .decode ∧
  decodeWord 0x00000003 = .illegalOp3 ∧ decodeWord 0x00000006 = .illegalOp4to7 2 ∧
  decodeWord 0x0000000F = .illegalOp8toF 7 ∧ decodeWord 0x80000001 = .illegalRsvd 0x8000000 1

/-! ## A step runs the decoded command -/

/-- A step runs the decoded instruction (40_command R110, R111; log 8). A host write of `w` to CMD at the head of the
host's list, outside reset and where the host moves (the block is not enabled, or the schedule's next choice is the
host), makes the step `exec` of the decoded word, at the state with the operation taken off the list, the choice taken
from the schedule where there was one to make, and the write recorded as completed. The same for a word placed by
`withFetchWord`, whatever else the state holds. -/
def Obligations.StepRunsTheDecodedCommand : Prop :=
  (∀ (s : State) (w : Word) (rest : List HostOp),
    s.host = .access (wr 0x000 w) :: rest → s.block.inReset = false → s.block.state ≠ .busy →
    step s = exec (decodeWord w) { s with host := rest, log := (wr 0x000 w, .ack) :: s.log }) ∧
  (∀ (s : State) (w : Word) (rest : List HostOp),
    s.host = .access (wr 0x000 w) :: rest → s.block.inReset = false → s.block.state = .busy → s.nextSlot = .host →
    step s = exec (decodeWord w) { s.takeSlot with host := rest, log := (wr 0x000 w, .ack) :: s.log }) ∧
  (∀ (s : State) (nbits w : Nat) (i : Instr), decodeTableWord nbits w = some i →
    step (s.withFetchWord nbits w) =
      exec i { s with
        block := { s.block with inReset := false }
        log := (wr 0x000 (tableWord nbits w), .ack) :: s.log })

/-- 20_memory R64: where the host moves, a step is the next bus access of its list, whole, and nothing else. -/
def Obligations.StepPerformsTheNextAccess : Prop :=
  ∀ (s : State) (a : Access) (rest : List HostOp), s.host = .access a :: rest →
    (s.block.enabled = false → step s = busAccess a { s with host := rest }) ∧
    (s.block.enabled = true → s.nextSlot = .host → step s = busAccess a { s.takeSlot with host := rest })

/-! ## The command words -/

/-- 40_command R113: NOP completes in every state and changes nothing at all. -/
def Obligations.NopHasNoEffect : Prop := ∀ s : State, exec .nop s = .next s

/-- 40_command R112: each of the four illegal command words, accepted, completes in FAILED with ILLEGAL_COMMAND and
STATUS.OP = w[3:0], the result registers 0, and everything else as before; and so does any CMD word with
`w[31:4] != 0` or `w[3:0]` in 0x3-0xF. -/
def Obligations.IllegalCommandFails : Prop :=
  ∀ s : State, s.block.state ≠ .busy →
    exec .illegalOp3 s = .next { s with block := illegalBlock s.block 0x3 } ∧
    (∀ o, exec (.illegalOp4to7 o) s = .next { s with block := illegalBlock s.block (0b01#2 ++ o) }) ∧
    (∀ o, exec (.illegalOp8toF o) s = .next { s with block := illegalBlock s.block (0b1#1 ++ o) }) ∧
    (∀ r op, exec (.illegalRsvd r op) s = .next { s with block := illegalBlock s.block op }) ∧
    (∀ w : Word, rsvdField w ≠ 0 ∨ 3 ≤ (opField w).toNat →
      exec (decodeWord w) s = .next { s with block := illegalBlock s.block (opField w) })

/-- 40_command R114: the start of ENCODE and of DECODE. -/
def Obligations.EncodeAndDecodeStart : Prop :=
  ∀ s : State, s.block.state ≠ .busy →
    exec .encode s = .next { s with block := startedBlock s.block 1 } ∧
    exec .decode s = .next { s with block := startedBlock s.block 2 }

/-- 40_command R111: "a host write to CMD while STATE = BUSY is ignored", whatever the word. -/
def Obligations.CommandWhileBusyIsIgnored : Prop :=
  ∀ (i : Instr) (s : State), s.block.state = .busy → exec i s = .next s

/-- The frame of the seven command words (NOP, ENCODE, DECODE, ILLEGAL_OP3, ILLEGAL_OP4_7, ILLEGAL_OP8_F,
ILLEGAL_RSVD): each completes, and leaves the parameters, the reset input, IN_LEN, the epoch, every byte of IN and OUT,
and the outside world's lists as they were (40_command R110-R114, R122). -/
def Obligations.CommandWordsFrame : Prop :=
  ∀ (i : Instr) (s : State), ∃ t, exec i s = .next t ∧
    t.block.params = s.block.params ∧ t.block.inReset = s.block.inReset ∧ t.block.inLen = s.block.inLen ∧
    t.block.epoch = s.block.epoch ∧ (∀ a, t.block.mem.read? a = s.block.mem.read? a) ∧
    t.host = s.host ∧ t.log = s.log ∧ t.schedule = s.schedule ∧ t.draws = s.draws

/-! ## The operations -/

/-- ENCODE completes with its function's outcome (00_scope R15, 40_command R115-R118, 43_encoder R160): accepted
outside reset with IN_LEN at most IN_CAP, it makes the block BUSY, and after at most `tickBound IN_LEN` iterations, in
however many block steps they are made (the iterations and their bound are the model's, log 6), the block is in the end
state of `F_ENCODE(IN[0..IN_LEN))`. -/
def Obligations.EncodeEndsWithItsFunction : Prop :=
  ∀ s : State, s.block.Inv → s.block.inReset = false → s.block.state ≠ .busy →
    s.block.inLen.toNat ≤ s.block.params.inCap →
    ∃ t b, exec .encode s = .next t ∧ t.block.state = .busy ∧ t.block.op = 1 ∧
      (∀ k, tickBound s.block.inLen.toNat ≤ k → t.block.ticks k = .ok b) ∧
      t.block.EndsAs b (fEncode s.block.params s.block.text)

/-- DECODE completes with its function's outcome (00_scope R15, 40_command R115-R118, 44_decoder R180; the iterations and
their bound are the model's, log 6). -/
def Obligations.DecodeEndsWithItsFunction : Prop :=
  ∀ s : State, s.block.Inv → s.block.inReset = false → s.block.state ≠ .busy →
    s.block.inLen.toNat ≤ s.block.params.inCap →
    ∃ t b, exec .decode s = .next t ∧ t.block.state = .busy ∧ t.block.op = 2 ∧
      (∀ k, tickBound s.block.inLen.toNat ≤ k → t.block.ticks k = .ok b) ∧
      t.block.EndsAs b (fDecode s.block.params s.block.text)

/-- 40_command R120, R121: "the outcome of an operation depends only on `IN[0..IN_LEN)` at acceptance, on OP and on the
parameters". Two accepted operations with the same word, parameters, IN_LEN and text, in blocks that otherwise differ in
any way, end in the same STATE, PHASE, ERR and result registers, with the same OUT words below OUT_LEN. -/
def Obligations.OutcomeIsIndependent : Prop :=
  ∀ (i : Instr) (s1 s2 : State), i = .encode ∨ i = .decode →
    s1.block.Inv → s2.block.Inv → s1.block.params = s2.block.params →
    s1.block.inReset = false → s2.block.inReset = false → s1.block.state ≠ .busy → s2.block.state ≠ .busy →
    s1.block.inLen = s2.block.inLen → s1.block.inLen.toNat ≤ s1.block.params.inCap →
    s1.block.text = s2.block.text →
    ∃ t1 t2 b1 b2 n, exec i s1 = .next t1 ∧ exec i s2 = .next t2 ∧
      (∀ k, n ≤ k → t1.block.ticks k = .ok b1 ∧ t2.block.ticks k = .ok b2) ∧
      (b1.state = .done ∨ b1.state = .failed) ∧
      b1.state = b2.state ∧ b1.phase = b2.phase ∧ b1.err = b2.err ∧ b1.op = b2.op ∧
      b1.outLen = b2.outLen ∧ b1.tableLen = b2.tableLen ∧ b1.streamLen = b2.streamLen ∧
      b1.symCount = b2.symCount ∧ b1.entries = b2.entries ∧
      (b1.state = .done → ∀ j, j < b1.outLen.toNat → b1.outWord? j = b2.outWord? j)

/-- 40_command R119: "every accepted ENCODE or DECODE reaches DONE or FAILED after finitely many block steps; the bound
depends only on IN_LEN and the parameters". From every running operation the invariant admits, `tickBound IN_LEN` block
steps, each of any number of iterations, end it (the bound is the model's, log 6). -/
def Obligations.OperationsTerminate : Prop :=
  ∀ (s : State) (extras : List Nat), s.block.Inv → s.block.state = .busy →
    tickBound s.block.inLen.toNat ≤ extras.length →
    ∃ b, extras.foldlM (fun b extra => Block.ticks (extra + 1) b) s.block = .ok b ∧
      (b.state = .done ∨ b.state = .failed)

/-- 43_encoder R168: the round trip. The document an ENCODE produces, when it fits IN and the reverse code table, is
decoded to the text, with the document's own TABLE_LEN, STREAM_LEN and ENTRIES. -/
def Obligations.DecodeOfEncodeIsTheText : Prop :=
  ∀ (p : Params) (t d : List Sym) (r : Results) (last : Phase), p.Legal → t.length ≤ p.inCap →
    fEncode p t = .ok d r last → d.length ≤ p.inCap → r.entries ≤ p.rctCap →
    fDecode p d = .ok t
      { outLen := t.length, tableLen := r.tableLen, streamLen := r.streamLen, symCount := t.length,
        entries := r.entries } .parseStream

/-! ## Invariants and whole-machine rules -/

/-- 10_state R45: the invariant holds right after reset. -/
def Obligations.InvariantHoldsAtReset : Prop := State.reset.block.Inv

/-- Every step of host or block keeps the invariant of the block (10_state R26, R28-R34, R38, 20_memory R70,
30_encoding R85-R87, 60_exceptions R211, R212). -/
def Obligations.EveryStepKeepsTheInvariant : Prop :=
  ∀ s t : State, s.block.Inv → step s = .next t → t.block.Inv

/-- No state the invariant admits faults: the internal state always belongs to the operation (93 U12). -/
def Obligations.NoStepFaults : Prop := ∀ (s : State) (f : Fault), s.block.Inv → step s ≠ .fault f

/-- The only refusal is a host access while reset is asserted (70_reset R240, 93 U4). -/
def Obligations.OnlyAccessDuringResetIsRefused : Prop :=
  ∀ (s : State) (r : Refusal), step s = .refused r → r = .accessDuringReset ∧ s.block.inReset = true

/-- 10_state R38: "STATE changes only: to BUSY, DONE or FAILED when a command is accepted; from BUSY to DONE or FAILED
when the operation ends; to IDLE only at reset", and "PHASE changes only while BUSY, at acceptance (set to NONE), and at
reset". (An accepted NOP changes nothing, an accepted illegal word ends in FAILED, an accepted ENCODE or DECODE in BUSY
or FAILED.) -/
def Obligations.StateChangesOnlyAsListed : Prop :=
  ∀ s t : State, step s = .next t →
    (t.block.state ≠ s.block.state →
      (∃ w rest, s.host = .access (wr 0x000 w) :: rest ∧ s.block.state ≠ .busy ∧ decodeWord w ≠ .nop ∧
        (t.block.state = .failed ∨ (t.block.state = .busy ∧ (decodeWord w = .encode ∨ decodeWord w = .decode)))) ∨
      (s.block.state = .busy ∧ (t.block.state = .done ∨ t.block.state = .failed)) ∨
      (∃ rest, s.host = .assertReset :: rest ∧ t.block.state = .idle)) ∧
    (t.block.phase ≠ s.block.phase →
      s.block.state = .busy ∨
      (t.block.phase = .noPhase ∧ ((∃ w rest, s.host = .access (wr 0x000 w) :: rest ∧ decodeWord w ≠ .nop) ∨
        ∃ rest, s.host = .assertReset :: rest)))

/-- 40_command R117: while STATE is not BUSY the block has no step; with nothing for the host to do either, a step
changes nothing (log 12). -/
def Obligations.IdleMachineStaysAsItIs : Prop :=
  ∀ s : State, s.block.state ≠ .busy → s.host = [] → step s = .next s

/-- 40_command R117: a block step that leaves STATE = BUSY sets PHASE to a phase of the operation no earlier than the
phase it was in, and never to NONE. -/
def Obligations.PhaseOnlyAdvances : Prop :=
  ∀ (extra : Nat) (s t : State), s.block.Inv → s.block.state = .busy → blockStep extra s = .next t →
    t.block.state = .busy →
    t.block.op = s.block.op ∧ phaseOf t.block.op t.block.phase = true ∧ t.block.phase ≠ .noPhase ∧
    s.block.phase.code ≤ t.block.phase.code

/-- 20_memory R70, 44_decoder R193: a block step, of ENCODE or DECODE, on success or failure, writes no byte of IN and
no byte at or above OUT word OUT_CAP, and leaves IN_LEN, OP, the parameters and the outside world's lists unchanged. -/
def Obligations.BlockStepsLeaveTheInputAlone : Prop :=
  ∀ (extra : Nat) (s t : State), s.block.Inv → s.block.state = .busy → blockStep extra s = .next t →
    (∀ a, a < outBase ∨ outAddr s.block.params.outCap ≤ a → t.block.mem.read? a = s.block.mem.read? a) ∧
    (∀ i, i < s.block.params.inCap → t.block.inSym i = s.block.inSym i) ∧
    t.block.inLen = s.block.inLen ∧ t.block.op = s.block.op ∧ t.block.params = s.block.params ∧
    t.block.epoch = s.block.epoch ∧ t.block.inReset = s.block.inReset ∧
    t.host = s.host ∧ t.log = s.log ∧ t.schedule = s.schedule ∧ t.draws = s.draws

/-- 60_exceptions R214, R215: a block step that ends an operation in FAILED records an error of R211 with its phase of
detection, keeps OP, commits no output (every result register 0), discards the internal state and leaves IN and IN_LEN
unchanged. -/
def Obligations.FailureCommitsNothing : Prop :=
  ∀ (extra : Nat) (s t : State), s.block.Inv → s.block.state = .busy → blockStep extra s = .next t →
    t.block.state = .failed →
    errorOf s.block.op t.block.err t.block.phase = true ∧ t.block.err ≠ .illegalCommand ∧
    t.block.op = s.block.op ∧ t.block.ResultsZero ∧ t.block.work = Work.empty ∧
    t.block.inLen = s.block.inLen ∧ (∀ i, i < s.block.params.inCap → t.block.inSym i = s.block.inSym i)

/-- 20_memory R71 (b), 60_exceptions R216: once STATE is DONE or FAILED, every later step that is neither a host write
to CMD nor reset leaves STATUS, the result registers and the OUT words unchanged. -/
def Obligations.ResultsStayUntilTheNextCommand : Prop :=
  ∀ s t : State, s.block.params.Legal → s.block.state = .done ∨ s.block.state = .failed → step s = .next t →
    s.host.head? ≠ some .assertReset → (∀ w, s.host.head? ≠ some (.access (wr 0x000 w))) →
    t.block.statusWord = s.block.statusWord ∧ t.block.outLen = s.block.outLen ∧
    t.block.tableLen = s.block.tableLen ∧ t.block.streamLen = s.block.streamLen ∧
    t.block.symCount = s.block.symCount ∧ t.block.entries = s.block.entries ∧
    (∀ i, t.block.outWord? i = s.block.outWord? i)

/-! ## The register page and the buffers -/

/-- 30_encoding R84: the fields of the STATUS word and its reserved bits, and the formula
`STATUS = zext_32(OP << 12 | ERR << 8 | PHASE << 4 | STATE)`, with the number of every STATE and PHASE (30_encoding R85)
and of every ERR (60_exceptions R211). -/
def Obligations.StatusWordFormat : Prop :=
  ∀ b : Block,
    stateField b.statusWord =
      (match b.state with
        | .idle => 0
        | .busy => 1
        | .done => 2
        | .failed => 3) ∧
    phaseField b.statusWord =
      (match b.phase with
        | .noPhase => 0
        | .count => 1
        | .build => 2
        | .derive => 3
        | .serialize => 4
        | .emit => 5
        | .awaitHeader => 8
        | .parseTable => 9
        | .parseStream => 10) ∧
    errField b.statusWord =
      (match b.err with
        | .noError => 0
        | .emptyInput => 1
        | .invalidFormat => 2
        | .duplicateCode => 3
        | .truncatedStream => 4
        | .capacity => 5
        | .illegalCommand => 6) ∧
    statusOpField b.statusWord = b.op ∧
    b.statusWord.extractLsb' 2 2 = 0 ∧ b.statusWord.extractLsb' 16 16 = 0 ∧
    b.statusWord.toNat = b.op.toNat * 2 ^ 12 + (errField b.statusWord).toNat * 2 ^ 8 +
      (phaseField b.statusWord).toNat * 2 ^ 4 + (stateField b.statusWord).toNat

/-- 10_state R23, R25, R35, R36, 30_encoding R88: what a read of each word of the register page returns. -/
def Obligations.RegisterPageReads : Prop :=
  ∀ s : State, s.block.inReset = false →
    busAccess (rd 0x000) s = .next (s.record (rd 0x000) (.data 0)) ∧
    busAccess (rd 0x004) s = .next (s.record (rd 0x004) (.data s.block.statusWord)) ∧
    busAccess (rd 0x008) s = .next (s.record (rd 0x008) (.data s.block.inLen)) ∧
    busAccess (rd 0x00C) s = .next (s.record (rd 0x00C) (.data s.block.outLen)) ∧
    busAccess (rd 0x010) s = .next (s.record (rd 0x010) (.data s.block.tableLen)) ∧
    busAccess (rd 0x014) s = .next (s.record (rd 0x014) (.data s.block.streamLen)) ∧
    busAccess (rd 0x018) s = .next (s.record (rd 0x018) (.data s.block.symCount)) ∧
    busAccess (rd 0x01C) s = .next (s.record (rd 0x01C) (.data s.block.entries)) ∧
    busAccess (rd 0x020) s = .next (s.record (rd 0x020) (.data (BitVec.ofNat 32 s.block.params.symW.bits))) ∧
    busAccess (rd 0x024) s = .next (s.record (rd 0x024) (.data (BitVec.ofNat 32 s.block.params.inCap))) ∧
    busAccess (rd 0x028) s = .next (s.record (rd 0x028) (.data (BitVec.ofNat 32 s.block.params.outCap))) ∧
    busAccess (rd 0x02C) s = .next (s.record (rd 0x02C) (.data (BitVec.ofNat 32 s.block.params.maxCodeLen))) ∧
    busAccess (rd 0x030) s = .next (s.record (rd 0x030) (.data (BitVec.ofNat 32 s.block.params.rctCap))) ∧
    (∀ off, off % 4 = 0 → 0x034 ≤ off → off ≤ 0xFFC →
      busAccess (rd off) s = .next (s.record (rd off) (.data 0)))

/-- 20_memory R66, 70_reset R249: "no host read has a side effect": a read of any width at any offset leaves the whole
block, the host's list and the schedule unchanged. That a read which is a bus error (20_memory R62, R63) completes too,
as a next state with an error response, is the model's choice (log 10). -/
def Obligations.ReadsHaveNoSideEffect : Prop :=
  ∀ (s : State) (width : Width) (off : Nat), s.block.inReset = false →
    ∃ t, busAccess (.read width off) s = .next t ∧ t.block = s.block ∧ t.host = s.host ∧ t.schedule = s.schedule

/-- 10_state R36, R37, 20_memory R66, R69: a write to a read-only register, a reserved offset or an OUT word is ignored
and is not a bus error. -/
def Obligations.IgnoredWrites : Prop :=
  ∀ (s : State) (off : Nat) (v : Word), s.block.inReset = false → off % 4 = 0 →
    ((0x004 ≤ off ∧ off ≤ 0xFFC ∧ off ≠ 0x008) ∨
      (s.block.params.Legal ∧ outBase ≤ off ∧ off < outAddr s.block.params.outCap)) →
    busAccess (wr off v) s = .next (s.record (wr off v) .ack)

/-- 10_state R27: IN_LEN takes any value, and a write while BUSY is ignored. -/
def Obligations.InLenTakesAnyValueUnlessBusy : Prop :=
  ∀ (s : State) (v : Word), s.block.inReset = false →
    (s.block.state ≠ .busy → busAccess (wr 0x008 v) s =
      .next { s with block := { s.block with inLen := v }, log := (wr 0x008 v, .ack) :: s.log }) ∧
    (s.block.state = .busy → busAccess (wr 0x008 v) s = .next (s.record (wr 0x008 v) .ack))

/-- 20_memory R68, 30_encoding R89: while not BUSY a write of `v` to `IN[i]` stores the symbol `v[SYM_W-1:0]`: the word
then holds it, every byte outside the four of the word and every other part of the block is unchanged; while BUSY the
write is ignored. -/
def Obligations.InWordStoresTheSymbol : Prop :=
  ∀ (s : State) (i : Nat) (v : Word), s.block.inReset = false → s.block.params.Legal → i < s.block.params.inCap →
    (s.block.state = .busy → busAccess (wr (inAddr i) v) s = .next (s.record (wr (inAddr i) v) .ack)) ∧
    (s.block.state ≠ .busy → ∃ m,
      busAccess (wr (inAddr i) v) s =
        .next { s with block := { s.block with mem := m }, log := (wr (inAddr i) v, .ack) :: s.log } ∧
      m.readWord? (inAddr i) = some (wordOfSym (symOfWord s.block.params.symW v)) ∧
      (∀ a, a < inAddr i ∨ inAddr i + 4 ≤ a → m.read? a = s.block.mem.read? a))

/-- 20_memory R68, 30_encoding R89: in every STATE a read of `IN[i]` returns the stored symbol zero-extended, and after
a write of `v` while not BUSY that is `zext_32(v[SYM_W-1:0])`. -/
def Obligations.InWordReadsBack : Prop :=
  ∀ (s : State) (i : Nat), s.block.inReset = false → s.block.params.Legal → i < s.block.params.inCap →
    busAccess (rd (inAddr i)) s = .next (s.record (rd (inAddr i)) (.data (wordOfSym (s.block.inSym i)))) ∧
    (∀ v t, s.block.state ≠ .busy → busAccess (wr (inAddr i) v) s = .next t →
      busAccess (rd (inAddr i)) t =
        .next (t.record (rd (inAddr i)) (.data (wordOfSym (symOfWord s.block.params.symW v)))))

/-- 20_memory R69: a read of `OUT[i]` in DONE below OUT_LEN returns the word the block last wrote there; such a word
exists in every state the invariant admits. -/
def Obligations.OutReadsDefinedBelowOutLen : Prop :=
  ∀ (s : State) (i : Nat), s.block.Inv → s.block.state = .done → i < s.block.outLen.toNat →
    ∃ w, s.block.outWord? i = some w ∧
      busAccess (rd (outAddr i)) s = .next (s.record (rd (outAddr i)) (.data w))

/-- 20_memory R69, 93 U3: every other read of OUT returns an unspecified value, in the model the next free value, a
fresh one per read (log 4, the model's choice of form); the block is unchanged. -/
def Obligations.OutReadsFreeElsewhere : Prop :=
  ∀ (s : State) (i : Nat), s.block.inReset = false → s.block.params.Legal → i < s.block.params.outCap →
    (s.block.state ≠ .done ∨ s.block.outLen.toNat ≤ i) →
    busAccess (rd (outAddr i)) s =
      .next { s with
        log := (rd (outAddr i), .data (Config.freeOut s.draws)) :: s.log
        draws := s.draws + 1 }

/-- 20_memory R62, R63, 60_exceptions R226: an access of another width, at an offset that is not a multiple of 4, or at
an unmapped offset is a bus error: the error response is all there is, and no block state changes, running operation
included (log 10). -/
def Obligations.BusErrorsChangeNothing : Prop :=
  ∀ (s : State) (width : Width) (off : Nat) (v : Word), s.block.inReset = false →
    (width ≠ .w32 ∨ off % 4 ≠ 0 ∨
      (0x1000 ≤ off ∧ ¬ bufferByte s.block.params off)) →
    ∃ e, busAccess (.read width off) s = .next (s.record (.read width off) (.error e)) ∧
      busAccess (.write width off v) s = .next (s.record (.write width off v) (.error e))

/-- 70_reset R240, 93 U4: a host access while reset is asserted has no meaning and is refused. -/
def Obligations.AccessDuringResetIsRefused : Prop :=
  ∀ (s : State) (a : Access), s.block.inReset = true → busAccess a s = .refused .accessDuringReset

/-- 30_encoding R101: `WAIT` reads STATUS, and stays at the head of the host's list exactly while the STATE it reads is
BUSY. -/
def Obligations.WaitRepeatsWhileBusy : Prop :=
  ∀ (s : State) (rest : List HostOp), s.host = .wait :: rest → s.block.inReset = false →
    (s.block.state ≠ .busy →
      step s = .next ({ s with host := rest }.record (rd 0x004) (.data s.block.statusWord))) ∧
    (s.block.state = .busy → s.nextSlot = .host →
      step s = .next ({ s.takeSlot with host := .wait :: rest }.record (rd 0x004) (.data s.block.statusWord)))

/-- 30_encoding R101: `LOADSTR "t"`, run while the block is not BUSY, makes `t` the text: the `len(t) + 1` host steps of
its expansion complete, after them `IN[0..IN_LEN)` is `t`, and STATUS, the five result registers and every OUT word are as
before. -/
def Obligations.LoadStrMakesTheText : Prop :=
  ∀ (s : State) (t : List Sym) (rest : List HostOp), s.host = loadStr t ++ rest → s.block.inReset = false →
    s.block.state ≠ .busy → s.block.params.Legal → t.length ≤ s.block.params.inCap →
    (∀ c ∈ t, symOfWord s.block.params.symW (wordOfSym c) = c) →
    ∃ u, steps (t.length + 1) s = .next u ∧ u.block.text = t ∧ u.host = rest ∧
      u.block.statusWord = s.block.statusWord ∧ u.block.params = s.block.params ∧
      u.block.outLen = s.block.outLen ∧ u.block.tableLen = s.block.tableLen ∧
      u.block.streamLen = s.block.streamLen ∧ u.block.symCount = s.block.symCount ∧
      u.block.entries = s.block.entries ∧ (∀ i, u.block.outWord? i = s.block.outWord? i)

/-- 30_encoding R101: `READOUT` in DONE reads OUT_LEN as `n` and then `OUT[0..n)`: its `n + 1` host steps complete, the
responses recorded are OUT_LEN and the words the block wrote, in order, and the block is as before. -/
def Obligations.ReadOutReturnsTheOutput : Prop :=
  ∀ (s : State) (rest : List HostOp), s.host = .readOut :: rest → s.block.Inv → s.block.state = .done →
    ∃ (u : State) (ws : List Word), steps (s.block.outLen.toNat + 1) s = .next u ∧
      ws.length = s.block.outLen.toNat ∧ (∀ i (h : i < ws.length), s.block.outWord? i = some ws[i]) ∧
      u = { s with
        host := rest
        log := (ws.zipIdx.map (fun x => (rd (outAddr x.2), Response.data x.1))).reverse ++
          (rd 0x00C, .data s.block.outLen) :: s.log }

/-! ## Reset -/

/-- 10_state R45, 70_reset R240, R241: asserting reset, whether nothing runs or at whatever point of an operation the
host moves, puts every register and field in its reset value, discards the internal state, keeps the parameters, and
makes IN and OUT unspecified; releasing it changes nothing but the reset input. The model's choices here are its forms of
"unspecified" (nothing listed in memory and a new epoch, logs 2, 3 and 15) and of "discarded" (`Work.empty`, log 7). -/
def Obligations.ResetPutsEveryRegisterInItsResetValue : Prop :=
  ∀ (s : State) (rest : List HostOp), s.host = .assertReset :: rest →
    (s.block.enabled = true → s.nextSlot = .host) →
    ∃ t, step s = .next t ∧ t.block.inReset = true ∧ t.block.params = s.block.params ∧
      t.block.state = .idle ∧ t.block.phase = .noPhase ∧ t.block.err = .noError ∧ t.block.op = 0 ∧
      t.block.statusWord = 0 ∧ t.block.inLen = 0 ∧ t.block.ResultsZero ∧ t.block.work = Work.empty ∧
      (∀ a, t.block.mem.read? a = none) ∧ t.block.epoch = s.block.epoch + 1 ∧ t.host = rest ∧
      ∀ rest', rest = .releaseReset :: rest' →
        step t = .next { t with block := { t.block with inReset := false }, host := rest' }

/-- 70_reset R241: "a reset while STATE = BUSY abandons the operation: it reaches neither DONE nor FAILED, and after
reset STATUS reads 0x0000_0000". -/
def Obligations.ResetAbandonsTheOperation : Prop :=
  ∀ (s : State) (rest : List HostOp), s.host = .assertReset :: .releaseReset :: rest → s.block.state = .busy →
    s.block.inReset = false → s.nextSlot = .host →
    ∃ t u, step s = .next t ∧ step t = .next u ∧ t.block.state = .idle ∧ u.block.state = .idle ∧
      u.block.inReset = false ∧ u.block.enabled = false ∧ u.block.readReg 0x004 = 0 ∧ u.host = rest

/-! ## The tree builder -/

/-- 41_tree_builder R133: the frequency table has an entry for exactly the symbols of the text, in ascending order, each
with its number of occurrences, at least 1; the weights sum to the length `N` of the text; and there are between 1 and
`min(N, 2^SYM_W)` entries. -/
def Obligations.FrequencyTableCountsTheText : Prop :=
  ∀ t : List Sym,
    (frequencies t).Pairwise (fun x y => x.1.toNat < y.1.toNat) ∧
    (∀ s n, (s, n) ∈ frequencies t ↔ s ∈ t ∧ n = t.count s) ∧ (∀ x ∈ frequencies t, 1 ≤ x.2) ∧
    ((frequencies t).map Prod.snd).sum = t.length ∧
    (t ≠ [] → 1 ≤ (frequencies t).length) ∧ (frequencies t).length ≤ t.length ∧
    (∀ w : SymW, (∀ c ∈ t, symOfWord w (wordOfSym c) = c) → (frequencies t).length ≤ 2 ^ w.bits)

/-- 41_tree_builder R138-R140: the tree of a non-empty text has one leaf per distinct symbol with its weight, one
internal node fewer than leaves, weights that add up, the text's length as the root's weight, and all nodes distinct.
R134, R137: the leaf of the `k`-th symbol has sequence number `k`, and in every internal node the left child is the one
with the smaller `(w, seq)`, the first removed. -/
def Obligations.TreeInvariants : Prop :=
  ∀ t : List Sym, t ≠ [] → ∃ root, buildTree (frequencies t) = some root ∧
    root.leaves.Perm (frequencies t) ∧ root.internals + 1 = (frequencies t).length ∧
    root.weightsAdd ∧ root.weight = t.length ∧ root.seqNos.Nodup ∧
    root.numbered (frequencies t) ∧ root.leftFirst

/-- 41_tree_builder R141: the source's sorted insertion builds the same tree as selection by `(w, seq)`. -/
def Obligations.SortedInsertionBuildsTheSameTree : Prop :=
  ∀ ft : FreqTable, buildTreeSorted ft = buildTree ft

/-! ## The code table -/

/-- 42_code_table_deriver R150, R153: the code table of a text has exactly one entry per distinct symbol, in ascending
order; every code is non-empty, and no code is a prefix of another. R151, R152: for two or more symbols a symbol's code
is the path from the root to its leaf, 0 left and 1 right, and for one it is the one bit 0. -/
def Obligations.CodeTableIsPrefixFree : Prop :=
  ∀ (t : List Sym) (root : Node), buildTree (frequencies t) = some root →
    (codeTable root).map Prod.fst = (frequencies t).map Prod.fst ∧
    (∀ e ∈ codeTable root, e.2 ≠ []) ∧ PrefixFree (codeTable root) ∧
    (2 ≤ (frequencies t).length → ∀ s c, (s, c) ∈ codeTable root ↔ ∃ w k, root.follow c = some (.leaf s w k)) ∧
    ((frequencies t).length = 1 → ∀ s c, (s, c) ∈ codeTable root ↔ c = [false] ∧ ∃ w k, root = .leaf s w k)

/-- 42_code_table_deriver R153: for two or more symbols the code lengths satisfy `sum of 2^(-l_s) = 1`. -/
def Obligations.CodeLengthsSumToOne : Prop :=
  ∀ (t : List Sym) (root : Node), buildTree (frequencies t) = some root → 2 ≤ (frequencies t).length →
    ((codeTable root).map (fun e => (1 / 2 : ℚ) ^ e.2.length)).sum = 1

/-- 42_code_table_deriver R154: "for `n` distinct symbols every code has at most `max(1, n - 1)` bits", so CAPACITY in
DERIVE cannot occur when `n` is at most MAX_CODE_LEN + 1. -/
def Obligations.CodeLengthBound : Prop :=
  ∀ (p : Params) (t : List Sym) (root : Node), buildTree (frequencies t) = some root →
    (∀ e ∈ codeTable root, e.2.length ≤ max 1 ((frequencies t).length - 1)) ∧
    (p.Legal → (frequencies t).length ≤ p.maxCodeLen + 1 → fEncode p t ≠ .err .capacity .derive)

/-- 41_tree_builder R139, 42_code_table_deriver R152: for a text of one distinct symbol, repeated `n + 1` times, the root
is the single leaf; a root leaf's code is the one bit 0; and the text encodes to the entry with code "0" and a bitstream
of `n + 1` CH_0 characters. -/
def Obligations.SingleSymbolText : Prop :=
  (∀ (s : Sym) (w k : Nat), codeTable (.leaf s w k) = [(s, [false])]) ∧
  (∀ (s : Sym) (n : Nat), buildTree (frequencies (List.replicate (n + 1) s)) = some (.leaf s (n + 1) 0)) ∧
  ∀ (p : Params) (s : Sym) (n : Nat), p.Legal → n + 5 ≤ p.outCap →
    fEncode p (List.replicate (n + 1) s) =
      .ok ([s, colon, ch0, lf] ++ List.replicate (n + 1) ch0)
        { outLen := n + 5, tableLen := 4, streamLen := n + 1, symCount := n + 1, entries := 1 } .emit

/-! ## The encoder -/

/-- 43_encoder R160-R164: a document ENCODE produces is the table section of the tree's code table, which ends in LF,
followed by the codes of the text's symbols in order, one bit character per bit; and its result registers. -/
def Obligations.EncodedDocumentLayout : Prop :=
  ∀ (p : Params) (t out : List Sym) (r : Results) (last : Phase), fEncode p t = .ok out r last →
    last = .emit ∧ r.outLen = out.length ∧ r.outLen = r.tableLen + r.streamLen ∧ out.length ≤ p.outCap ∧
    r.symCount = t.length ∧ r.entries = (frequencies t).length ∧ t.length ≤ r.streamLen ∧
    (out.take r.tableLen).getLast? = some lf ∧ (∀ c ∈ out.drop r.tableLen, isBit c = true) ∧
    ∃ root, buildTree (frequencies t) = some root ∧ out.take r.tableLen = tableText (codeTable root) ∧
      out.drop r.tableLen = bitchars (bitstream (codeTable root) t)

/-- 60_exceptions R212: "ENCODE can raise only CAPACITY and EMPTY_INPUT; DECODE can raise only CAPACITY, INVALID_FORMAT,
DUPLICATE_CODE and TRUNCATED_STREAM", each in its phase of R211; ENCODE raises EMPTY_INPUT exactly for an empty text
(41_tree_builder R132). -/
def Obligations.ErrorsOfEachOperation : Prop :=
  ∀ (p : Params) (t : List Sym) (code : ErrCode) (phase : Phase),
    (fEncode p t = .err code phase →
      (code = .emptyInput ∧ phase = .count ∧ t = []) ∨
      (code = .capacity ∧ (phase = .derive ∨ phase = .serialize ∨ phase = .emit) ∧ t ≠ [])) ∧
    (fDecode p t = .err code phase →
      (code = .invalidFormat ∧ phase = .awaitHeader) ∨ (code = .duplicateCode ∧ phase = .parseTable) ∨
      (code = .capacity ∧ phase = .parseTable) ∨ (code = .truncatedStream ∧ phase = .parseStream)) ∧
    fEncode p [] = .err .emptyInput .count ∧ fDecode p [] = .err .invalidFormat .awaitHeader

/-! ## The decoder -/

/-- 30_encoding R92, R96, 44_decoder R182: the validator accepts exactly the documents of the grammar, and finds the one
sequence of entries and the one bitstream of each. -/
def Obligations.ValidatorAcceptsExactlyTheGrammar : Prop :=
  ∀ (d : List Sym) (es : List Entry) (line : List Sym),
    validate d = some (es, line) ↔
      es ≠ [] ∧ (∀ e ∈ es, e.2 ≠ []) ∧
      ∃ stream : Code, stream ≠ [] ∧ line = bitchars stream ∧ d = tableText es ++ bitchars stream

/-- 44_decoder R185-R187: a table that PARSE_TABLE accepts gives every entry's code its symbol and holds nothing else,
within both capacities. -/
def Obligations.ReverseTableInvertsTheEntries : Prop :=
  ∀ (p : Params) (es : List Entry) (rct : RevTable), parseTable p [] es = .ok rct →
    (∀ c s, symOfCode rct c = some s ↔ (s, c) ∈ es) ∧
    (rct.map Prod.fst).Nodup ∧ rct.length ≤ p.rctCap ∧ (∀ e ∈ es, e.2.length ≤ p.maxCodeLen)

/-- 44_decoder R185-R187, 60_exceptions R213: the checks of one entry, in their order: the code-length check, then the
duplicate check, then the table-full check. -/
def Obligations.EntryChecksInOrder : Prop :=
  ∀ (p : Params) (rct : RevTable) (sym : Sym) (code : Code),
    (p.maxCodeLen < code.length → addEntry p rct (sym, code) = .error .capacity) ∧
    (code.length ≤ p.maxCodeLen → ∀ s, symOfCode rct code = some s → s ≠ sym →
      addEntry p rct (sym, code) = .error .duplicateCode) ∧
    (code.length ≤ p.maxCodeLen → symOfCode rct code = some sym → addEntry p rct (sym, code) = .ok rct) ∧
    (code.length ≤ p.maxCodeLen → symOfCode rct code = none → rct.length = p.rctCap →
      addEntry p rct (sym, code) = .error .capacity) ∧
    (code.length ≤ p.maxCodeLen → symOfCode rct code = none → rct.length < p.rctCap →
      ∃ rct', addEntry p rct (sym, code) = .ok rct' ∧ symOfCode rct' code = some sym ∧
        ∀ c, c ≠ code → symOfCode rct' c = symOfCode rct c)

/-- 44_decoder R188, R190: the walk emits the symbol of the shortest matching code and starts again with an empty
accumulator. -/
def Obligations.WalkEmitsTheShortestMatch : Prop :=
  ∀ (rct : RevTable) (c rest : Code) (s : Sym), c ≠ [] → symOfCode rct c = some s →
    (∀ k, 0 < k → k < c.length → symOfCode rct (c.take k) = none) →
    walkStream rct [] (c ++ rest) = (s :: (walkStream rct [] rest).1, (walkStream rct [] rest).2)

/-- 44_decoder R191: once the accumulator is longer than the longest code, no later bit can match and the walk ends with
bits left over. -/
def Obligations.LongAccumulatorNeverMatches : Prop :=
  ∀ (rct : RevTable) (acc bits : Code), (∀ e ∈ rct, e.1.length < acc.length) →
    walkStream rct acc bits = ([], acc ++ bits)

/-- 44_decoder R188, R192: a decoded text has at most one symbol per bitstream character, and the result registers
describe the document; so a document that fits IN never overflows OUT (00_scope R6). -/
def Obligations.DecodedTextFits : Prop :=
  ∀ (p : Params) (d out : List Sym) (r : Results) (last : Phase), fDecode p d = .ok out r last →
    last = .parseStream ∧ r.outLen = out.length ∧ r.symCount = out.length ∧
    r.tableLen + r.streamLen = d.length ∧ out.length ≤ r.streamLen ∧ r.streamLen < d.length ∧
    1 ≤ r.entries ∧ (p.Legal → d.length ≤ p.inCap → out.length ≤ p.outCap)

/-! ## Memory -/

/-- Two memories in canonical form that read the same at every offset are the same data (log 2). -/
def Obligations.EqualMemoriesAreEqualData : Prop :=
  ∀ m n : Memory, m.wf → n.wf → (∀ a, m.read? a = n.read? a) → m = n

/-! ## The block agent's step and BUILD's iteration -/

/-- 40_command R117: a step runs the block agent. While the block is enabled, the schedule's choice of a block step of
`extra + 1` iterations makes the step that block step; and so does the choice of the host where the host has nothing to
do, with one iteration. (The schedule and the size of a block step are the model's choices, logs 5 and 6.) -/
def Obligations.StepRunsTheBlockAgent : Prop :=
  ∀ s : State, s.block.enabled = true →
    (∀ extra, s.nextSlot = .block extra → step s = blockStep extra s.takeSlot) ∧
    (s.nextSlot = .host → s.host = [] → step s = blockStep 0 s.takeSlot)

/-- 41_tree_builder R135-R137: one iteration of BUILD, on any pool of two or more nodes with distinct sequence numbers,
removes the node `x` of least `(w, seq)` and then the least node `y` of the others, and appends their parent with `x` on
the left and `y` on the right, the sum of their weights and the next sequence number. -/
def Obligations.BuildCombinesTheTwoLeast : Prop :=
  ∀ (pool : List Node) (next : Nat), 2 ≤ pool.length → (pool.map Node.seqNo).Nodup →
    ∃ x y rest, (x :: y :: rest).Perm pool ∧ keyLess x y ∧ (∀ z ∈ rest, keyLess y z) ∧
      mergeLeast pool next = rest ++ [.internal x y (x.weight + y.weight) next]
end

