-- ==== Sys2Proof/Laws/Memory.lean ====
section
/-! SUPPORT. The laws of memory: what a read gives after a write of a byte or a word, and that every write keeps the
canonical form. -/

namespace Sys2Proof.Machine

/-! ## Bytes -/

theorem Memory.read_write_same (m : Memory) (a : Nat) (v : Byte) : (m.write a v).read? a = some v := by
  induction m with
  | nil => simp [Memory.write, Memory.read?]
  | cons c r ih =>
    obtain ⟨k, x⟩ := c
    unfold Memory.write
    split
    · simp [Memory.read?]
    · split
      · simp [Memory.read?]
      · rename_i h1 h2
        simpa [Memory.read?, Ne.symm h2] using ih

theorem Memory.read_write_other (m : Memory) {a b : Nat} (v : Byte) (h : b ≠ a) :
    (m.write a v).read? b = m.read? b := by
  induction m with
  | nil => simp [Memory.write, Memory.read?, Ne.symm h]
  | cons c r ih =>
    obtain ⟨k, x⟩ := c
    unfold Memory.write
    split
    · simp [Memory.read?, Ne.symm h]
    · split
      · subst_vars
        simp [Memory.read?, Ne.symm h]
      · simp [Memory.read?, ih]

/-- The offsets a write can list: the one written and those listed before. -/
theorem Memory.mem_write {m : Memory} {a : Nat} {v : Byte} {c : Host.Cell} (h : c ∈ m.write a v) :
    c.1 = a ∨ c ∈ m := by
  induction m with
  | nil => simp_all [Memory.write]
  | cons d r ih =>
    obtain ⟨k, x⟩ := d
    unfold Memory.write at h
    split at h
    · rcases List.mem_cons.mp h with rfl | h
      · exact .inl rfl
      · exact .inr h
    · split at h
      · rcases List.mem_cons.mp h with rfl | h
        · exact .inl rfl
        · exact .inr (List.mem_cons_of_mem _ h)
      · rcases List.mem_cons.mp h with rfl | h
        · exact .inr (List.mem_cons_self ..)
        · exact (ih h).imp_right (List.mem_cons_of_mem _)

theorem Memory.wf_write {m : Memory} (a : Nat) (v : Byte) (h : m.wf) : (m.write a v).wf := by
  induction m with
  | nil => simp [Memory.write, Memory.wf]
  | cons d r ih =>
    obtain ⟨k, x⟩ := d
    obtain ⟨hk, hr⟩ := List.pairwise_cons.mp h
    unfold Memory.write
    split
    · rename_i hlt
      refine List.pairwise_cons.mpr ⟨?_, h⟩
      intro c hc
      rcases List.mem_cons.mp hc with rfl | hc
      · exact hlt
      · exact hlt.trans (hk c hc)
    · split
      · rename_i heq
        subst heq
        exact List.pairwise_cons.mpr ⟨hk, hr⟩
      · rename_i h1 h2
        refine List.pairwise_cons.mpr ⟨?_, ih hr⟩
        intro c hc
        rcases Memory.mem_write hc with h | h
        · simp only [h]; omega
        · exact hk c h

/-! ## Words -/

/-- The byte lanes of a word put together give the word (20_memory R65). -/
theorem lanes_append (w : Word) :
    w.extractLsb' 24 8 ++ w.extractLsb' 16 8 ++ w.extractLsb' 8 8 ++ w.extractLsb' 0 8 = w := by
  ext i hi
  simp only [BitVec.getElem_append, BitVec.getElem_extractLsb']
  split
  · simp [BitVec.getLsbD_eq_getElem hi]
  · split
    · rw [← BitVec.getLsbD_eq_getElem]; congr 1; omega
    · split
      · rw [← BitVec.getLsbD_eq_getElem]; congr 1; omega
      · rw [← BitVec.getLsbD_eq_getElem]; congr 1; omega

theorem Memory.read_storeWord_other (m : Memory) {a b : Nat} (w : Word) (h : b < a ∨ a + 4 ≤ b) :
    (m.storeWord a w).read? b = m.read? b := by
  unfold Memory.storeWord
  rw [Memory.read_write_other _ _ (by omega), Memory.read_write_other _ _ (by omega),
    Memory.read_write_other _ _ (by omega), Memory.read_write_other _ _ (by omega)]

theorem Memory.readWord_storeWord_same (m : Memory) (a : Nat) (w : Word) :
    (m.storeWord a w).readWord? a = some w := by
  have h0 : (m.storeWord a w).read? a = some (w.extractLsb' 0 8) := by
    unfold Memory.storeWord
    rw [Memory.read_write_other _ _ (by omega), Memory.read_write_other _ _ (by omega),
      Memory.read_write_other _ _ (by omega), Memory.read_write_same]
  have h1 : (m.storeWord a w).read? (a + 1) = some (w.extractLsb' 8 8) := by
    unfold Memory.storeWord
    rw [Memory.read_write_other _ _ (by omega), Memory.read_write_other _ _ (by omega),
      Memory.read_write_same]
  have h2 : (m.storeWord a w).read? (a + 2) = some (w.extractLsb' 16 8) := by
    unfold Memory.storeWord
    rw [Memory.read_write_other _ _ (by omega), Memory.read_write_same]
  have h3 : (m.storeWord a w).read? (a + 3) = some (w.extractLsb' 24 8) := by
    unfold Memory.storeWord
    rw [Memory.read_write_same]
  simp only [Memory.readWord?, h0, h1, h2, h3]
  rw [lanes_append]

/-- A word depends on its four bytes alone. -/
theorem Memory.readWord_congr {m n : Memory} {a : Nat} (h : ∀ b, a ≤ b → b < a + 4 → m.read? b = n.read? b) :
    m.readWord? a = n.readWord? a := by
  simp only [Memory.readWord?, h a (by omega) (by omega), h (a + 1) (by omega) (by omega),
    h (a + 2) (by omega) (by omega), h (a + 3) (by omega) (by omega)]

theorem Memory.readWord_storeWord_other (m : Memory) {a b : Nat} (w : Word) (h : b + 4 ≤ a ∨ a + 4 ≤ b) :
    (m.storeWord a w).readWord? b = m.readWord? b :=
  Memory.readWord_congr fun c h1 h2 => Memory.read_storeWord_other m w (by omega)

theorem Memory.wf_storeWord {m : Memory} (a : Nat) (w : Word) (h : m.wf) : (m.storeWord a w).wf :=
  Memory.wf_write _ _ (Memory.wf_write _ _ (Memory.wf_write _ _ (Memory.wf_write _ _ h)))

theorem Memory.mem_storeWord {m : Memory} {a : Nat} {w : Word} {c : Host.Cell} (h : c ∈ m.storeWord a w) :
    (a ≤ c.1 ∧ c.1 < a + 4) ∨ c ∈ m := by
  unfold Memory.storeWord at h
  rcases Memory.mem_write h with h | h
  · exact .inl (by omega)
  rcases Memory.mem_write h with h | h
  · exact .inl (by omega)
  rcases Memory.mem_write h with h | h
  · exact .inl (by omega)
  rcases Memory.mem_write h with h | h
  · exact .inl (by omega)
  exact .inr h

/-- Memory after reset has the canonical form. -/
theorem reset_mem_wf : State.reset.block.mem.wf := List.Pairwise.nil

end Sys2Proof.Machine
end

