-- ==== Sys2Proof/Laws/State.lean ====
section
/-! SUPPORT. One lemma per field per update of the block and of the machine, true by rfl, so that no proof unfolds a
record update; and what `start`, `storeOuts` and the schedule change. -/

namespace Sys2Proof.Machine

@[simp] theorem Block.withWork_params (b : Block) (w : Work) :
    (b.withWork w).params = b.params := rfl
@[simp] theorem Block.withWork_inReset (b : Block) (w : Work) :
    (b.withWork w).inReset = b.inReset := rfl
@[simp] theorem Block.withWork_state (b : Block) (w : Work) :
    (b.withWork w).state = b.state := rfl
@[simp] theorem Block.withWork_phase (b : Block) (w : Work) :
    (b.withWork w).phase = b.phase := rfl
@[simp] theorem Block.withWork_err (b : Block) (w : Work) :
    (b.withWork w).err = b.err := rfl
@[simp] theorem Block.withWork_op (b : Block) (w : Work) :
    (b.withWork w).op = b.op := rfl
@[simp] theorem Block.withWork_inLen (b : Block) (w : Work) :
    (b.withWork w).inLen = b.inLen := rfl
@[simp] theorem Block.withWork_outLen (b : Block) (w : Work) :
    (b.withWork w).outLen = b.outLen := rfl
@[simp] theorem Block.withWork_tableLen (b : Block) (w : Work) :
    (b.withWork w).tableLen = b.tableLen := rfl
@[simp] theorem Block.withWork_streamLen (b : Block) (w : Work) :
    (b.withWork w).streamLen = b.streamLen := rfl
@[simp] theorem Block.withWork_symCount (b : Block) (w : Work) :
    (b.withWork w).symCount = b.symCount := rfl
@[simp] theorem Block.withWork_entries (b : Block) (w : Work) :
    (b.withWork w).entries = b.entries := rfl
@[simp] theorem Block.withWork_mem (b : Block) (w : Work) :
    (b.withWork w).mem = b.mem := rfl
@[simp] theorem Block.withWork_work (b : Block) (w : Work) :
    (b.withWork w).work = w := rfl
@[simp] theorem Block.withWork_epoch (b : Block) (w : Work) :
    (b.withWork w).epoch = b.epoch := rfl

@[simp] theorem Block.enter_params (b : Block) (p : Phase) (w : Work) :
    (b.enter p w).params = b.params := rfl
@[simp] theorem Block.enter_inReset (b : Block) (p : Phase) (w : Work) :
    (b.enter p w).inReset = b.inReset := rfl
@[simp] theorem Block.enter_state (b : Block) (p : Phase) (w : Work) :
    (b.enter p w).state = b.state := rfl
@[simp] theorem Block.enter_phase (b : Block) (p : Phase) (w : Work) :
    (b.enter p w).phase = p := rfl
@[simp] theorem Block.enter_err (b : Block) (p : Phase) (w : Work) :
    (b.enter p w).err = b.err := rfl
@[simp] theorem Block.enter_op (b : Block) (p : Phase) (w : Work) :
    (b.enter p w).op = b.op := rfl
@[simp] theorem Block.enter_inLen (b : Block) (p : Phase) (w : Work) :
    (b.enter p w).inLen = b.inLen := rfl
@[simp] theorem Block.enter_outLen (b : Block) (p : Phase) (w : Work) :
    (b.enter p w).outLen = b.outLen := rfl
@[simp] theorem Block.enter_tableLen (b : Block) (p : Phase) (w : Work) :
    (b.enter p w).tableLen = b.tableLen := rfl
@[simp] theorem Block.enter_streamLen (b : Block) (p : Phase) (w : Work) :
    (b.enter p w).streamLen = b.streamLen := rfl
@[simp] theorem Block.enter_symCount (b : Block) (p : Phase) (w : Work) :
    (b.enter p w).symCount = b.symCount := rfl
@[simp] theorem Block.enter_entries (b : Block) (p : Phase) (w : Work) :
    (b.enter p w).entries = b.entries := rfl
@[simp] theorem Block.enter_mem (b : Block) (p : Phase) (w : Work) :
    (b.enter p w).mem = b.mem := rfl
@[simp] theorem Block.enter_work (b : Block) (p : Phase) (w : Work) :
    (b.enter p w).work = w := rfl
@[simp] theorem Block.enter_epoch (b : Block) (p : Phase) (w : Work) :
    (b.enter p w).epoch = b.epoch := rfl

@[simp] theorem Block.clearResults_params (b : Block) :
    (b.clearResults).params = b.params := rfl
@[simp] theorem Block.clearResults_inReset (b : Block) :
    (b.clearResults).inReset = b.inReset := rfl
@[simp] theorem Block.clearResults_state (b : Block) :
    (b.clearResults).state = b.state := rfl
@[simp] theorem Block.clearResults_phase (b : Block) :
    (b.clearResults).phase = b.phase := rfl
@[simp] theorem Block.clearResults_err (b : Block) :
    (b.clearResults).err = b.err := rfl
@[simp] theorem Block.clearResults_op (b : Block) :
    (b.clearResults).op = b.op := rfl
@[simp] theorem Block.clearResults_inLen (b : Block) :
    (b.clearResults).inLen = b.inLen := rfl
@[simp] theorem Block.clearResults_outLen (b : Block) :
    (b.clearResults).outLen = 0 := rfl
@[simp] theorem Block.clearResults_tableLen (b : Block) :
    (b.clearResults).tableLen = 0 := rfl
@[simp] theorem Block.clearResults_streamLen (b : Block) :
    (b.clearResults).streamLen = 0 := rfl
@[simp] theorem Block.clearResults_symCount (b : Block) :
    (b.clearResults).symCount = 0 := rfl
@[simp] theorem Block.clearResults_entries (b : Block) :
    (b.clearResults).entries = 0 := rfl
@[simp] theorem Block.clearResults_mem (b : Block) :
    (b.clearResults).mem = b.mem := rfl
@[simp] theorem Block.clearResults_work (b : Block) :
    (b.clearResults).work = b.work := rfl
@[simp] theorem Block.clearResults_epoch (b : Block) :
    (b.clearResults).epoch = b.epoch := rfl

@[simp] theorem Block.raise_params (b : Block) (e : ErrCode) (p : Phase) :
    (b.raise e p).params = b.params := rfl
@[simp] theorem Block.raise_inReset (b : Block) (e : ErrCode) (p : Phase) :
    (b.raise e p).inReset = b.inReset := rfl
@[simp] theorem Block.raise_state (b : Block) (e : ErrCode) (p : Phase) :
    (b.raise e p).state = .failed := rfl
@[simp] theorem Block.raise_phase (b : Block) (e : ErrCode) (p : Phase) :
    (b.raise e p).phase = p := rfl
@[simp] theorem Block.raise_err (b : Block) (e : ErrCode) (p : Phase) :
    (b.raise e p).err = e := rfl
@[simp] theorem Block.raise_op (b : Block) (e : ErrCode) (p : Phase) :
    (b.raise e p).op = b.op := rfl
@[simp] theorem Block.raise_inLen (b : Block) (e : ErrCode) (p : Phase) :
    (b.raise e p).inLen = b.inLen := rfl
@[simp] theorem Block.raise_outLen (b : Block) (e : ErrCode) (p : Phase) :
    (b.raise e p).outLen = b.outLen := rfl
@[simp] theorem Block.raise_tableLen (b : Block) (e : ErrCode) (p : Phase) :
    (b.raise e p).tableLen = b.tableLen := rfl
@[simp] theorem Block.raise_streamLen (b : Block) (e : ErrCode) (p : Phase) :
    (b.raise e p).streamLen = b.streamLen := rfl
@[simp] theorem Block.raise_symCount (b : Block) (e : ErrCode) (p : Phase) :
    (b.raise e p).symCount = b.symCount := rfl
@[simp] theorem Block.raise_entries (b : Block) (e : ErrCode) (p : Phase) :
    (b.raise e p).entries = b.entries := rfl
@[simp] theorem Block.raise_mem (b : Block) (e : ErrCode) (p : Phase) :
    (b.raise e p).mem = b.mem := rfl
@[simp] theorem Block.raise_work (b : Block) (e : ErrCode) (p : Phase) :
    (b.raise e p).work = Work.empty := rfl
@[simp] theorem Block.raise_epoch (b : Block) (e : ErrCode) (p : Phase) :
    (b.raise e p).epoch = b.epoch := rfl

@[simp] theorem Block.finish_params (b : Block) (r : Results) (p : Phase) :
    (b.finish r p).params = b.params := rfl
@[simp] theorem Block.finish_inReset (b : Block) (r : Results) (p : Phase) :
    (b.finish r p).inReset = b.inReset := rfl
@[simp] theorem Block.finish_state (b : Block) (r : Results) (p : Phase) :
    (b.finish r p).state = .done := rfl
@[simp] theorem Block.finish_phase (b : Block) (r : Results) (p : Phase) :
    (b.finish r p).phase = p := rfl
@[simp] theorem Block.finish_err (b : Block) (r : Results) (p : Phase) :
    (b.finish r p).err = b.err := rfl
@[simp] theorem Block.finish_op (b : Block) (r : Results) (p : Phase) :
    (b.finish r p).op = b.op := rfl
@[simp] theorem Block.finish_inLen (b : Block) (r : Results) (p : Phase) :
    (b.finish r p).inLen = b.inLen := rfl
@[simp] theorem Block.finish_outLen (b : Block) (r : Results) (p : Phase) :
    (b.finish r p).outLen = BitVec.ofNat 32 r.outLen := rfl
@[simp] theorem Block.finish_tableLen (b : Block) (r : Results) (p : Phase) :
    (b.finish r p).tableLen = BitVec.ofNat 32 r.tableLen := rfl
@[simp] theorem Block.finish_streamLen (b : Block) (r : Results) (p : Phase) :
    (b.finish r p).streamLen = BitVec.ofNat 32 r.streamLen := rfl
@[simp] theorem Block.finish_symCount (b : Block) (r : Results) (p : Phase) :
    (b.finish r p).symCount = BitVec.ofNat 32 r.symCount := rfl
@[simp] theorem Block.finish_entries (b : Block) (r : Results) (p : Phase) :
    (b.finish r p).entries = BitVec.ofNat 32 r.entries := rfl
@[simp] theorem Block.finish_mem (b : Block) (r : Results) (p : Phase) :
    (b.finish r p).mem = b.mem := rfl
@[simp] theorem Block.finish_work (b : Block) (r : Results) (p : Phase) :
    (b.finish r p).work = Work.empty := rfl
@[simp] theorem Block.finish_epoch (b : Block) (r : Results) (p : Phase) :
    (b.finish r p).epoch = b.epoch := rfl

@[simp] theorem Block.illegal_params (b : Block) (o : BitVec 4) :
    (b.illegal o).params = b.params := rfl
@[simp] theorem Block.illegal_inReset (b : Block) (o : BitVec 4) :
    (b.illegal o).inReset = b.inReset := rfl
@[simp] theorem Block.illegal_state (b : Block) (o : BitVec 4) :
    (b.illegal o).state = .failed := rfl
@[simp] theorem Block.illegal_phase (b : Block) (o : BitVec 4) :
    (b.illegal o).phase = .noPhase := rfl
@[simp] theorem Block.illegal_err (b : Block) (o : BitVec 4) :
    (b.illegal o).err = .illegalCommand := rfl
@[simp] theorem Block.illegal_op (b : Block) (o : BitVec 4) :
    (b.illegal o).op = o := rfl
@[simp] theorem Block.illegal_inLen (b : Block) (o : BitVec 4) :
    (b.illegal o).inLen = b.inLen := rfl
@[simp] theorem Block.illegal_outLen (b : Block) (o : BitVec 4) :
    (b.illegal o).outLen = 0 := rfl
@[simp] theorem Block.illegal_tableLen (b : Block) (o : BitVec 4) :
    (b.illegal o).tableLen = 0 := rfl
@[simp] theorem Block.illegal_streamLen (b : Block) (o : BitVec 4) :
    (b.illegal o).streamLen = 0 := rfl
@[simp] theorem Block.illegal_symCount (b : Block) (o : BitVec 4) :
    (b.illegal o).symCount = 0 := rfl
@[simp] theorem Block.illegal_entries (b : Block) (o : BitVec 4) :
    (b.illegal o).entries = 0 := rfl
@[simp] theorem Block.illegal_mem (b : Block) (o : BitVec 4) :
    (b.illegal o).mem = b.mem := rfl
@[simp] theorem Block.illegal_work (b : Block) (o : BitVec 4) :
    (b.illegal o).work = Work.empty := rfl
@[simp] theorem Block.illegal_epoch (b : Block) (o : BitVec 4) :
    (b.illegal o).epoch = b.epoch := rfl

@[simp] theorem Block.storeIn_params (b : Block) (i : Nat) (v : Word) :
    (b.storeIn i v).params = b.params := rfl
@[simp] theorem Block.storeIn_inReset (b : Block) (i : Nat) (v : Word) :
    (b.storeIn i v).inReset = b.inReset := rfl
@[simp] theorem Block.storeIn_state (b : Block) (i : Nat) (v : Word) :
    (b.storeIn i v).state = b.state := rfl
@[simp] theorem Block.storeIn_phase (b : Block) (i : Nat) (v : Word) :
    (b.storeIn i v).phase = b.phase := rfl
@[simp] theorem Block.storeIn_err (b : Block) (i : Nat) (v : Word) :
    (b.storeIn i v).err = b.err := rfl
@[simp] theorem Block.storeIn_op (b : Block) (i : Nat) (v : Word) :
    (b.storeIn i v).op = b.op := rfl
@[simp] theorem Block.storeIn_inLen (b : Block) (i : Nat) (v : Word) :
    (b.storeIn i v).inLen = b.inLen := rfl
@[simp] theorem Block.storeIn_outLen (b : Block) (i : Nat) (v : Word) :
    (b.storeIn i v).outLen = b.outLen := rfl
@[simp] theorem Block.storeIn_tableLen (b : Block) (i : Nat) (v : Word) :
    (b.storeIn i v).tableLen = b.tableLen := rfl
@[simp] theorem Block.storeIn_streamLen (b : Block) (i : Nat) (v : Word) :
    (b.storeIn i v).streamLen = b.streamLen := rfl
@[simp] theorem Block.storeIn_symCount (b : Block) (i : Nat) (v : Word) :
    (b.storeIn i v).symCount = b.symCount := rfl
@[simp] theorem Block.storeIn_entries (b : Block) (i : Nat) (v : Word) :
    (b.storeIn i v).entries = b.entries := rfl
@[simp] theorem Block.storeIn_mem (b : Block) (i : Nat) (v : Word) :
    (b.storeIn i v).mem = b.mem.storeWord (inAddr i) (wordOfSym (symOfWord b.params.symW v)) := rfl
@[simp] theorem Block.storeIn_work (b : Block) (i : Nat) (v : Word) :
    (b.storeIn i v).work = b.work := rfl
@[simp] theorem Block.storeIn_epoch (b : Block) (i : Nat) (v : Word) :
    (b.storeIn i v).epoch = b.epoch := rfl

@[simp] theorem Block.storeOut_params (b : Block) (i : Nat) (c : Sym) :
    (b.storeOut i c).params = b.params := rfl
@[simp] theorem Block.storeOut_inReset (b : Block) (i : Nat) (c : Sym) :
    (b.storeOut i c).inReset = b.inReset := rfl
@[simp] theorem Block.storeOut_state (b : Block) (i : Nat) (c : Sym) :
    (b.storeOut i c).state = b.state := rfl
@[simp] theorem Block.storeOut_phase (b : Block) (i : Nat) (c : Sym) :
    (b.storeOut i c).phase = b.phase := rfl
@[simp] theorem Block.storeOut_err (b : Block) (i : Nat) (c : Sym) :
    (b.storeOut i c).err = b.err := rfl
@[simp] theorem Block.storeOut_op (b : Block) (i : Nat) (c : Sym) :
    (b.storeOut i c).op = b.op := rfl
@[simp] theorem Block.storeOut_inLen (b : Block) (i : Nat) (c : Sym) :
    (b.storeOut i c).inLen = b.inLen := rfl
@[simp] theorem Block.storeOut_outLen (b : Block) (i : Nat) (c : Sym) :
    (b.storeOut i c).outLen = b.outLen := rfl
@[simp] theorem Block.storeOut_tableLen (b : Block) (i : Nat) (c : Sym) :
    (b.storeOut i c).tableLen = b.tableLen := rfl
@[simp] theorem Block.storeOut_streamLen (b : Block) (i : Nat) (c : Sym) :
    (b.storeOut i c).streamLen = b.streamLen := rfl
@[simp] theorem Block.storeOut_symCount (b : Block) (i : Nat) (c : Sym) :
    (b.storeOut i c).symCount = b.symCount := rfl
@[simp] theorem Block.storeOut_entries (b : Block) (i : Nat) (c : Sym) :
    (b.storeOut i c).entries = b.entries := rfl
@[simp] theorem Block.storeOut_mem (b : Block) (i : Nat) (c : Sym) :
    (b.storeOut i c).mem = b.mem.storeWord (outAddr i) (wordOfSym c) := rfl
@[simp] theorem Block.storeOut_work (b : Block) (i : Nat) (c : Sym) :
    (b.storeOut i c).work = b.work := rfl
@[simp] theorem Block.storeOut_epoch (b : Block) (i : Nat) (c : Sym) :
    (b.storeOut i c).epoch = b.epoch := rfl

@[simp] theorem Block.assertReset_params (b : Block) :
    (b.assertReset).params = b.params := rfl
@[simp] theorem Block.assertReset_inReset (b : Block) :
    (b.assertReset).inReset = true := rfl
@[simp] theorem Block.assertReset_state (b : Block) :
    (b.assertReset).state = .idle := rfl
@[simp] theorem Block.assertReset_phase (b : Block) :
    (b.assertReset).phase = .noPhase := rfl
@[simp] theorem Block.assertReset_err (b : Block) :
    (b.assertReset).err = .noError := rfl
@[simp] theorem Block.assertReset_op (b : Block) :
    (b.assertReset).op = 0 := rfl
@[simp] theorem Block.assertReset_inLen (b : Block) :
    (b.assertReset).inLen = 0 := rfl
@[simp] theorem Block.assertReset_outLen (b : Block) :
    (b.assertReset).outLen = 0 := rfl
@[simp] theorem Block.assertReset_tableLen (b : Block) :
    (b.assertReset).tableLen = 0 := rfl
@[simp] theorem Block.assertReset_streamLen (b : Block) :
    (b.assertReset).streamLen = 0 := rfl
@[simp] theorem Block.assertReset_symCount (b : Block) :
    (b.assertReset).symCount = 0 := rfl
@[simp] theorem Block.assertReset_entries (b : Block) :
    (b.assertReset).entries = 0 := rfl
@[simp] theorem Block.assertReset_mem (b : Block) :
    (b.assertReset).mem = [] := rfl
@[simp] theorem Block.assertReset_work (b : Block) :
    (b.assertReset).work = Work.empty := rfl
@[simp] theorem Block.assertReset_epoch (b : Block) :
    (b.assertReset).epoch = b.epoch + 1 := rfl

@[simp] theorem Block.releaseReset_params (b : Block) :
    (b.releaseReset).params = b.params := rfl
@[simp] theorem Block.releaseReset_inReset (b : Block) :
    (b.releaseReset).inReset = false := rfl
@[simp] theorem Block.releaseReset_state (b : Block) :
    (b.releaseReset).state = b.state := rfl
@[simp] theorem Block.releaseReset_phase (b : Block) :
    (b.releaseReset).phase = b.phase := rfl
@[simp] theorem Block.releaseReset_err (b : Block) :
    (b.releaseReset).err = b.err := rfl
@[simp] theorem Block.releaseReset_op (b : Block) :
    (b.releaseReset).op = b.op := rfl
@[simp] theorem Block.releaseReset_inLen (b : Block) :
    (b.releaseReset).inLen = b.inLen := rfl
@[simp] theorem Block.releaseReset_outLen (b : Block) :
    (b.releaseReset).outLen = b.outLen := rfl
@[simp] theorem Block.releaseReset_tableLen (b : Block) :
    (b.releaseReset).tableLen = b.tableLen := rfl
@[simp] theorem Block.releaseReset_streamLen (b : Block) :
    (b.releaseReset).streamLen = b.streamLen := rfl
@[simp] theorem Block.releaseReset_symCount (b : Block) :
    (b.releaseReset).symCount = b.symCount := rfl
@[simp] theorem Block.releaseReset_entries (b : Block) :
    (b.releaseReset).entries = b.entries := rfl
@[simp] theorem Block.releaseReset_mem (b : Block) :
    (b.releaseReset).mem = b.mem := rfl
@[simp] theorem Block.releaseReset_work (b : Block) :
    (b.releaseReset).work = b.work := rfl
@[simp] theorem Block.releaseReset_epoch (b : Block) :
    (b.releaseReset).epoch = b.epoch := rfl

/-! ## The start of an operation -/

/-- What `Block.start` answers when the text fits (40_command R114). -/
theorem Block.start_fits {b : Block} {op : BitVec 4} (h : b.inLen.toNat ≤ b.params.inCap) :
    b.start op = { b with
      outLen := 0, tableLen := 0, streamLen := 0, symCount := 0, entries := 0
      op := op, err := .noError, phase := .noPhase, state := .busy, work := Work.empty } := by
  simp [Block.start, Block.clearResults, Nat.not_lt.mpr h]

/-- What `Block.start` answers when IN_LEN is above IN_CAP (40_command R114). -/
theorem Block.start_overflow {b : Block} {op : BitVec 4} (h : b.params.inCap < b.inLen.toNat) :
    b.start op = { b with
      outLen := 0, tableLen := 0, streamLen := 0, symCount := 0, entries := 0
      op := op, err := .capacity, phase := .noPhase, state := .failed, work := Work.empty } := by
  simp [Block.start, Block.clearResults, Block.raise, h]

@[simp] theorem Block.start_params (b : Block) (op : BitVec 4) : (b.start op).params = b.params := by
  unfold Block.start; split <;> rfl

@[simp] theorem Block.start_inReset (b : Block) (op : BitVec 4) : (b.start op).inReset = b.inReset := by
  unfold Block.start; split <;> rfl

@[simp] theorem Block.start_inLen (b : Block) (op : BitVec 4) : (b.start op).inLen = b.inLen := by
  unfold Block.start; split <;> rfl

@[simp] theorem Block.start_mem (b : Block) (op : BitVec 4) : (b.start op).mem = b.mem := by
  unfold Block.start; split <;> rfl

@[simp] theorem Block.start_epoch (b : Block) (op : BitVec 4) : (b.start op).epoch = b.epoch := by
  unfold Block.start; split <;> rfl

@[simp] theorem Block.start_op (b : Block) (op : BitVec 4) : (b.start op).op = op := by
  unfold Block.start; split <;> rfl

@[simp] theorem Block.start_work (b : Block) (op : BitVec 4) : (b.start op).work = Work.empty := by
  unfold Block.start; split <;> rfl

@[simp] theorem Block.start_phase (b : Block) (op : BitVec 4) : (b.start op).phase = .noPhase := by
  unfold Block.start; split <;> rfl

/-! ## Writing a run of OUT words -/

/-- `storeOuts` changes memory alone. -/
theorem Block.storeOuts_eq (b : Block) (i : Nat) (cs : List Sym) :
    b.storeOuts i cs = { b with mem := (b.storeOuts i cs).mem } := by
  induction cs generalizing b i with
  | nil => rfl
  | cons c r ih => rw [Block.storeOuts, ih]; rfl

@[simp] theorem Block.storeOuts_params (b : Block) (i : Nat) (cs : List Sym) :
    (b.storeOuts i cs).params = b.params := by rw [Block.storeOuts_eq]

@[simp] theorem Block.storeOuts_inReset (b : Block) (i : Nat) (cs : List Sym) :
    (b.storeOuts i cs).inReset = b.inReset := by rw [Block.storeOuts_eq]

@[simp] theorem Block.storeOuts_state (b : Block) (i : Nat) (cs : List Sym) :
    (b.storeOuts i cs).state = b.state := by rw [Block.storeOuts_eq]

@[simp] theorem Block.storeOuts_phase (b : Block) (i : Nat) (cs : List Sym) :
    (b.storeOuts i cs).phase = b.phase := by rw [Block.storeOuts_eq]

@[simp] theorem Block.storeOuts_err (b : Block) (i : Nat) (cs : List Sym) :
    (b.storeOuts i cs).err = b.err := by rw [Block.storeOuts_eq]

@[simp] theorem Block.storeOuts_op (b : Block) (i : Nat) (cs : List Sym) :
    (b.storeOuts i cs).op = b.op := by rw [Block.storeOuts_eq]

@[simp] theorem Block.storeOuts_inLen (b : Block) (i : Nat) (cs : List Sym) :
    (b.storeOuts i cs).inLen = b.inLen := by rw [Block.storeOuts_eq]

@[simp] theorem Block.storeOuts_outLen (b : Block) (i : Nat) (cs : List Sym) :
    (b.storeOuts i cs).outLen = b.outLen := by rw [Block.storeOuts_eq]

@[simp] theorem Block.storeOuts_tableLen (b : Block) (i : Nat) (cs : List Sym) :
    (b.storeOuts i cs).tableLen = b.tableLen := by rw [Block.storeOuts_eq]

@[simp] theorem Block.storeOuts_streamLen (b : Block) (i : Nat) (cs : List Sym) :
    (b.storeOuts i cs).streamLen = b.streamLen := by rw [Block.storeOuts_eq]

@[simp] theorem Block.storeOuts_symCount (b : Block) (i : Nat) (cs : List Sym) :
    (b.storeOuts i cs).symCount = b.symCount := by rw [Block.storeOuts_eq]

@[simp] theorem Block.storeOuts_entries (b : Block) (i : Nat) (cs : List Sym) :
    (b.storeOuts i cs).entries = b.entries := by rw [Block.storeOuts_eq]

@[simp] theorem Block.storeOuts_work (b : Block) (i : Nat) (cs : List Sym) :
    (b.storeOuts i cs).work = b.work := by rw [Block.storeOuts_eq]

@[simp] theorem Block.storeOuts_epoch (b : Block) (i : Nat) (cs : List Sym) :
    (b.storeOuts i cs).epoch = b.epoch := by rw [Block.storeOuts_eq]

/-! ## The outside world's lists -/

@[simp] theorem State.command_host (s : State) (f : Block → Block) : (s.command f).host = s.host := rfl

@[simp] theorem State.command_log (s : State) (f : Block → Block) : (s.command f).log = s.log := rfl

@[simp] theorem State.command_schedule (s : State) (f : Block → Block) : (s.command f).schedule = s.schedule := rfl

@[simp] theorem State.command_draws (s : State) (f : Block → Block) : (s.command f).draws = s.draws := rfl

/-- A command word has no effect while BUSY (40_command R111). -/
theorem State.command_busy {s : State} (f : Block → Block) (h : s.block.state = .busy) : s.command f = s := by
  simp [State.command, h]

/-- A command word has its effect while not BUSY (40_command R110). -/
theorem State.command_accepted {s : State} (f : Block → Block) (h : s.block.state ≠ .busy) :
    s.command f = { s with block := f s.block } := by
  simp [State.command, h]

@[simp] theorem State.record_block (s : State) (a : Access) (r : Response) : (s.record a r).block = s.block := rfl

@[simp] theorem State.record_host (s : State) (a : Access) (r : Response) : (s.record a r).host = s.host := rfl

@[simp] theorem State.record_log (s : State) (a : Access) (r : Response) :
    (s.record a r).log = (a, r) :: s.log := rfl

@[simp] theorem State.record_schedule (s : State) (a : Access) (r : Response) :
    (s.record a r).schedule = s.schedule := rfl

@[simp] theorem State.record_draws (s : State) (a : Access) (r : Response) : (s.record a r).draws = s.draws := rfl

@[simp] theorem State.takeSlot_block (s : State) : s.takeSlot.block = s.block := by
  unfold State.takeSlot; split <;> rfl

@[simp] theorem State.takeSlot_host (s : State) : s.takeSlot.host = s.host := by
  unfold State.takeSlot; split <;> rfl

@[simp] theorem State.takeSlot_log (s : State) : s.takeSlot.log = s.log := by
  unfold State.takeSlot; split <;> rfl

/-- A choice fixed from outside is taken from the list and draws nothing. -/
theorem State.takeSlot_cons {s : State} {c : Slot} {r : List Slot} (h : s.schedule = c :: r) :
    s.nextSlot = c ∧ s.takeSlot = { s with schedule := r } := by
  simp [State.nextSlot, State.takeSlot, h]

/-- The block is enabled exactly while BUSY and not in reset (40_command R117, 70_reset R240). -/
theorem Block.enabled_iff (b : Block) : b.enabled = true ↔ b.state = .busy ∧ b.inReset = false := by
  simp [Block.enabled]

end Sys2Proof.Machine
end

