-- ==== Sys2Proof/Laws/Buffers.lean ====
section
/-! SUPPORT. The laws of the two buffers: OUT writes against OUT and IN reads, IN writes against IN reads, and the text
as the list of the IN words below IN_LEN. -/

namespace Sys2Proof.Machine

/-! ## OUT -/

theorem Block.outWord_storeOut_same (b : Block) (i : Nat) (c : Sym) :
    (b.storeOut i c).outWord? i = some (wordOfSym c) :=
  Memory.readWord_storeWord_same _ _ _

theorem Block.outWord_storeOut_other (b : Block) {i j : Nat} (c : Sym) (h : j ≠ i) :
    (b.storeOut i c).outWord? j = b.outWord? j :=
  Memory.readWord_storeWord_other _ _ (by unfold outAddr; omega)

/-- A run of OUT words changes no byte outside the run. -/
theorem Block.read_storeOuts_other (b : Block) (i : Nat) (cs : List Sym) {a : Nat}
    (h : a < outAddr i ∨ outAddr (i + cs.length) ≤ a) : (b.storeOuts i cs).mem.read? a = b.mem.read? a := by
  induction cs generalizing b i with
  | nil => rfl
  | cons c r ih =>
    rw [Block.storeOuts, ih]
    · exact Memory.read_storeWord_other _ _ (by simp only [List.length_cons, outAddr] at *; omega)
    · simp only [List.length_cons, outAddr] at *; omega

theorem Block.outWord_storeOuts_other (b : Block) (i : Nat) (cs : List Sym) {j : Nat}
    (h : j < i ∨ i + cs.length ≤ j) : (b.storeOuts i cs).outWord? j = b.outWord? j :=
  Memory.readWord_congr fun a h1 h2 => b.read_storeOuts_other i cs (by unfold outAddr at *; omega)

/-- A run of OUT words holds the characters written. -/
theorem Block.outWord_storeOuts_same (b : Block) (i : Nat) (cs : List Sym) (k : Nat) (h : k < cs.length) :
    (b.storeOuts i cs).outWord? (i + k) = some (wordOfSym cs[k]) := by
  induction cs generalizing b i k with
  | nil => simp at h
  | cons c r ih =>
    rw [Block.storeOuts]
    cases k with
    | zero =>
      rw [Block.outWord_storeOuts_other _ _ _ (by omega)]
      exact Block.outWord_storeOut_same b i c
    | succ k =>
      have := ih (b.storeOut i c) (i + 1) k (by simpa using h)
      rw [show i + (k + 1) = i + 1 + k by omega, this]
      simp

theorem Block.wf_storeOuts {b : Block} (i : Nat) (cs : List Sym) (h : b.mem.wf) : (b.storeOuts i cs).mem.wf := by
  induction cs generalizing b i with
  | nil => exact h
  | cons c r ih => exact ih (i + 1) (Memory.wf_storeWord _ _ h)

theorem Block.mem_storeOuts {b : Block} {i : Nat} {cs : List Sym} {c : Host.Cell}
    (h : c ∈ (b.storeOuts i cs).mem) : (outAddr i ≤ c.1 ∧ c.1 < outAddr (i + cs.length)) ∨ c ∈ b.mem := by
  induction cs generalizing b i with
  | nil => exact .inr h
  | cons d r ih =>
    rcases ih h with h | h
    · exact .inl (by simp only [outAddr, List.length_cons] at *; omega)
    · rcases Memory.mem_storeWord h with h | h
      · exact .inl (by simp only [outAddr, List.length_cons] at *; omega)
      · exact .inr h

/-! ## IN -/

/-- `IN[i]` depends on its four bytes, `SYM_W` and the epoch alone. -/
theorem Block.inSym_congr {b c : Block} {i : Nat} (hp : c.params = b.params) (he : c.epoch = b.epoch)
    (hm : ∀ a, inAddr i ≤ a → a < inAddr i + 4 → c.mem.read? a = b.mem.read? a) : c.inSym i = b.inSym i := by
  unfold Block.inSym
  rw [Memory.readWord_congr hm, hp, he]

/-- The symbol of a word that holds a symbol of `SYM_W` bits is that symbol (30_encoding R89). -/
theorem symOfWord_wordOfSym (w : SymW) (v : Word) : symOfWord w (wordOfSym (symOfWord w v)) = symOfWord w v := by
  cases w <;> ext i hi <;> simp [symOfWord, wordOfSym] <;> grind

theorem Block.inSym_storeIn_same (b : Block) (i : Nat) (v : Word) :
    (b.storeIn i v).inSym i = symOfWord b.params.symW v := by
  simp only [Block.inSym, Block.storeIn_mem, Block.storeIn_params, Memory.readWord_storeWord_same,
    symOfWord_wordOfSym]

theorem Block.inSym_storeIn_other (b : Block) {i j : Nat} (v : Word) (h : j ≠ i) :
    (b.storeIn i v).inSym j = b.inSym j :=
  Block.inSym_congr rfl rfl fun _ h1 h2 =>
    Memory.read_storeWord_other _ _ (by unfold inAddr at *; omega)

/-- An IN word reads back as zero above `SYM_W` (30_encoding R89). -/
theorem Block.inSym_width (b : Block) (i : Nat) : symOfWord b.params.symW (wordOfSym (b.inSym i)) = b.inSym i := by
  unfold Block.inSym
  split <;> exact symOfWord_wordOfSym _ _

/-! ## The text -/

theorem Block.textFrom_cons {b : Block} {i : Nat} (h : i < b.textLen) :
    b.textFrom i = b.inSym i :: b.textFrom (i + 1) := by
  unfold Block.textFrom
  rw [show b.textLen - i = (b.textLen - (i + 1)) + 1 by omega, List.range'_succ, List.map_cons]

theorem Block.textFrom_nil {b : Block} {i : Nat} (h : b.textLen ≤ i) : b.textFrom i = [] := by
  unfold Block.textFrom
  rw [show b.textLen - i = 0 by omega]; rfl

@[simp] theorem Block.textFrom_length (b : Block) (i : Nat) : (b.textFrom i).length = b.textLen - i := by
  simp [Block.textFrom]

@[simp] theorem Block.text_length (b : Block) : b.text.length = b.textLen := by simp [Block.text]

theorem Block.textFrom_eq_nil {b : Block} {i : Nat} (h : b.textFrom i = []) : b.textLen ≤ i := by
  have := congrArg List.length h
  simp at this
  omega

/-- The characters from index `i` are the text without its first `i`. -/
theorem Block.textFrom_eq_drop (b : Block) (i : Nat) : b.textFrom i = b.text.drop i := by
  simp only [Block.text, Block.textFrom, ← List.map_drop, List.drop_range']
  simp

/-- Characters at the front of the unread text, dropped. -/
theorem Block.textFrom_add (b : Block) (i k : Nat) : b.textFrom (i + k) = (b.textFrom i).drop k := by
  rw [Block.textFrom_eq_drop, Block.textFrom_eq_drop, List.drop_drop]

/-- The text depends on IN_LEN, `SYM_W`, the epoch and the bytes of IN below IN_LEN alone. -/
theorem Block.textFrom_congr {b c : Block} (hp : c.params = b.params) (he : c.epoch = b.epoch)
    (hl : c.inLen = b.inLen) (hm : ∀ a, inBase ≤ a → a < inAddr b.textLen → c.mem.read? a = b.mem.read? a)
    (i : Nat) : c.textFrom i = b.textFrom i := by
  unfold Block.textFrom
  rw [show c.textLen = b.textLen by unfold Block.textLen; rw [hl]]
  refine List.map_congr_left fun j hj => Block.inSym_congr hp he fun a h1 h2 => hm a ?_ ?_
  · unfold inAddr at h1; omega
  · rw [List.mem_range'_1] at hj
    unfold inAddr at *
    omega

end Sys2Proof.Machine
end

