-- ==== Sys2Proof/Laws/Builder.lean ====
section
/-! SUPPORT. The laws of the tree builder and the code deriver: selection and merging, sizes, and the code table as a
map. -/

namespace Sys2Proof.Machine

/-! ## Sizes -/

theorem bumpCount_ne_nil (ft : FreqTable) (s : Sym) : bumpCount ft s ≠ [] := by
  cases ft with
  | nil => simp [bumpCount]
  | cons c r => unfold bumpCount; split <;> (try split) <;> simp

theorem bumpCount_length (ft : FreqTable) (s : Sym) : (bumpCount ft s).length ≤ ft.length + 1 := by
  induction ft with
  | nil => simp [bumpCount]
  | cons c r ih => unfold bumpCount; split <;> (try split) <;> simp_all

@[simp] theorem leavesFrom_length (k : Nat) (ft : FreqTable) : (leavesFrom k ft).length = ft.length := by
  induction ft generalizing k with
  | nil => rfl
  | cons c r ih => simp [leavesFrom, ih]

@[simp] theorem poolLeaves_leavesFrom (k : Nat) (ft : FreqTable) : poolLeaves (leavesFrom k ft) = ft.length := by
  induction ft generalizing k with
  | nil => rfl
  | cons c r ih =>
    have := ih (k + 1)
    simp only [poolLeaves, leavesFrom, List.map_cons, List.sum_cons, Node.leaves, List.length_nil,
      List.length_cons] at *
    omega

/-! ## Selection (41_tree_builder R135) -/

/-- The node taken and the rest are the pool in some order. -/
theorem takeLeast_perm {pool rest : List Node} {x : Node} (h : takeLeast pool = some (x, rest)) :
    (x :: rest).Perm pool := by
  induction pool generalizing x rest with
  | nil => simp [takeLeast] at h
  | cons y ys ih =>
    unfold takeLeast at h
    split at h
    · rename_i hn
      cases h
      cases ys with
      | nil => exact List.Perm.refl _
      | cons z zs => unfold takeLeast at hn; split at hn <;> (try split at hn) <;> cases hn
    · rename_i m r hm
      split at h
      · cases h; exact List.Perm.refl _
      · cases h
        exact ((List.Perm.swap y x r).trans ((ih hm).cons y))

theorem takeLeast_isSome {pool : List Node} (h : pool ≠ []) : ∃ x rest, takeLeast pool = some (x, rest) := by
  cases pool with
  | nil => exact absurd rfl h
  | cons y ys =>
    unfold takeLeast
    split
    · exact ⟨_, _, rfl⟩
    · split <;> exact ⟨_, _, rfl⟩

theorem before_iff (x y : Node) : x.before y = true ↔ keyLess x y := by simp [Node.before, keyLess]

/-- No node left in the pool has a smaller key than the one taken. -/
theorem takeLeast_min {pool rest : List Node} {x : Node} (h : takeLeast pool = some (x, rest)) :
    ∀ y ∈ rest, ¬ keyLess y x := by
  induction pool generalizing x rest with
  | nil => cases h
  | cons z zs ih =>
    unfold takeLeast at h
    split at h
    · cases h; simp
    · rename_i m r hm
      split at h <;> rename_i hb <;> cases h <;> rw [before_iff] at hb
      · intro y hy
        rcases List.mem_cons.mp ((takeLeast_perm hm).symm.subset hy) with rfl | hp
        · unfold keyLess at *; omega
        · have := ih hm y hp
          unfold keyLess at *; omega
      · rintro y (_ | ⟨_, hy⟩)
        · exact hb
        · exact ih hm y hy

/-- One iteration of BUILD on a pool of at least two nodes takes the two of least key, one after the other, and adds
their parent, the first taken on its left (41_tree_builder R136, R137). -/
theorem mergeLeast_spec {pool : List Node} (next : Nat) (h : 2 ≤ pool.length) :
    ∃ x y rest, (x :: y :: rest).Perm pool ∧
      mergeLeast pool next = rest ++ [.internal x y (x.weight + y.weight) next] ∧
      (∀ z ∈ y :: rest, ¬ keyLess z x) ∧ ∀ z ∈ rest, ¬ keyLess z y := by
  obtain ⟨x, r1, h1⟩ := takeLeast_isSome (pool := pool) (by rintro rfl; simp at h)
  have p1 := takeLeast_perm h1
  have l1 : r1.length + 1 = pool.length := by simpa using p1.length_eq
  obtain ⟨y, r2, h2⟩ := takeLeast_isSome (pool := r1) (by rintro rfl; simp at l1; omega)
  exact ⟨x, y, r2, ((takeLeast_perm h2).cons x).trans p1, by simp only [mergeLeast, h1, h2],
    fun z hz => takeLeast_min h1 z ((takeLeast_perm h2).subset hz), takeLeast_min h2⟩

theorem mergeLeast_length {pool : List Node} (next : Nat) (h : 2 ≤ pool.length) :
    (mergeLeast pool next).length + 1 = pool.length := by
  obtain ⟨x, y, rest, hp, hm, -⟩ := mergeLeast_spec next h
  have := hp.length_eq
  simp [hm] at *
  omega

theorem poolLeaves_perm {p q : List Node} (h : p.Perm q) : poolLeaves p = poolLeaves q :=
  (h.map _).sum_eq

theorem poolLeaves_mergeLeast {pool : List Node} (next : Nat) (h : 2 ≤ pool.length) :
    poolLeaves (mergeLeast pool next) = poolLeaves pool := by
  obtain ⟨x, y, rest, hp, hm, -⟩ := mergeLeast_spec next h
  rw [← poolLeaves_perm hp, hm]
  simp only [poolLeaves, List.map_append, List.map_cons, List.map_nil, List.sum_append, List.sum_cons, List.sum_nil,
    Node.leaves, List.length_append]
  omega

theorem leaves_ne_nil (n : Node) : 1 ≤ n.leaves.length := by
  induction n with
  | leaf s w k => simp [Node.leaves]
  | internal l r w k ih1 ih2 => simp [Node.leaves]; omega

theorem pool_length_le (pool : List Node) : pool.length ≤ poolLeaves pool := by
  induction pool with
  | nil => simp
  | cons x r ih =>
    have := leaves_ne_nil x
    simp only [poolLeaves, List.map_cons, List.sum_cons, List.length_cons] at *
    omega

/-! ## The code table as a map (00_scope R10) -/

theorem codeOf_setCode_same (ct : CodeTable) (s : Sym) (c : Code) : codeOf (setCode ct s c) s = some c := by
  induction ct with
  | nil => simp [setCode, codeOf]
  | cons e r ih =>
    obtain ⟨k, d⟩ := e
    unfold setCode
    split
    · simp [codeOf]
    · split
      · simp [codeOf]
      · rename_i h1 _
        simpa [codeOf, h1] using ih

theorem codeOf_setCode_other (ct : CodeTable) {s u : Sym} (c : Code) (h : u ≠ s) :
    codeOf (setCode ct s c) u = codeOf ct u := by
  induction ct with
  | nil => simp [setCode, codeOf, h]
  | cons e r ih =>
    obtain ⟨k, d⟩ := e
    unfold setCode
    split
    · rename_i h1; subst h1; simp [codeOf, h]
    · split
      · simp [codeOf, h]
      · simp [codeOf, ih]

theorem setCode_length (ct : CodeTable) (s : Sym) (c : Code) : (setCode ct s c).length ≤ ct.length + 1 := by
  induction ct with
  | nil => simp [setCode]
  | cons e r ih =>
    obtain ⟨k, d⟩ := e
    unfold setCode
    split <;> (try split) <;> simp_all

theorem walkTree_length (n : Node) (path : Code) (ct : CodeTable) :
    (walkTree n path ct).length ≤ ct.length + n.leaves.length := by
  induction n generalizing path ct with
  | leaf s w k => simpa [walkTree, Node.leaves] using setCode_length ct s path
  | internal l r w k ihl ihr =>
    have h1 := ihl (path ++ [false]) ct
    have h2 := ihr (path ++ [true]) (walkTree l (path ++ [false]) ct)
    simp only [walkTree, Node.leaves, List.length_append]
    omega

theorem codeTable_length (root : Node) : (codeTable root).length ≤ root.leaves.length := by
  cases root with
  | leaf s w k => simp [codeTable, setCode, Node.leaves]
  | internal l r w k => simpa [codeTable] using walkTree_length (.internal l r w k) [] []

/-! ## The document -/

@[simp] theorem bitstream_nil (ct : CodeTable) : bitstream ct [] = [] := rfl

@[simp] theorem bitstream_cons (ct : CodeTable) (s : Sym) (t : List Sym) :
    bitstream ct (s :: t) = (codeOf ct s).getD [] ++ bitstream ct t := by simp [bitstream]

@[simp] theorem bitchars_length (c : Code) : (bitchars c).length = c.length := by simp [bitchars]

@[simp] theorem bitchars_append (c d : Code) : bitchars (c ++ d) = bitchars c ++ bitchars d := by simp [bitchars]

theorem entryText_length (e : Entry) (last : Bool) : (entryText e last).length = e.2.length + 3 := by
  simp [entryText]

theorem tableText_length_ge (ct : CodeTable) : ct.length ≤ (tableText ct).length := by
  induction ct with
  | nil => simp
  | cons e r ih =>
    have := entryText_length e r.isEmpty
    simp only [tableText, List.length_append, List.length_cons]
    omega

end Sys2Proof.Machine
end

