-- ==== Sys2Proof/Laws/Commands.lean ====
section
/-! SUPPORT. The fields of an encoded word, and what `exec` can do, once. -/

namespace Sys2Proof

/-! ## The fields of a word -/

theorem opField_append (r : BitVec 28) (o : BitVec 4) : opField (r ++ o : Word) = o := by
  ext i hi
  have := BitVec.getLsbD_append (x := r) (y := o) (i := i)
  simp_all [opField, ← BitVec.getLsbD_eq_getElem]

theorem rsvdField_append (r : BitVec 28) (o : BitVec 4) : rsvdField (r ++ o : Word) = r := by
  ext i hi
  have := BitVec.getLsbD_append (x := r) (y := o) (i := 4 + i)
  simp_all [rsvdField, ← BitVec.getLsbD_eq_getElem]

/-- A word is its RSVD field above its OP field (30_encoding R81). -/
theorem append_fields (w : Word) : (rsvdField w ++ opField w : Word) = w := by
  unfold rsvdField opField
  ext i hi
  simp [← BitVec.getLsbD_eq_getElem]
  grind

theorem opField_encode (i : Instr) : opField (encode i) = i.op := opField_append _ _

theorem rsvdField_encode (i : Instr) : rsvdField (encode i) = i.rsvd := rsvdField_append _ _

/-- OP values from 0x4 up are the two patterns 0b01oo and 0b1ooo. -/
theorem reserved_op_patterns : ∀ o : BitVec 4, o ≠ 0 → o ≠ 1 → o ≠ 2 → o ≠ 3 →
    if o.extractLsb' 2 2 = 1 then (0b01#2 ++ o.extractLsb' 0 2 : BitVec 4) = o
    else (0b1#1 ++ o.extractLsb' 0 3 : BitVec 4) = o := by decide

/-- The decoder keeps both fields of the word. -/
theorem decodeWord_fields (w : Word) :
    (decodeWord w).op = opField w ∧ (decodeWord w).rsvd = rsvdField w ∧ (decodeWord w).wf = true := by
  unfold decodeWord
  have := reserved_op_patterns (opField w)
  split
  · simp_all [Instr.op, Instr.rsvd, Instr.wf]
  · rename_i h
    simp at h
    repeat' split
    all_goals simp_all [Instr.op, Instr.rsvd, Instr.wf]

namespace Machine

/-! ## What `exec` can do -/

/-- A command word always completes: it applies one of four effects to the block unless BUSY (40_command R110-R114). -/
theorem exec_cases (i : Instr) (s : State) : ∃ f : Block → Block, exec i s = .next (s.command f) ∧
    ((i = .nop ∧ f = fun b => b) ∨ (i = .encode ∧ f = fun b => b.start 1) ∨
      (i = .decode ∧ f = fun b => b.start 2) ∨ (i ≠ .nop ∧ f = fun b => b.illegal i.op)) := by
  cases i <;> exact ⟨_, rfl, by simp⟩

end Machine

end Sys2Proof
end

