-- ==== Sys2Proof/Laws/Bus.lean ====
section
/-! SUPPORT. Address decoding at the offsets of the register page and the buffers, and what a bus access and a host
step can do, once. -/

namespace Sys2Proof.Machine

/-! ## Address decoding -/

theorem decodeAccess_reg {p : Params} {off : Nat} (h4 : off % 4 = 0) (h : off < 0x1000) :
    decodeAccess p .w32 off = .ok (.reg off) := by
  simp [decodeAccess, target?, h4, h]

theorem decodeAccess_in {p : Params} {i : Nat} (h : i < p.inCap) :
    decodeAccess p .w32 (inAddr i) = .ok (.inWord i) := by
  have h1 : inAddr i % 4 = 0 := by unfold inAddr inBase; omega
  have h2 : ¬ inAddr i < 0x1000 := by unfold inAddr inBase; omega
  have h3 : inBase ≤ inAddr i ∧ inAddr i < inBase + 4 * p.inCap := by unfold inAddr; omega
  have h4 : (inAddr i - inBase) / 4 = i := by unfold inAddr; omega
  simp [decodeAccess, target?, h1, h2, h3, h4]

theorem decodeAccess_out {p : Params} {off : Nat} (hl : p.inCap ≤ 262144) (h4 : off % 4 = 0) (h : outBase ≤ off)
    (h' : off < outBase + 4 * p.outCap) : decodeAccess p .w32 off = .ok (.outWord ((off - outBase) / 4)) := by
  have h2 : ¬ off < 0x1000 := by unfold outBase at h; omega
  have h3 : ¬ (inBase ≤ off ∧ off < inBase + 4 * p.inCap) := by unfold inBase outBase at *; omega
  simp [decodeAccess, target?, h4, h2, h3, h, h']

theorem decodeAccess_outAddr {p : Params} {i : Nat} (hl : p.inCap ≤ 262144) (h : i < p.outCap) :
    decodeAccess p .w32 (outAddr i) = .ok (.outWord i) := by
  rw [decodeAccess_out hl (by unfold outAddr outBase; omega) (by unfold outAddr; omega) (by unfold outAddr; omega)]
  congr 2
  unfold outAddr
  omega

/-- What a decoded access names: only whole words, only IN words below IN_CAP, CMD only at offset 0. -/
theorem decodeAccess_ok {p : Params} {w : Width} {off : Nat} {t : Target} (h : decodeAccess p w off = .ok t) :
    w = .w32 ∧ (∀ i, t = .inWord i → i < p.inCap) ∧ (∀ o, t = .reg o → o = off) := by
  unfold decodeAccess at h
  split at h
  · cases h
  rename_i hw
  split at h
  · cases h
  split at h
  · cases h
  rename_i ht
  cases h
  refine ⟨by simpa using hw, ?_, ?_⟩
  · rintro i rfl
    unfold target? at ht
    split at ht
    · simp at ht
    · split at ht
      · simp at ht; omega
      · split at ht <;> simp at ht
  · rintro o rfl
    unfold target? at ht
    split at ht
    · simpa using ht.symm
    · split at ht
      · simp at ht
      · split at ht <;> simp at ht

/-! ## One access -/

theorem busAccess_rd {s : State} {off : Nat} {t : Target} (hr : s.block.inReset = false)
    (h : decodeAccess s.block.params .w32 off = .ok t) : busAccess (rd off) s = .next (readTarget t (rd off) s) := by
  simp [busAccess, hr, rd, h]

theorem busAccess_wr {s : State} {off : Nat} {v : Word} {t : Target} (hr : s.block.inReset = false)
    (h : decodeAccess s.block.params .w32 off = .ok t) : busAccess (wr off v) s = writeTarget t v (wr off v) s := by
  simp [busAccess, hr, wr, h]

/-- A write to CMD runs the decoded word (40_command R110). -/
theorem busAccess_cmd (s : State) (w : Word) (h : s.block.inReset = false) :
    busAccess (wr 0x000 w) s = exec (decodeWord w) (s.record (wr 0x000 w) .ack) := by
  simp [busAccess, wr, decodeAccess, target?, writeTarget, h]

/-- A read leaves the block, the host's list and the schedule alone (20_memory R66). -/
theorem readTarget_frame (t : Target) (a : Access) (s : State) :
    (readTarget t a s).block = s.block ∧ (readTarget t a s).host = s.host ∧
      (readTarget t a s).schedule = s.schedule := by
  cases t <;> simp only [readTarget, State.record_block, State.record_host, State.record_schedule, and_self]
  split <;> simp

/-- What one operation of the host can do to the block: nothing, run a command word, store to IN_LEN, store to an IN
word, or drive an edge of reset. -/
inductive HostEffect : HostOp → Block → Block → Prop where
  | none (op : HostOp) (b : Block) : HostEffect op b b
  | start (w : Word) (op : BitVec 4) (b : Block) (hr : b.inReset = false) (hb : b.state ≠ .busy)
      (h : (decodeWord w = .encode ∧ op = 1) ∨ (decodeWord w = .decode ∧ op = 2)) :
      HostEffect (.access (wr 0x000 w)) b (b.start op)
  | illegal (w : Word) (b : Block) (hr : b.inReset = false) (hb : b.state ≠ .busy) (h : decodeWord w ≠ .nop) :
      HostEffect (.access (wr 0x000 w)) b (b.illegal (decodeWord w).op)
  | inLen (op : HostOp) (b : Block) (v : Word) (hr : b.inReset = false) (hb : b.state ≠ .busy) :
      HostEffect op b { b with inLen := v }
  | inWord (op : HostOp) (b : Block) (i : Nat) (v : Word) (hr : b.inReset = false) (hb : b.state ≠ .busy)
      (hi : i < b.params.inCap) : HostEffect op b (b.storeIn i v)
  | assertReset (b : Block) : HostEffect .assertReset b b.assertReset
  | releaseReset (b : Block) : HostEffect .releaseReset b b.releaseReset

/-- A read access has no effect on the block. -/
theorem busAccess_read_block {width : Width} {off : Nat} {s t : State}
    (h : busAccess (.read width off) s = .next t) : t.block = s.block := by
  unfold busAccess at h
  split at h
  · cases h
  · dsimp only at h
    split at h
    · cases h; rfl
    · cases h; exact (readTarget_frame _ _ _).1

/-- A write access that is not a command word can change IN_LEN or one IN word, and only while not BUSY. -/
theorem busAccess_effect {a : Access} {s t : State} (h : busAccess a s = .next t)
    (hcmd : ∀ w, a ≠ wr 0x000 w) :
    t.block = s.block ∨ (s.block.inReset = false ∧ s.block.state ≠ .busy ∧
      ((∃ v, t.block = { s.block with inLen := v }) ∨
        (∃ i v, i < s.block.params.inCap ∧ t.block = s.block.storeIn i v))) := by
  cases a with
  | read width off => exact .inl (busAccess_read_block h)
  | write width off v =>
    unfold busAccess at h
    split at h
    · cases h
    rename_i hr
    dsimp only at h
    split at h
    · cases h; exact .inl rfl
    rename_i tgt ht
    obtain ⟨rfl, hin, hreg⟩ := decodeAccess_ok ht
    by_cases hb : s.block.state = .busy
    · left
      cases tgt with
      | reg o =>
        obtain rfl := hreg o rfl
        simp only [writeTarget] at h
        split at h
        · rename_i h0; subst h0; exact absurd rfl (hcmd v)
        · split at h <;> (cases h; simp [Block.writeInLen, hb])
      | inWord i => cases h; simp [Block.writeIn, hb]
      | outWord i => cases h; rfl
    · cases tgt with
      | reg o =>
        obtain rfl := hreg o rfl
        simp only [writeTarget] at h
        split at h
        · rename_i h0; subst h0; exact absurd rfl (hcmd v)
        · split at h
          · cases h
            exact .inr ⟨by simpa using hr, hb, .inl ⟨v, by simp [Block.writeInLen, hb]⟩⟩
          · cases h; exact .inl rfl
      | inWord i =>
        cases h
        exact .inr ⟨by simpa using hr, hb, .inr ⟨i, v, hin i rfl, by simp [Block.writeIn, hb]⟩⟩
      | outWord i => cases h; exact .inl rfl

/-- What one step of the host can do to the block. -/
theorem hostStep_effect {op : HostOp} {s t : State} (h : hostStep op s = .next t) :
    HostEffect op s.block t.block := by
  have same : t.block = s.block → HostEffect op s.block t.block := fun e => e ▸ .none _ _
  cases op with
  | access a =>
    by_cases hcmd : ∃ w, a = wr 0x000 w
    · obtain ⟨w, rfl⟩ := hcmd
      simp only [hostStep] at h
      by_cases hr : s.block.inReset = true
      · simp [busAccess, hr] at h
      rw [Bool.not_eq_true] at hr
      rw [busAccess_cmd s w hr] at h
      obtain ⟨f, hf, hi⟩ := exec_cases (decodeWord w) (s.record (wr 0x000 w) .ack)
      rw [hf] at h
      cases h
      by_cases hb : s.block.state = .busy
      · exact same (by rw [State.command_busy f (by simpa using hb)]; rfl)
      rw [State.command_accepted f (by simpa using hb)] at *
      simp only [State.record_block] at *
      rcases hi with ⟨-, rfl⟩ | ⟨hi, rfl⟩ | ⟨hi, rfl⟩ | ⟨hi, rfl⟩
      · exact same rfl
      · exact .start w 1 _ hr hb (.inl ⟨hi, rfl⟩)
      · exact .start w 2 _ hr hb (.inr ⟨hi, rfl⟩)
      · exact .illegal w _ hr hb hi
    · rcases busAccess_effect h (fun w e => hcmd ⟨w, e⟩) with e | ⟨hr, hb, ⟨v, e⟩ | ⟨i, v, hi, e⟩⟩
      · exact same e
      · exact e ▸ .inLen _ _ v hr hb
      · exact e ▸ .inWord _ _ i v hr hb hi
  | wait =>
    simp only [hostStep] at h
    split at h
    · exact same (by have := busAccess_read_block h; exact this)
    · exact same (by have := busAccess_read_block h; exact this)
  | readOut =>
    simp only [hostStep] at h
    exact same (by have := busAccess_read_block h; exact this)
  | assertReset => cases h; exact .assertReset _
  | releaseReset => cases h; exact .releaseReset _

/-- The only refusal of a host step is an access while reset is asserted (93 U4). -/
theorem hostStep_refused {op : HostOp} {s : State} {r : Refusal} (h : hostStep op s = .refused r) :
    r = .accessDuringReset ∧ s.block.inReset = true := by
  have acc : ∀ {a : Access} {s : State}, busAccess a s = .refused r →
      r = .accessDuringReset ∧ s.block.inReset = true := by
    intro a s h
    unfold busAccess at h
    split at h
    · cases h; exact ⟨rfl, by assumption⟩
    · exfalso
      split at h
      · split at h <;> cases h
      · split at h
        · cases h
        · unfold writeTarget at h
          split at h
          · split at h
            · obtain ⟨f, hf, -⟩ := exec_cases _ _
              rw [hf] at h; cases h
            · split at h <;> cases h
          · cases h
          · cases h
  cases op with
  | access a => exact acc h
  | wait =>
    simp only [hostStep] at h
    split at h
    · simpa using acc h
    · exact acc h
  | readOut =>
    simp only [hostStep] at h
    simpa using acc h
  | assertReset => cases h
  | releaseReset => cases h

/-- A host step never faults. -/
theorem hostStep_fault {op : HostOp} {s : State} {f : Fault} : hostStep op s ≠ .fault f := by
  have acc : ∀ {a : Access} {s : State}, busAccess a s ≠ .fault f := by
    intro a s h
    unfold busAccess at h
    split at h
    · cases h
    · split at h
      · split at h <;> cases h
      · split at h
        · cases h
        · unfold writeTarget at h
          split at h
          · split at h
            · obtain ⟨g, hg, -⟩ := exec_cases _ _
              rw [hg] at h; cases h
            · split at h <;> cases h
          · cases h
          · cases h
  intro h
  cases op with
  | access a => exact acc h
  | wait =>
    simp only [hostStep] at h
    split at h <;> exact acc h
  | readOut =>
    simp only [hostStep] at h
    exact acc h
  | assertReset => cases h
  | releaseReset => cases h

end Sys2Proof.Machine
end

