-- ==== Sys2Proof/Laws/Decoder.lean ====
section
/-! SUPPORT. The laws of the decoder's parts: bit characters, one entry, the reverse code table as a map, and the
greedy walk. -/

namespace Sys2Proof.Machine

/-! ## Bit characters -/

@[simp] theorem isBit_bitchar (b : Bool) : isBit (bitchar b) = true := by cases b <;> decide

@[simp] theorem charbit_bitchar (b : Bool) : charbit (bitchar b) = b := by cases b <;> decide

theorem bitchar_charbit {c : Sym} (h : isBit c = true) : bitchar (charbit c) = c := by
  simp only [isBit, Bool.or_eq_true, beq_iff_eq] at h
  rcases h with rfl | rfl <;> decide

@[simp] theorem isBit_semi : isBit semi = false := by decide

@[simp] theorem isBit_lf : isBit lf = false := by decide

theorem map_charbit_bitchars (c : Code) : (bitchars c).map charbit = c := by
  simp [bitchars, Function.comp_def]

theorem bitchars_map_charbit {d : List Sym} (h : ∀ c ∈ d, isBit c = true) : bitchars (d.map charbit) = d := by
  simp only [bitchars, List.map_map]
  exact (List.map_congr_left fun c hc => bitchar_charbit (h c hc)).trans (List.map_id d)

/-! ## One entry (44_decoder R182) -/

/-- The entry found at the front is written out by `entryText`, with at least one code bit. -/
theorem scanEntry_sound {d rest : List Sym} {e : Entry} {last : Bool} (h : scanEntry d = some (e, last, rest)) :
    e.2 ≠ [] ∧ d = entryText e last ++ rest := by
  unfold scanEntry at h
  split at h
  · rename_i sym c r
    split at h
    · cases h
    rename_i hc
    split at h
    · cases h
    rename_i hne
    have hbits : bitchars ((r.takeWhile isBit).map charbit) = r.takeWhile isBit :=
      bitchars_map_charbit fun c hc => List.mem_takeWhile_imp hc
    have hr := List.takeWhile_append_dropWhile (p := isBit) (l := r)
    simp only [ne_eq, Decidable.not_not] at hc
    split at h
    · cases h
    · rename_i sep rest' hd
      rw [hd] at hr
      split at h
      · rename_i hs
        cases h
        refine ⟨by simpa using hne, ?_⟩
        simp only [entryText, hbits, hc, ← hs]
        simpa using hr.symm
      · split at h
        · rename_i hs
          cases h
          refine ⟨by simpa using hne, ?_⟩
          simp only [entryText, hbits, hc, ← hs]
          simpa using hr.symm
        · cases h
  · cases h

/-- A written-out entry with at least one code bit is found, whatever its symbol (30_encoding R93, R96). -/
theorem scanEntry_complete (e : Entry) (last : Bool) (rest : List Sym) (h : e.2 ≠ []) :
    scanEntry (entryText e last ++ rest) = some (e, last, rest) := by
  obtain ⟨sym, code⟩ := e
  have hsep : isBit (if last then lf else semi) = false := by cases last <;> simp
  have hall : ∀ c ∈ bitchars code, isBit c = true := by
    intro c hc
    obtain ⟨b, -, rfl⟩ := List.mem_map.mp hc
    exact isBit_bitchar b
  have ht : (bitchars code ++ (if last then lf else semi) :: rest).takeWhile isBit = bitchars code := by
    rw [List.takeWhile_append_of_pos hall]; simp [hsep]
  have hd : (bitchars code ++ (if last then lf else semi) :: rest).dropWhile isBit =
      (if last then lf else semi) :: rest := by
    rw [List.dropWhile_append_of_pos hall]; simp [hsep]
  have hne : bitchars code ≠ [] := by simpa [bitchars] using h
  have hform : entryText (sym, code) last ++ rest =
      sym :: colon :: (bitchars code ++ (if last then lf else semi) :: rest) := by simp [entryText]
  rw [hform]
  unfold scanEntry
  simp only [ne_eq, not_true_eq_false, ite_false, ht, hd, hne, map_charbit_bitchars]
  cases last
  · rfl
  · rw [if_neg (by decide : ¬ (if true = true then lf else semi) = semi)]; rfl

/-- An entry has at least four characters. -/
theorem scanEntry_length {d rest : List Sym} {e : Entry} {last : Bool} (h : scanEntry d = some (e, last, rest)) :
    rest.length + 4 ≤ d.length := by
  obtain ⟨h1, rfl⟩ := scanEntry_sound h
  have : 1 ≤ e.2.length := List.length_pos_iff.mpr h1
  simp only [List.length_append, entryText, List.length_cons, List.length_nil, bitchars, List.length_map]
  omega

/-! ## The reverse code table as a map (44_decoder R185) -/

theorem symOfCode_append (rct : RevTable) (c d : Code) (s : Sym) :
    symOfCode (rct ++ [(c, s)]) d =
      match symOfCode rct d with
      | some u => some u
      | none => if d = c then some s else none := by
  induction rct with
  | nil => simp [symOfCode]
  | cons e r ih =>
    obtain ⟨k, u⟩ := e
    by_cases h : d = k
    · simp [symOfCode, h]
    · simp [symOfCode, h, ih]

theorem symOfCode_mem {rct : RevTable} {c : Code} {s : Sym} (h : symOfCode rct c = some s) : (c, s) ∈ rct := by
  induction rct with
  | nil => simp [symOfCode] at h
  | cons e r ih =>
    obtain ⟨k, u⟩ := e
    unfold symOfCode at h
    split at h
    · cases h; subst_vars; exact List.mem_cons_self ..
    · exact List.mem_cons_of_mem _ (ih h)

end Sys2Proof.Machine
end

