-- ==== Sys2Proof/Laws/Ticks.lean ====
section
/-! SUPPORT. One iteration of a running operation, once: it answers a next block, keeps the invariant, changes only what
the block agent may change, advances the phase, and comes closer to the operation's end. -/

namespace Sys2Proof.Machine

/-! ## What the block agent leaves alone (20_memory R70) -/

/-- Everything but PHASE, ERR, STATE, the result registers, the internal state and the OUT words below OUT_CAP. -/
structure Block.Frame (b c : Block) : Prop where
  params : c.params = b.params
  inReset : c.inReset = b.inReset
  epoch : c.epoch = b.epoch
  op : c.op = b.op
  inLen : c.inLen = b.inLen
  bytes : ∀ a, a < outBase ∨ outAddr b.params.outCap ≤ a → c.mem.read? a = b.mem.read? a

theorem Block.Frame.refl (b : Block) : b.Frame b := ⟨rfl, rfl, rfl, rfl, rfl, fun _ _ => rfl⟩

theorem Block.Frame.trans {b c d : Block} (h : b.Frame c) (k : c.Frame d) : b.Frame d :=
  ⟨k.params.trans h.params, k.inReset.trans h.inReset, k.epoch.trans h.epoch, k.op.trans h.op,
    k.inLen.trans h.inLen, fun a ha => (k.bytes a (by rw [h.params]; exact ha)).trans (h.bytes a ha)⟩

theorem Block.frame_withWork (b : Block) (w : Work) : b.Frame (b.withWork w) := ⟨rfl, rfl, rfl, rfl, rfl, fun _ _ => rfl⟩

theorem Block.frame_enter (b : Block) (p : Phase) (w : Work) : b.Frame (b.enter p w) :=
  ⟨rfl, rfl, rfl, rfl, rfl, fun _ _ => rfl⟩

theorem Block.frame_raise (b : Block) (e : ErrCode) (p : Phase) : b.Frame (b.raise e p) :=
  ⟨rfl, rfl, rfl, rfl, rfl, fun _ _ => rfl⟩

theorem Block.frame_finish (b : Block) (r : Results) (p : Phase) : b.Frame (b.finish r p) :=
  ⟨rfl, rfl, rfl, rfl, rfl, fun _ _ => rfl⟩

theorem Block.frame_storeOuts (b : Block) (i : Nat) (cs : List Sym) (h : i + cs.length ≤ b.params.outCap) :
    b.Frame (b.storeOuts i cs) :=
  ⟨by simp, by simp, by simp, by simp, by simp, fun a ha => b.read_storeOuts_other i cs (by
    unfold outAddr at *; omega)⟩

/-- The block agent leaves the text alone, as long as it lies in IN. -/
theorem Block.Frame.textFrom {b c : Block} (h : b.Frame c) (hl : b.params.Legal)
    (hn : b.inLen.toNat ≤ b.params.inCap) (i : Nat) : c.textFrom i = b.textFrom i :=
  Block.textFrom_congr h.params h.epoch h.inLen
    (fun a _ h2 => h.bytes a (.inl (by have := hl.2.1; unfold inAddr Block.textLen inBase outBase at *; omega))) i

theorem Block.Frame.textLen {b c : Block} (h : b.Frame c) : c.textLen = b.textLen := by
  unfold Block.textLen; rw [h.inLen]

/-! ## The invariant without the internal state -/

/-- `Block.Inv` less `Block.WorkInv`. -/
structure Block.BaseInv (b : Block) : Prop where
  legal : b.params.Legal
  status : b.StatusInv
  result : b.ResultInv
  memory : b.MemInv

theorem Block.Inv.base {b : Block} (h : b.Inv) : b.BaseInv := ⟨h.legal, h.status, h.result, h.memory⟩

theorem Block.BaseInv.inv {b : Block} (h : b.BaseInv) (hw : b.WorkInv) : b.Inv :=
  ⟨h.legal, h.status, h.result, h.memory, hw⟩

theorem Block.BaseInv.busy {b : Block} (h : b.BaseInv) (hb : b.state = .busy) :
    b.inReset = false ∧ phaseOf b.op b.phase = true ∧ b.err = .noError ∧ b.inLen.toNat ≤ b.params.inCap := by
  have := h.status
  simpa only [Block.StatusInv, hb] using this

theorem Block.BaseInv.withWork {b : Block} (h : b.BaseInv) (w : Work) : (b.withWork w).BaseInv :=
  ⟨h.legal, h.status, h.result, h.memory⟩

theorem Block.BaseInv.enter {b : Block} (h : b.BaseInv) (hb : b.state = .busy) {p : Phase}
    (hp : phaseOf b.op p = true) (w : Work) : (b.enter p w).BaseInv := by
  refine ⟨h.legal, ?_, h.result, h.memory⟩
  have := h.busy hb
  simp only [Block.StatusInv, Block.enter_state, hb]
  exact ⟨this.1, hp, this.2.2.1, this.2.2.2⟩

theorem Block.BaseInv.raise {b : Block} (h : b.BaseInv) (hb : b.state = .busy) {e : ErrCode} {p : Phase}
    (he : errorOf b.op e p = true) : (b.raise e p).Inv := by
  have hz := h.result.1 (by simp [hb])
  refine ⟨h.legal, ?_, ⟨fun _ => hz, h.result.2⟩, h.memory, ?_⟩
  · simp only [Block.StatusInv, Block.raise_state]
    exact ⟨(h.busy hb).1, he⟩
  · simp [Block.WorkInv]

/-- Writing OUT words below OUT_CAP keeps the invariant of a running operation. -/
theorem Block.BaseInv.storeOuts {b : Block} (h : b.BaseInv) (hb : b.state = .busy) {i : Nat} {cs : List Sym}
    (hc : i + cs.length ≤ b.params.outCap) : (b.storeOuts i cs).BaseInv := by
  refine ⟨by simpa using h.legal, ?_, ⟨?_, ?_, ?_⟩, ?_, ?_⟩
  · simpa [Block.StatusInv] using h.status
  · intro _; simpa [Block.ResultsZero] using h.result.1 (by simp [hb])
  · simpa using h.result.2.1
  · intro j hj
    have := (h.result.1 (by simp [hb])).1
    simp [this] at hj
  · exact Block.wf_storeOuts i cs h.memory.1
  · intro c hc'
    rw [Block.storeOuts_params]
    rcases Block.mem_storeOuts hc' with hc' | hc'
    · right; unfold outAddr at hc'; omega
    · exact h.memory.2 c hc'

/-- `finish` keeps the invariant where OUT holds the output and the counts are within OUT_CAP. -/
theorem Block.BaseInv.finish {b : Block} (h : b.BaseInv) (hb : b.state = .busy) {r : Results} {p : Phase}
    (hp : (b.op = 1 ∧ p = .emit) ∨ (b.op = 2 ∧ p = .parseStream))
    (ho : ∀ i, i < r.outLen → (b.outWord? i).isSome = true)
    (hr : r.outLen ≤ b.params.outCap ∧ r.tableLen ≤ b.params.outCap ∧ r.streamLen ≤ b.params.outCap ∧
      r.symCount ≤ b.params.outCap ∧ r.entries ≤ b.params.outCap) : (b.finish r p).Inv := by
  have le : ∀ n k : Nat, n ≤ k → (BitVec.ofNat 32 n).toNat ≤ k := fun n k h => by
    rw [BitVec.toNat_ofNat]; exact (Nat.mod_le _ _).trans h
  have hbusy := h.busy hb
  refine ⟨h.legal, ?_, ⟨fun hn => absurd rfl hn, ?_, ?_⟩, h.memory, ?_⟩
  · simp only [Block.StatusInv, Block.finish_state]
    exact ⟨hbusy.1, hbusy.2.2.1, hp⟩
  · exact ⟨le _ _ hr.1, le _ _ hr.2.1, le _ _ hr.2.2.1, le _ _ hr.2.2.2.1, le _ _ hr.2.2.2.2⟩
  · intro i hi
    simp only [Block.finish_outLen, BitVec.toNat_ofNat] at hi
    exact ho i (Nat.lt_of_lt_of_le hi (Nat.mod_le _ _))
  · simp [Block.WorkInv]

/-! ## How far an operation is from its end -/

/-- A bound on the iterations a running operation still makes. -/
def Block.ticksLeft (b : Block) : Nat :=
  match b.phase with
  | .noPhase => 4 * b.textLen + 5
  | .count => (b.textLen - b.work.inPos) + (3 * b.textLen + 4)
  | .build => b.work.pool.length + (2 * b.textLen + 3)
  | .derive => 2 * b.textLen + 3
  | .serialize => (b.work.ct.length - b.work.entryPos) + (b.textLen + 2)
  | .emit => b.textLen - b.work.inPos + 1
  | .awaitHeader =>
    match b.work.tableEnd with
    | none => (b.textLen - b.work.inPos) + (2 * b.textLen + 4)
    | some _ => 2 * b.textLen + 3
  | .parseTable => (b.work.entries.length - b.work.entryPos) + (b.textLen + 2)
  | .parseStream => b.textLen - b.work.inPos + 1

/-- What one iteration of a running operation does. -/
structure Block.TickOk (b c : Block) : Prop where
  inv : c.Inv
  frame : b.Frame c
  left : c.state = .busy → c.ticksLeft < b.ticksLeft
  phase : c.state = .busy → b.phase.code ≤ c.phase.code ∧ c.phase ≠ .noPhase
  ended : c.state ≠ .idle ∧ (c.state = .failed → c.err ≠ .illegalCommand)

theorem Block.TickOk.of_raise {b : Block} (h : b.Inv) (hb : b.state = .busy) {e : ErrCode} {p : Phase}
    (he : errorOf b.op e p = true) (hc : e ≠ .illegalCommand) : b.TickOk (b.raise e p) :=
  ⟨h.base.raise hb he, b.frame_raise e p, by simp, by simp, by simp [hc]⟩

/-! ## The internal state, phase by phase -/

theorem Block.Inv.work {b : Block} (h : b.Inv) (hb : b.state = .busy) :
    b.work.inPos ≤ b.textLen ∧ b.work.entries.length ≤ b.work.inPos ∧
    (∀ i, i < b.work.outPos → (b.outWord? i).isSome = true) := by
  have := h.working
  rw [Block.WorkInv, if_pos hb] at this
  exact ⟨this.1, this.2.1, this.2.2.1⟩

theorem Block.Inv.phaseWork {b : Block} (h : b.Inv) (hb : b.state = .busy) :
    match b.phase with
    | .noPhase => b.work = Work.empty
    | .count => (b.work.inPos = 0 ∨ b.work.ft ≠ []) ∧ b.work.ft.length ≤ b.work.inPos ∧
        b.work.outPos = 0 ∧ b.work.entries = []
    | .build => b.work.pool ≠ [] ∧ poolLeaves b.work.pool ≤ b.textLen ∧ b.work.outPos = 0 ∧ b.work.entries = []
    | .derive => b.work.pool.length = 1 ∧ poolLeaves b.work.pool ≤ b.textLen ∧
        b.work.outPos = 0 ∧ b.work.entries = []
    | .serialize => b.work.entries = [] ∧ b.work.ct.length ≤ b.textLen ∧
        b.work.outPos + (tableText (b.work.ct.drop b.work.entryPos)).length = (tableText b.work.ct).length
    | .emit => b.work.entries = [] ∧ b.work.ct.length ≤ b.textLen ∧
        b.work.outPos + (bitstream b.work.ct b.unread).length =
          (tableText b.work.ct).length + (bitstream b.work.ct b.text).length
    | .awaitHeader => b.work.outPos = 0 ∧ (b.work.tableEnd = none ∨ b.work.tableEnd = some b.work.inPos)
    | .parseTable => b.work.outPos = 0 ∧ b.work.tableEnd = some b.work.inPos
    | .parseStream => ∃ t, b.work.tableEnd = some t ∧ b.work.outPos + t ≤ b.work.inPos := by
  have := h.working
  rw [Block.WorkInv, if_pos hb] at this
  exact this.2.2.2

theorem phaseOf_phase {op : BitVec 4} {p : Phase} (h : phaseOf op p = true) :
    match (generalizing := false) p with
    | .noPhase => op = 1 ∨ op = 2
    | .count | .build | .derive | .serialize | .emit => op = 1
    | .awaitHeader | .parseTable | .parseStream => op = 2 := by
  cases p <;> simpa [phaseOf] using h

theorem Block.tickBegin_ok {b : Block} (h : b.Inv) (hb : b.state = .busy) (hp : b.phase = .noPhase) :
    ∃ c, b.tickBegin = .ok c ∧ b.TickOk c := by
  have hs := h.base.busy hb
  have ho := hs.2.1
  rw [hp] at ho
  have key : ∀ q, phaseOf b.op q = true → (q = .count ∨ q = .awaitHeader) → b.TickOk (b.enter q Work.empty) := by
    intro q hq hc
    refine ⟨(h.base.enter hb hq _).inv ?_, b.frame_enter _ _, ?_, ?_, by simp [hb]⟩
    · rw [Block.WorkInv, if_pos (by simpa using hb)]
      rcases hc with rfl | rfl <;> simp [Work.empty]
    · intro _
      rcases hc with rfl | rfl <;>
        simp [Block.ticksLeft, hp, Work.empty, Block.textLen] <;> omega
    · intro _
      rcases hc with rfl | rfl <;> simp [hp] <;> decide
  unfold Block.tickBegin
  rcases phaseOf_phase ho with ho | ho
  · exact ⟨_, if_pos ho, key _ (by simp [phaseOf, ho]) (.inl rfl)⟩
  · rw [if_neg (by rw [ho]; decide), if_pos ho]
    exact ⟨_, rfl, key _ (by simp [phaseOf, ho]) (.inr rfl)⟩

theorem Block.tickCount_ok {b : Block} (h : b.Inv) (hb : b.state = .busy) (hp : b.phase = .count) :
    b.TickOk b.tickCount := by
  have hs := h.base.busy hb
  have ho := phaseOf_phase hs.2.1
  have hw := h.work hb
  have hq := h.phaseWork hb
  simp only [hp] at ho hq
  unfold Block.tickCount
  split
  · exact .of_raise h hb (by simp [errorOf, ho]) (by simp)
  rename_i hn
  split
  · rename_i s r hu
    have hlt : b.work.inPos < b.textLen := by
      by_contra hge
      rw [Block.unread, Block.textFrom_nil (by omega)] at hu
      cases hu
    refine ⟨(h.base.withWork _).inv ?_, b.frame_withWork _, ?_, ?_, by simp [hb]⟩
    · rw [Block.WorkInv, if_pos (by simpa using hb)]
      have := bumpCount_length b.work.ft s
      have := bumpCount_ne_nil b.work.ft s
      simp only [Block.withWork_work, Block.withWork_phase, hp]
      refine ⟨hlt, by omega, hw.2.2, .inr this, by omega, hq.2.2⟩
    · intro _
      simp only [Block.ticksLeft, Block.withWork_phase, hp, Block.withWork_work]
      change b.textLen - (b.work.inPos + 1) + (3 * b.textLen + 4) < _
      omega
    · intro _
      simp [hp]
  · rename_i hu
    have hge := Block.textFrom_eq_nil hu
    have hft : b.work.ft ≠ [] := hq.1.resolve_left (by omega)
    have hne : leavesFrom 0 b.work.ft ≠ [] := by
      intro he
      have := leavesFrom_length 0 b.work.ft
      rw [he] at this
      exact hft (List.length_eq_zero_iff.mp this.symm)
    refine ⟨(h.base.enter hb (by simp [phaseOf, ho]) _).inv ?_, b.frame_enter _ _, ?_, ?_, by simp [hb]⟩
    · rw [Block.WorkInv, if_pos (by simpa using hb)]
      simp only [Block.enter_work, Block.enter_phase, poolLeaves_leavesFrom]
      exact ⟨hw.1, hw.2.1, hw.2.2, hne, hq.2.1.trans hw.1, hq.2.2⟩
    · intro _
      simp only [Block.ticksLeft, Block.enter_phase, hp, Block.enter_work, leavesFrom_length]
      change b.work.ft.length + (2 * b.textLen + 3) < _
      omega
    · intro _
      simp [hp]; decide

theorem Block.tickBuild_ok {b : Block} (h : b.Inv) (hb : b.state = .busy) (hp : b.phase = .build) :
    ∃ c, b.tickBuild = .ok c ∧ b.TickOk c := by
  have hs := h.base.busy hb
  have ho := phaseOf_phase hs.2.1
  have hw := h.work hb
  have hq := h.phaseWork hb
  simp only [hp] at ho hq
  unfold Block.tickBuild
  split
  · rename_i h0; exact absurd h0 hq.1
  · rename_i x h0
    refine ⟨_, rfl, (h.base.enter hb (by simp [phaseOf, ho]) _).inv ?_, b.frame_enter _ _, ?_, ?_, by simp [hb]⟩
    · rw [Block.WorkInv, if_pos (by simpa using hb)]
      simp only [Block.enter_work, Block.enter_phase]
      exact ⟨hw.1, hw.2.1, hw.2.2, by rw [h0]; rfl, hq.2⟩
    · intro _
      simp only [Block.ticksLeft, Block.enter_phase, hp, h0, List.length_cons, List.length_nil]
      change 2 * b.textLen + 3 < _
      omega
    · intro _
      simp [hp]; decide
  · rename_i h0 h1
    have h2 : 2 ≤ b.work.pool.length := by
      rcases hpool : b.work.pool with _ | ⟨x, _ | ⟨y, r⟩⟩
      · exact absurd hpool h0
      · exact absurd hpool (h1 x)
      · simp
    have hl := mergeLeast_length b.work.nextSeq h2
    refine ⟨_, rfl, (h.base.withWork _).inv ?_, b.frame_withWork _, ?_, ?_, by simp [hb]⟩
    · rw [Block.WorkInv, if_pos (by simpa using hb)]
      simp only [Block.withWork_work, Block.withWork_phase, hp, poolLeaves_mergeLeast _ h2]
      refine ⟨hw.1, hw.2.1, hw.2.2, ?_, hq.2⟩
      intro he; rw [he] at hl; simp at hl; omega
    · intro _
      simp only [Block.ticksLeft, Block.withWork_phase, hp, Block.withWork_work]
      change _ + (2 * b.textLen + 3) < _
      omega
    · intro _
      simp [hp]

theorem Block.tickDerive_ok {b : Block} (h : b.Inv) (hb : b.state = .busy) (hp : b.phase = .derive) :
    ∃ c, b.tickDerive = .ok c ∧ b.TickOk c := by
  have hs := h.base.busy hb
  have ho := phaseOf_phase hs.2.1
  have hw := h.work hb
  have hq := h.phaseWork hb
  simp only [hp] at ho hq
  obtain ⟨root, hr⟩ := List.length_eq_one_iff.mp hq.1
  have hct : (codeTable root).length ≤ b.textLen := by
    have h1 := hq.2.1
    have h2 := codeTable_length root
    simp only [hr, poolLeaves, List.map_cons, List.map_nil, List.sum_cons, List.sum_nil] at h1
    omega
  simp only [Block.tickDerive, hr]
  split
  · exact ⟨_, rfl, .of_raise h hb (by simp [errorOf, ho]) (by simp)⟩
  · refine ⟨_, rfl, (h.base.enter hb (by simp [phaseOf, ho]) _).inv ?_, b.frame_enter _ _, ?_, ?_, by simp [hb]⟩
    · rw [Block.WorkInv, if_pos (by simpa using hb)]
      simp only [Block.enter_work, Block.enter_phase]
      refine ⟨hw.1, hw.2.1, by simp, hq.2.2.2, hct, by simp⟩
    · intro _
      simp only [Block.ticksLeft, Block.enter_phase, hp, Block.enter_work]
      change (codeTable root).length - 0 + (b.textLen + 2) < 2 * b.textLen + 3
      omega
    · intro _
      simp [hp]; decide

/-- What is left of a table after one entry, in length. -/
theorem tableText_drop {ct r : CodeTable} {k : Nat} {e : Entry} (h : ct.drop k = e :: r) :
    ct.drop (k + 1) = r ∧ (tableText (ct.drop k)).length =
      (entryText e r.isEmpty).length + (tableText (ct.drop (k + 1))).length := by
  have h1 : ct.drop (k + 1) = r := by rw [← List.drop_drop, h]; rfl
  exact ⟨h1, by rw [h1, h]; simp [tableText]⟩

theorem Block.tickSerialize_ok {b : Block} (h : b.Inv) (hb : b.state = .busy) (hp : b.phase = .serialize) :
    b.TickOk b.tickSerialize := by
  have hs := h.base.busy hb
  have ho := phaseOf_phase hs.2.1
  have hw := h.work hb
  have hq := h.phaseWork hb
  simp only [hp] at ho hq
  unfold Block.tickSerialize
  split
  · exact .of_raise h hb (by simp [errorOf, ho]) (by simp)
  rename_i hcap
  split
  · rename_i hd
    have hlen := hq.2.2
    rw [hd] at hlen
    refine ⟨(h.base.enter hb (by simp [phaseOf, ho]) _).inv ?_, b.frame_enter _ _, ?_, ?_, by simp [hb]⟩
    · rw [Block.WorkInv, if_pos (by simpa using hb)]
      simp only [Block.enter_work, Block.enter_phase]
      refine ⟨by simp, by simp [hq.1], hw.2.2, hq.1, hq.2.1, ?_⟩
      change b.work.outPos + (bitstream b.work.ct b.text).length = _ + (bitstream b.work.ct b.text).length
      simpa [tableText] using hlen
    · intro _
      simp only [Block.ticksLeft, Block.enter_phase, hp, Block.enter_work]
      change b.textLen - 0 + 1 < _
      omega
    · intro _
      simp [hp]; decide
  · rename_i e r hd
    obtain ⟨hd1, hd2⟩ := tableText_drop hd
    have hlen := hq.2.2
    have hpos : b.work.entryPos < b.work.ct.length := by
      by_contra hge
      rw [List.drop_eq_nil_of_le (by omega)] at hd
      cases hd
    have hfit : b.work.outPos + (entryText e r.isEmpty).length ≤ b.params.outCap := by omega
    refine ⟨((h.base.storeOuts hb hfit).withWork _).inv ?_,
      (b.frame_storeOuts _ _ hfit).trans (Block.frame_withWork _ _), ?_, ?_, by simp [hb]⟩
    · rw [Block.WorkInv, if_pos (by simpa using hb)]
      have htl : ∀ w, ((b.storeOuts b.work.outPos (entryText e r.isEmpty)).withWork w).textLen = b.textLen :=
        fun w => by simp [Block.textLen]
      simp only [Block.withWork_work, Block.withWork_phase, Block.storeOuts_phase, hp, htl]
      refine ⟨hw.1, hw.2.1, ?_, hq.1, hq.2.1, by omega⟩
      intro i hi
      change ((b.storeOuts _ _).outWord? i).isSome = true
      by_cases hlt : i < b.work.outPos
      · rw [Block.outWord_storeOuts_other _ _ _ (.inl hlt)]; exact hw.2.2 i hlt
      · obtain ⟨k, rfl⟩ : ∃ k, i = b.work.outPos + k := ⟨i - b.work.outPos, by omega⟩
        rw [Block.outWord_storeOuts_same _ _ _ k (by omega)]; rfl
    · intro _
      simp only [Block.ticksLeft, Block.withWork_phase, Block.storeOuts_phase, hp, Block.withWork_work, Block.textLen,
        Block.withWork_inLen, Block.storeOuts_inLen]
      omega
    · intro _
      simp [hp]

theorem Block.tickEmit_ok {b : Block} (h : b.Inv) (hb : b.state = .busy) (hp : b.phase = .emit) :
    b.TickOk b.tickEmit := by
  have hs := h.base.busy hb
  have ho := phaseOf_phase hs.2.1
  have hw := h.work hb
  have hq := h.phaseWork hb
  have hl := h.legal
  simp only [hp] at ho hq
  unfold Block.tickEmit
  split
  · exact .of_raise h hb (by simp [errorOf, ho]) (by simp)
  rename_i hcap
  split
  · rename_i hu
    have hlen := hq.2.2
    rw [hu] at hlen
    refine ⟨h.base.finish hb (.inl ⟨ho, rfl⟩) ?_ ?_, b.frame_finish _ _, by simp, by simp, by simp⟩
    · intro i hi
      refine hw.2.2 i ?_
      simp only [encodeResults, bitstream_nil, List.length_nil] at *
      omega
    · have hct := hq.2.1
      have hcap2 := hl.2.2.1
      have hn : b.textLen ≤ b.params.inCap := hs.2.2.2
      simp only [encodeResults, Block.text_length]
      omega
  · rename_i s r hu
    have hlt : b.work.inPos < b.textLen := by
      by_contra hge
      rw [Block.unread, Block.textFrom_nil (by omega)] at hu
      cases hu
    have hr : b.textFrom (b.work.inPos + 1) = r := by
      rw [Block.unread, Block.textFrom_cons hlt] at hu
      exact (List.cons.inj hu).2
    have hlen := hq.2.2
    rw [hu, bitstream_cons, List.length_append] at hlen
    have hfit : b.work.outPos + (bitchars ((codeOf b.work.ct s).getD [])).length ≤ b.params.outCap := by
      rw [bitchars_length]; omega
    refine ⟨((h.base.storeOuts hb hfit).withWork _).inv ?_,
      (b.frame_storeOuts _ _ hfit).trans (Block.frame_withWork _ _), ?_, ?_, by simp [hb]⟩
    · rw [Block.WorkInv, if_pos (by simpa using hb)]
      have hf := (b.frame_storeOuts _ _ hfit).trans (Block.frame_withWork _
        { b.work with
          inPos := b.work.inPos + 1
          outPos := b.work.outPos + ((codeOf b.work.ct s).getD []).length })
      have htx := hf.textFrom hl hs.2.2.2
      have htl := hf.textLen
      simp only [Block.text, Block.unread, Block.withWork_work, Block.withWork_phase, Block.storeOuts_phase, hp, htl, htx, hr]
      refine ⟨hlt, by simp [hq.1], ?_, hq.1, hq.2.1, ?_⟩
      · intro i hi
        change ((b.storeOuts _ _).outWord? i).isSome = true
        by_cases hlt : i < b.work.outPos
        · rw [Block.outWord_storeOuts_other _ _ _ (.inl hlt)]; exact hw.2.2 i hlt
        · obtain ⟨k, rfl⟩ : ∃ k, i = b.work.outPos + k := ⟨i - b.work.outPos, by omega⟩
          rw [Block.outWord_storeOuts_same _ _ _ k (by rw [bitchars_length]; omega)]; rfl
      · have : b.text = b.textFrom 0 := rfl
        rw [this] at hlen
        omega
    · intro _
      simp only [Block.ticksLeft, Block.withWork_phase, Block.storeOuts_phase, hp, Block.withWork_work, Block.textLen,
        Block.withWork_inLen, Block.storeOuts_inLen] at *
      omega
    · intro _
      simp [hp]

theorem addEntry_error {p : Params} {rct : RevTable} {e : Entry} {c : ErrCode} (h : addEntry p rct e = .error c) :
    c = .capacity ∨ c = .duplicateCode := by
  unfold addEntry at h
  split at h
  · cases h; exact .inl rfl
  · split at h <;> split at h <;> cases h
    · exact .inr rfl
    · exact .inl rfl

theorem Block.tickAwaitHeader_ok {b : Block} (h : b.Inv) (hb : b.state = .busy) (hp : b.phase = .awaitHeader) :
    b.TickOk b.tickAwaitHeader := by
  have hs := h.base.busy hb
  have ho := phaseOf_phase hs.2.1
  have hw := h.work hb
  have hq := h.phaseWork hb
  simp only [hp] at ho hq
  unfold Block.tickAwaitHeader
  split
  · rename_i ht
    split
    · exact .of_raise h hb (by simp [errorOf, ho]) (by simp)
    · rename_i e last rest hsc
      have hlen := scanEntry_length hsc
      rw [Block.unread, Block.textFrom_length] at hlen
      refine ⟨(h.base.withWork _).inv ?_, b.frame_withWork _, ?_, ?_, by simp [hb]⟩
      · rw [Block.WorkInv, if_pos (by simpa using hb)]
        simp only [Block.withWork_work, Block.withWork_phase, hp]
        refine ⟨?_, ?_, hw.2.2, hq.1, by cases last <;> simp⟩
        · change b.textLen - rest.length ≤ b.textLen
          omega
        · simp only [List.length_append, List.length_cons, List.length_nil]
          omega
      · intro _
        simp only [Block.ticksLeft, Block.withWork_phase, hp, Block.withWork_work, ht]
        cases last
        · change (b.textLen - (b.textLen - rest.length)) + (2 * b.textLen + 4) < _
          omega
        · change 2 * b.textLen + 3 < _
          omega
      · intro _
        simp [hp]
  · rename_i t ht
    have ht' : b.work.tableEnd = some b.work.inPos := hq.2.resolve_left (by simp [ht])
    split
    · refine ⟨(h.base.enter hb (by simp [phaseOf, ho]) _).inv ?_, b.frame_enter _ _, ?_, ?_, by simp [hb]⟩
      · rw [Block.WorkInv, if_pos (by simpa using hb)]
        simp only [Block.enter_work, Block.enter_phase]
        exact ⟨hw.1, hw.2.1, hw.2.2, hq.1, ht'⟩
      · intro _
        simp only [Block.ticksLeft, Block.enter_phase, hp, Block.enter_work, ht]
        change b.work.entries.length - 0 + (b.textLen + 2) < _
        omega
      · intro _
        simp [hp]; decide
    · exact .of_raise h hb (by simp [errorOf, ho]) (by simp)

theorem Block.tickParseTable_ok {b : Block} (h : b.Inv) (hb : b.state = .busy) (hp : b.phase = .parseTable) :
    b.TickOk b.tickParseTable := by
  have hs := h.base.busy hb
  have ho := phaseOf_phase hs.2.1
  have hw := h.work hb
  have hq := h.phaseWork hb
  simp only [hp] at ho hq
  unfold Block.tickParseTable
  split
  · refine ⟨(h.base.enter hb (by simp [phaseOf, ho]) _).inv ?_, b.frame_enter _ _, ?_, ?_, by simp [hb]⟩
    · rw [Block.WorkInv, if_pos (by simpa using hb)]
      simp only [Block.enter_work, Block.enter_phase]
      exact ⟨hw.1, hw.2.1, by simp, _, hq.2, by omega⟩
    · intro _
      simp only [Block.ticksLeft, Block.enter_phase, hp, Block.enter_work]
      change b.textLen - b.work.inPos + 1 < _
      omega
    · intro _
      simp [hp]; decide
  · rename_i e r hd
    have hpos : b.work.entryPos < b.work.entries.length := by
      by_contra hge
      rw [List.drop_eq_nil_of_le (by omega)] at hd
      cases hd
    split
    · rename_i c hc
      rcases addEntry_error hc with rfl | rfl <;>
        exact .of_raise h hb (by simp [errorOf, ho]) (by simp)
    · refine ⟨(h.base.withWork _).inv ?_, b.frame_withWork _, ?_, ?_, by simp [hb]⟩
      · rw [Block.WorkInv, if_pos (by simpa using hb)]
        simp only [Block.withWork_work, Block.withWork_phase, hp]
        exact ⟨hw.1, hw.2.1, hw.2.2, hq.1, hq.2⟩
      · intro _
        simp only [Block.ticksLeft, Block.withWork_phase, hp, Block.withWork_work]
        change b.work.entries.length - (b.work.entryPos + 1) + (b.textLen + 2) < _
        omega
      · intro _
        simp [hp]

theorem Block.tickParseStream_ok {b : Block} (h : b.Inv) (hb : b.state = .busy) (hp : b.phase = .parseStream) :
    ∃ c, b.tickParseStream = .ok c ∧ b.TickOk c := by
  have hs := h.base.busy hb
  have ho := phaseOf_phase hs.2.1
  have hw := h.work hb
  have hq := h.phaseWork hb
  have hl := h.legal
  simp only [hp] at ho hq
  obtain ⟨t, ht, hot⟩ := hq
  have hn : b.textLen ≤ b.params.inCap := hs.2.2.2
  have hcap := hl.2.2.1
  simp only [Block.tickParseStream, ht]
  split
  · rename_i hu
    split
    · refine ⟨_, rfl, h.base.finish hb (.inr ⟨ho, rfl⟩) hw.2.2 ?_, b.frame_finish _ _, by simp, by simp, by simp⟩
      simp only [decodeResults]
      omega
    · exact ⟨_, rfl, .of_raise h hb (by simp [errorOf, ho]) (by simp)⟩
  · rename_i c r hu
    have hlt : b.work.inPos < b.textLen := by
      by_contra hge
      rw [Block.unread, Block.textFrom_nil (by omega)] at hu
      cases hu
    split
    · rename_i s hsym
      have hfit : b.work.outPos + [s].length ≤ b.params.outCap := by simp; omega
      have hso : b.storeOut b.work.outPos s = b.storeOuts b.work.outPos [s] := rfl
      rw [hso]
      refine ⟨_, rfl, ((h.base.storeOuts hb hfit).withWork _).inv ?_,
        (b.frame_storeOuts _ _ hfit).trans (Block.frame_withWork _ _), ?_, ?_, by simp [hb]⟩
      · rw [Block.WorkInv, if_pos (by simpa using hb)]
        have htl : ∀ w, ((b.storeOuts b.work.outPos [s]).withWork w).textLen = b.textLen :=
          fun w => by simp [Block.textLen]
        simp only [Block.withWork_work, Block.withWork_phase, Block.storeOuts_phase, hp, htl]
        refine ⟨hlt, by omega, ?_, t, rfl, by omega⟩
        intro i hi
        change ((b.storeOuts _ _).outWord? i).isSome = true
        by_cases hlt : i < b.work.outPos
        · rw [Block.outWord_storeOuts_other _ _ _ (.inl hlt)]; exact hw.2.2 i hlt
        · obtain ⟨k, rfl⟩ : ∃ k, i = b.work.outPos + k := ⟨i - b.work.outPos, by omega⟩
          rw [Block.outWord_storeOuts_same _ _ _ k (by simp; omega)]; rfl
      · intro _
        simp only [Block.ticksLeft, Block.withWork_phase, Block.storeOuts_phase, hp, Block.withWork_work,
          Block.textLen, Block.withWork_inLen, Block.storeOuts_inLen] at *
        omega
      · intro _
        simp [hp]
    · refine ⟨_, rfl, (h.base.withWork _).inv ?_, b.frame_withWork _, ?_, ?_, by simp [hb]⟩
      · rw [Block.WorkInv, if_pos (by simpa using hb)]
        simp only [Block.withWork_work, Block.withWork_phase, hp]
        exact ⟨hlt, by omega, hw.2.2, t, rfl, by omega⟩
      · intro _
        simp only [Block.ticksLeft, Block.withWork_phase, hp, Block.withWork_work]
        change b.textLen - (b.work.inPos + 1) + 1 < _
        omega
      · intro _
        simp [hp]

/-! ## Any iteration, and any number of them -/

/-- One iteration of a running operation completes, keeps the invariant and comes closer to the end. -/
theorem Block.tick_ok {b : Block} (h : b.Inv) (hb : b.state = .busy) : ∃ c, b.tick = .ok c ∧ b.TickOk c := by
  unfold Block.tick
  split
  · exact b.tickBegin_ok h hb ‹_›
  · exact ⟨_, rfl, b.tickCount_ok h hb ‹_›⟩
  · exact b.tickBuild_ok h hb ‹_›
  · exact b.tickDerive_ok h hb ‹_›
  · exact ⟨_, rfl, b.tickSerialize_ok h hb ‹_›⟩
  · exact ⟨_, rfl, b.tickEmit_ok h hb ‹_›⟩
  · exact ⟨_, rfl, b.tickAwaitHeader_ok h hb ‹_›⟩
  · exact ⟨_, rfl, b.tickParseTable_ok h hb ‹_›⟩
  · exact b.tickParseStream_ok h hb ‹_›

theorem Block.Inv.enabled {b : Block} (h : b.Inv) (hb : b.state = .busy) : b.enabled = true :=
  b.enabled_iff.mpr ⟨hb, (h.base.busy hb).1⟩

theorem Block.ticks_idle {b : Block} (n : Nat) (hb : b.state ≠ .busy) : b.ticks n = .ok b := by
  cases n with
  | zero => rfl
  | succ n => rw [Block.ticks, if_neg (by simp [Block.enabled, hb])]

/-- What any number of iterations of a running operation does. -/
theorem Block.ticks_ok {b : Block} (n : Nat) (h : b.Inv) (hb : b.state = .busy) :
    ∃ c, b.ticks n = .ok c ∧ c.Inv ∧ b.Frame c ∧ c.state ≠ .idle ∧ (c.state = .failed → c.err ≠ .illegalCommand) ∧
      (c.state = .busy → b.phase.code ≤ c.phase.code ∧ c.ticksLeft + n ≤ b.ticksLeft ∧
        (0 < n → c.phase ≠ .noPhase)) := by
  induction n generalizing b with
  | zero => exact ⟨b, rfl, h, Block.Frame.refl b, by simp [hb], by simp [hb], fun _ => ⟨BitVec.le_refl _, by omega, by simp⟩⟩
  | succ n ih =>
    rw [Block.ticks, if_pos (h.enabled hb)]
    obtain ⟨c, hc, ok⟩ := b.tick_ok h hb
    rw [hc]
    by_cases hcb : c.state = .busy
    · obtain ⟨d, hd, h1, h2, h3, h4, h5⟩ := ih ok.inv hcb
      refine ⟨d, hd, h1, ok.frame.trans h2, h3, h4, fun hdb => ?_⟩
      have := ok.left hcb
      have hph := ok.phase hcb
      obtain ⟨h6, h7, h8⟩ := h5 hdb
      refine ⟨BitVec.le_trans hph.1 h6, by omega, fun _ => ?_⟩
      rcases Nat.eq_zero_or_pos n with rfl | hn
      · cases hd; exact hph.2
      · exact h8 hn
    · exact ⟨c, Block.ticks_idle n hcb, ok.inv, ok.frame, ok.ended.1, ok.ended.2, fun hh => absurd hh hcb⟩

/-- `ticksLeft` is below the bound of 40_command R119. -/
theorem Block.ticksLeft_le {b : Block} (h : b.Inv) (hb : b.state = .busy) : b.ticksLeft < tickBound b.inLen.toNat := by
  have hw := h.work hb
  have hq := h.phaseWork hb
  unfold Block.ticksLeft tickBound
  unfold Block.textLen at *
  rcases hp : b.phase <;> simp only [hp] at hq ⊢ <;> try omega
  · have := pool_length_le b.work.pool
    omega
  · split <;> omega

/-- Once the bound is reached a running operation has ended. -/
theorem Block.ticks_end {b : Block} (n : Nat) (h : b.Inv) (hb : b.state = .busy)
    (hn : tickBound b.inLen.toNat ≤ n) : ∃ c, b.ticks n = .ok c ∧ c.Inv ∧ (c.state = .done ∨ c.state = .failed) := by
  obtain ⟨c, hc, h1, -, h3, -, h5⟩ := b.ticks_ok n h hb
  refine ⟨c, hc, h1, ?_⟩
  have := b.ticksLeft_le h hb
  rcases hst : c.state <;> simp_all
  omega

/-- Further iterations after the end change nothing. -/
theorem Block.ticks_add {b c : Block} {n : Nat} (k : Nat) (h : b.ticks n = .ok c) (hc : c.state ≠ .busy) :
    b.ticks (n + k) = .ok c := by
  induction n generalizing b with
  | zero => cases h; exact Block.ticks_idle _ hc
  | succ n ih =>
    rw [show n + 1 + k = (n + k) + 1 by omega]
    unfold Block.ticks at h ⊢
    split at h <;> rename_i he
    · rw [if_pos he]
      split at h
      · cases h
      · exact ih h
    · rw [if_neg he]
      exact h

/-! ## Where the invariant holds first -/

/-- The block right after reset, whatever its parameters (10_state R45). -/
theorem Block.initial_inv {p : Params} (h : p.Legal) : (Block.initial p).Inv := by
  refine ⟨h, ?_, ⟨fun _ => ⟨rfl, rfl, rfl, rfl, rfl⟩, ?_, ?_⟩, ⟨List.Pairwise.nil, ?_⟩, ?_⟩
  · simp [Block.StatusInv, Block.initial]
  · simp [Block.initial]
  · simp [Block.initial]
  · simp [Block.initial]
  · simp [Block.WorkInv, Block.initial]

/-- An accepted ENCODE or DECODE of a text that fits makes the block BUSY and keeps the invariant. -/
theorem Block.Inv.start {b : Block} (h : b.Inv) (hr : b.inReset = false) (hf : b.inLen.toNat ≤ b.params.inCap)
    {op : BitVec 4} (ho : op = 1 ∨ op = 2) : (b.start op).Inv ∧ (b.start op).state = .busy := by
  rw [Block.start_fits hf]
  refine ⟨⟨h.legal, ?_, ⟨fun _ => ⟨rfl, rfl, rfl, rfl, rfl⟩, by simp, by simp⟩, h.memory, ?_⟩, rfl⟩
  · simp only [Block.StatusInv, phaseOf, Bool.or_eq_true, beq_iff_eq]
    exact ⟨hr, ho, trivial, hf⟩
  · simp [Block.WorkInv, Work.empty]

end Sys2Proof.Machine
end

