-- ==== Sys2Proof/Laws/Invariant.lean ====
section
/-! SUPPORT. What the host can do to the block keeps the invariant, effect by effect. -/

namespace Sys2Proof.Machine

theorem Block.Inv.withInLen {b : Block} (h : b.Inv) (hb : b.state ≠ .busy) (v : Word) :
    ({ b with inLen := v } : Block).Inv := by
  refine ⟨h.legal, ?_, h.result, h.memory, ?_⟩
  · have := h.status
    revert this
    rcases hst : b.state <;> simp_all [Block.StatusInv]
  · have := h.working
    rw [Block.WorkInv, if_neg hb] at this
    rw [Block.WorkInv, if_neg (by simpa using hb)]
    exact this

theorem Block.Inv.storeIn {b : Block} (h : b.Inv) (hb : b.state ≠ .busy) {i : Nat} (hi : i < b.params.inCap)
    (v : Word) : (b.storeIn i v).Inv := by
  have hl := h.legal
  refine ⟨h.legal, h.status, ⟨h.result.1, h.result.2.1, fun j hj => ?_⟩,
    ⟨Memory.wf_storeWord _ _ h.memory.1, fun c hc => ?_⟩, ?_⟩
  · rw [show (b.storeIn i v).outWord? j = b.outWord? j from
      Memory.readWord_storeWord_other _ _ (by unfold outAddr inAddr outBase inBase; omega)]
    exact h.result.2.2 j hj
  · rcases Memory.mem_storeWord hc with hc | hc
    · exact .inl (by simp only [Block.storeIn_params]; unfold inAddr at hc; omega)
    · exact h.memory.2 c hc
  · have := h.working
    rw [Block.WorkInv, if_neg hb] at this
    rw [Block.WorkInv, if_neg (by simpa using hb)]
    exact this

theorem Block.Inv.illegal {b : Block} (h : b.Inv) (hr : b.inReset = false) (op : BitVec 4) : (b.illegal op).Inv := by
  refine ⟨h.legal, ?_, ⟨fun _ => ⟨rfl, rfl, rfl, rfl, rfl⟩, by simp, by simp⟩, h.memory, by simp [Block.WorkInv]⟩
  simp [Block.StatusInv, hr, errorOf]

/-- An accepted ENCODE or DECODE keeps the invariant, whether the text fits or not. -/
theorem Block.Inv.accept {b : Block} (h : b.Inv) (hr : b.inReset = false) {op : BitVec 4} (ho : op = 1 ∨ op = 2) :
    (b.start op).Inv := by
  by_cases hf : b.inLen.toNat ≤ b.params.inCap
  · exact (h.start hr hf ho).1
  · rw [Block.start_overflow (by omega)]
    refine ⟨h.legal, ?_, ⟨fun _ => ⟨rfl, rfl, rfl, rfl, rfl⟩, by simp, by simp⟩, h.memory, by simp [Block.WorkInv]⟩
    simp only [Block.StatusInv, errorOf, Bool.or_eq_true, beq_iff_eq]
    exact ⟨hr, ho⟩

theorem Block.Inv.assertReset {b : Block} (h : b.Inv) : b.assertReset.Inv := by
  refine ⟨h.legal, ?_, ⟨fun _ => ⟨rfl, rfl, rfl, rfl, rfl⟩, by simp, by simp⟩, ⟨List.Pairwise.nil, by simp⟩,
    by simp [Block.WorkInv]⟩
  simp [Block.StatusInv]

theorem Block.Inv.releaseReset {b : Block} (h : b.Inv) : b.releaseReset.Inv := by
  refine ⟨h.legal, ?_, h.result, h.memory, h.working⟩
  have := h.status
  revert this
  rcases hst : b.state <;> simp_all [Block.StatusInv]

end Sys2Proof.Machine
end

