-- ==== Sys2Proof/Laws/Outcome.lean ====
section
/-! SUPPORT. One iteration of a running operation, once more: it keeps the operation on its way to the outcome of its
function (40_command R115), phase by phase. -/

namespace Sys2Proof.Machine

/-- `F_op(t)` of the operation that runs: ENCODE has OP 1, DECODE OP 2 (40_command R115). -/
def Block.outcome (b : Block) : OpResult :=
  if b.op = 1 then fEncode b.params b.text else fDecode b.params b.text

/-- What the internal state has to do with the text, phase by phase, `pre` being the characters written to OUT. -/
def Block.Heading (b : Block) (pre : List Sym) : Prop :=
  match b.phase with
  | .noPhase => True
  | .count => b.unread.foldl bumpCount b.work.ft = frequencies b.text
  | .build => b.text ≠ [] ∧
      buildLoop b.work.pool.length b.work.pool b.work.nextSeq = buildTree (frequencies b.text)
  | .derive => b.text ≠ [] ∧ ∃ root, b.work.pool = [root] ∧ buildTree (frequencies b.text) = some root
  | .serialize => b.outcome = encodeDocument b.params b.text b.work.ct ∧
      pre ++ tableText (b.work.ct.drop b.work.entryPos) = tableText b.work.ct
  | .emit => b.outcome = encodeDocument b.params b.text b.work.ct ∧
      ¬ b.params.outCap < (tableText b.work.ct).length ∧
      pre ++ bitchars (bitstream b.work.ct b.unread) =
        tableText b.work.ct ++ bitchars (bitstream b.work.ct b.text)
  | .awaitHeader =>
      match b.work.tableEnd with
      | none => ∃ fuel, b.unread.length ≤ fuel ∧
          validate b.text =
            match scanTable fuel b.unread with
            | none => none
            | some (es, stream) => if streamOk stream then some (b.work.entries ++ es, stream) else none
      | some _ => validate b.text = if streamOk b.unread then some (b.work.entries, b.unread) else none
  | .parseTable => validate b.text = some (b.work.entries, b.unread) ∧
      parseTable b.params b.work.rct (b.work.entries.drop b.work.entryPos) = parseTable b.params [] b.work.entries
  | .parseStream => ∃ t, b.work.tableEnd = some t ∧ validate b.text = some (b.work.entries, b.textFrom t) ∧
      parseTable b.params [] b.work.entries = .ok b.work.rct ∧
      walkStream b.work.rct [] ((b.textFrom t).map charbit) =
        (pre ++ (walkStream b.work.rct b.work.acc (b.unread.map charbit)).1,
          (walkStream b.work.rct b.work.acc (b.unread.map charbit)).2)

/-- `b` is a state of the operation that `b0` started: the frame holds, OUT holds `pre` up to the OUT cursor and is
otherwise as before, and the internal state is what the phase needs. -/
structure Block.Runs (b0 b : Block) : Prop where
  inv : b.Inv
  busy : b.state = .busy
  frame : b0.Frame b
  bytes : ∀ a, a < outBase ∨ outAddr b.work.outPos ≤ a → b.mem.read? a = b0.mem.read? a
  out : ∃ pre : List Sym, pre.length = b.work.outPos ∧
    (∀ i (h : i < pre.length), b.outWord? i = some (wordOfSym pre[i])) ∧ b.Heading pre

/-- The operation goes on, or has ended with the outcome of its function. -/
abbrev Block.Goes (b0 c : Block) : Prop := b0.Runs c ∨ b0.EndsAs c b0.outcome

theorem Block.Runs.text {b0 b : Block} (h : b0.Runs b) : b.text = b0.text := by
  have hn := (h.inv.base.busy h.busy).2.2.2
  rw [h.frame.params, h.frame.inLen] at hn
  exact h.frame.textFrom (h.frame.params ▸ h.inv.legal) hn 0

theorem Block.Runs.outcome {b0 b : Block} (h : b0.Runs b) : b.outcome = b0.outcome := by
  unfold Block.outcome
  rw [h.text, h.frame.op, h.frame.params]

/-- A state with other internal state but the same OUT cursor runs on. -/
theorem Block.Runs.goOn {b0 b c : Block} (h : b0.Runs b) (ok : b.TickOk c) (hc : c.state = .busy)
    (hm : c.mem = b.mem) (ho : c.work.outPos = b.work.outPos)
    (hh : ∀ pre : List Sym, pre.length = b.work.outPos → b.Heading pre → c.Heading pre) : b0.Runs c := by
  obtain ⟨pre, h1, h2, h3⟩ := h.out
  refine ⟨ok.inv, hc, h.frame.trans ok.frame, fun a ha => ?_, pre, by rw [ho, h1], fun i hi => ?_, hh pre h1 h3⟩
  · rw [hm]; exact h.bytes a (by rwa [← ho])
  · rw [← h2 i hi]; unfold Block.outWord?; rw [hm]

/-- A failure with the error of the function is the end. -/
theorem Block.Runs.fails {b0 b : Block} (h : b0.Runs b) {e : ErrCode} {p : Phase} (he : b.outcome = .err e p) :
    b0.Goes (b.raise e p) := by
  right
  rw [← h.outcome, he]
  have hz := h.inv.result.1 (by rw [h.busy]; decide)
  refine ⟨h.frame.params, h.frame.inReset, h.frame.epoch, h.frame.op, h.frame.inLen, rfl, rfl, rfl, rfl, hz, ?_⟩
  intro a ha
  exact h.frame.bytes a (by simpa [h.frame.params] using ha)

/-- `finish` with the output of the function is the end. -/
theorem Block.Runs.finishes {b0 b : Block} (h : b0.Runs b) {out : List Sym} {r : Results} {p : Phase}
    (he : b.outcome = .ok out r p) (hr : r.outLen = out.length) (hcap : out.length ≤ b.params.outCap)
    (hpos : b.work.outPos = out.length)
    (hout : ∀ i (hi : i < out.length), b.outWord? i = some (wordOfSym out[i])) : b0.Goes (b.finish r p) := by
  right
  rw [← h.outcome, he]
  refine ⟨h.frame.params, h.frame.inReset, h.frame.epoch, h.frame.op, h.frame.inLen, rfl, rfl, rfl,
    (h.inv.base.busy h.busy).2.2.1, rfl, rfl, rfl, rfl, rfl, hr, hcap, hout, ?_⟩
  intro a ha
  exact h.bytes a (by rwa [hpos])

theorem Block.Runs.op {b0 b : Block} (h : b0.Runs b) :
    match (generalizing := false) b.phase with
    | .noPhase => b.op = 1 ∨ b.op = 2
    | .count | .build | .derive | .serialize | .emit => b.op = 1
    | .awaitHeader | .parseTable | .parseStream => b.op = 2 :=
  phaseOf_phase (h.inv.base.busy h.busy).2.1

theorem Block.outcome_encode {b : Block} (h : b.op = 1) : b.outcome = fEncode b.params b.text := if_pos h

theorem Block.outcome_decode {b : Block} (h : b.op = 2) : b.outcome = fDecode b.params b.text :=
  if_neg (by rw [h]; decide)

/-! ## Phase by phase -/

theorem Block.tickBegin_runs {b0 b : Block} (h : b0.Runs b) (hp : b.phase = .noPhase) :
    ∃ c, b.tickBegin = .ok c ∧ b0.Goes c := by
  obtain ⟨c, hc, ok⟩ := b.tickBegin_ok h.inv h.busy hp
  refine ⟨c, hc, .inl ?_⟩
  have hw := h.inv.phaseWork h.busy
  simp only [hp] at hw
  unfold Block.tickBegin at hc
  split at hc
  · cases hc
    refine h.goOn ok (by simpa using h.busy) rfl (by simp [hw]) fun pre h1 _ => ?_
    rfl
  · split at hc
    · cases hc
      refine h.goOn ok (by simpa using h.busy) rfl (by simp [hw]) fun pre h1 _ => ?_
      refine ⟨b.text.length, by simp [Block.unread, Block.textFrom, Block.text, Block.textLen], ?_⟩
      change validate b.text = match scanTable b.text.length b.text with
        | none => none
        | some (es, stream) => if streamOk stream then some ([] ++ es, stream) else none
      simp only [List.nil_append]
      rfl
    · cases hc

theorem Block.tickCount_runs {b0 b : Block} (h : b0.Runs b) (hp : b.phase = .count) : b0.Goes b.tickCount := by
  have ok := b.tickCount_ok h.inv h.busy hp
  have hw := h.inv.work h.busy
  have hop := h.op
  simp only [hp] at hop
  unfold Block.tickCount at ok ⊢
  split at ok <;> rename_i hn
  · rw [if_pos hn]
    have ht : b.text = [] := List.length_eq_zero_iff.mp (by simpa using hn)
    exact h.fails (by rw [Block.outcome_encode hop, fEncode, if_pos ht])
  rw [if_neg hn]
  have hbusy := h.busy
  split at ok <;> rename_i hu
  · rename_i s r
    left
    refine h.goOn ok (by simpa using h.busy) rfl rfl fun pre _ hh => ?_
    simp only [Block.Heading, hp, Block.withWork_phase, Block.withWork_work] at hh ⊢
    have hlt : b.work.inPos < b.textLen := by
      by_contra hge
      rw [Block.unread, Block.textFrom_nil (by omega)] at hu
      cases hu
    have hr : b.textFrom (b.work.inPos + 1) = r := by
      rw [Block.unread, Block.textFrom_cons hlt] at hu
      exact (List.cons.inj hu).2
    rw [hu, List.foldl_cons] at hh
    rw [← hr] at hh
    exact hh
  · left
    refine h.goOn ok (by simpa using h.busy) rfl rfl fun pre _ hh => ?_
    simp only [Block.Heading, hp, Block.enter_phase, Block.enter_work] at hh ⊢
    rw [hu, List.foldl_nil] at hh
    refine ⟨?_, ?_⟩
    · intro ht
      have : b.text = [] := ht
      have := b.text_length ▸ congrArg List.length this
      exact hn this
    · change _ = buildTree (frequencies b.text)
      rw [← hh, buildTree, leavesFrom_length]

theorem Block.tickBuild_runs {b0 b : Block} (h : b0.Runs b) (hp : b.phase = .build) :
    ∃ c, b.tickBuild = .ok c ∧ b0.Goes c := by
  obtain ⟨c, hc, ok⟩ := b.tickBuild_ok h.inv h.busy hp
  refine ⟨c, hc, .inl ?_⟩
  have hq := h.inv.phaseWork h.busy
  simp only [hp] at hq
  unfold Block.tickBuild at hc
  split at hc
  · cases hc
  · rename_i x h0
    cases hc
    refine h.goOn ok (by simpa using h.busy) rfl rfl fun pre _ hh => ?_
    simp only [Block.Heading, hp, Block.enter_phase, Block.enter_work] at hh ⊢
    exact ⟨hh.1, x, h0, by
      have := hh.2
      rw [h0] at this
      exact this.symm⟩
  · rename_i h0 h1
    cases hc
    refine h.goOn ok (by simpa using h.busy) rfl rfl fun pre _ hh => ?_
    simp only [Block.Heading, hp, Block.withWork_phase, Block.withWork_work] at hh ⊢
    refine ⟨hh.1, Eq.trans ?_ hh.2⟩
    have h2 : 2 ≤ b.work.pool.length := by
      rcases hpool : b.work.pool with _ | ⟨x, _ | ⟨y, r⟩⟩
      · exact absurd hpool h0
      · exact absurd hpool (h1 x)
      · simp
    have hl := mergeLeast_length b.work.nextSeq h2
    rw [← hl]
    rcases hpool : b.work.pool with _ | ⟨x, _ | ⟨y, r⟩⟩
    · exact absurd hpool h0
    · exact absurd hpool (h1 x)
    · rfl

theorem Block.tickDerive_runs {b0 b : Block} (h : b0.Runs b) (hp : b.phase = .derive) :
    ∃ c, b.tickDerive = .ok c ∧ b0.Goes c := by
  obtain ⟨c, hc, ok⟩ := b.tickDerive_ok h.inv h.busy hp
  refine ⟨c, hc, ?_⟩
  have hq := h.inv.phaseWork h.busy
  have hop := h.op
  obtain ⟨pre, -, -, hh⟩ := h.out
  simp only [hp, Block.Heading] at hq hop hh
  obtain ⟨ht, root, hr, hb⟩ := hh
  have hf : b.outcome = if codeTooLong b.params (codeTable root) then .err .capacity .derive
      else encodeDocument b.params b.text (codeTable root) := by
    rw [Block.outcome_encode hop, fEncode, if_neg ht]
    simp only [hb]
  simp only [Block.tickDerive, hr] at hc
  split at hc <;> rename_i hl <;> cases hc
  · exact h.fails (by rw [hf, if_pos hl])
  · left
    refine h.goOn ok (by simpa using h.busy) rfl hq.2.2.1.symm fun pre h1 _ => ?_
    simp only [Block.Heading, Block.enter_phase, Block.enter_work]
    refine ⟨by rw [if_neg hl] at hf; exact hf, ?_⟩
    have : pre = [] := List.length_eq_zero_iff.mp (h1.trans hq.2.2.1)
    simp [this]

/-- Writing the next characters of the output. -/
theorem Block.Runs.writes {b0 b : Block} (h : b0.Runs b) {cs : List Sym} {w : Work}
    (ok : b.TickOk ((b.storeOuts b.work.outPos cs).withWork w)) (hw : w.outPos = b.work.outPos + cs.length)
    (hh : ∀ pre : List Sym, pre.length = b.work.outPos → b.Heading pre →
      ((b.storeOuts b.work.outPos cs).withWork w).Heading (pre ++ cs)) :
    b0.Goes ((b.storeOuts b.work.outPos cs).withWork w) := by
  obtain ⟨pre, h1, h2, h3⟩ := h.out
  refine .inl ⟨ok.inv, by simpa using h.busy, h.frame.trans ok.frame, fun a ha => ?_, pre ++ cs, ?_, fun i hi => ?_,
    hh pre h1 h3⟩
  · simp only [Block.withWork_work, hw] at ha
    change (b.storeOuts _ _).mem.read? a = _
    rw [Block.read_storeOuts_other _ _ _ (by unfold outAddr outBase at *; omega)]
    exact h.bytes a (by unfold outAddr outBase at *; omega)
  · simp [hw, h1]
  · change (b.storeOuts _ _).outWord? i = _
    by_cases hlt : i < b.work.outPos
    · rw [Block.outWord_storeOuts_other _ _ _ (.inl hlt), h2 i (by omega)]
      congr 2
      rw [List.getElem_append_left]
    · obtain ⟨k, rfl⟩ : ∃ k, i = b.work.outPos + k := ⟨i - b.work.outPos, by omega⟩
      have hk : k < cs.length := by simp [h1] at hi; omega
      rw [Block.outWord_storeOuts_same _ _ _ k hk]
      congr 2
      rw [List.getElem_append_right (by omega)]
      congr 1
      omega

theorem Block.Runs.fits {b0 b : Block} (h : b0.Runs b) : b.inLen.toNat ≤ b.params.inCap :=
  (h.inv.base.busy h.busy).2.2.2

theorem Block.tickSerialize_runs {b0 b : Block} (h : b0.Runs b) (hp : b.phase = .serialize) :
    b0.Goes b.tickSerialize := by
  have ok := b.tickSerialize_ok h.inv h.busy hp
  obtain ⟨pre, h1, -, hh⟩ := h.out
  have hw := h.inv.work h.busy
  simp only [hp, Block.Heading] at hh
  unfold Block.tickSerialize at ok ⊢
  by_cases hcap : b.params.outCap < (tableText b.work.ct).length
  · rw [if_pos hcap]
    exact h.fails (by rw [hh.1, encodeDocument, if_pos hcap])
  rw [if_neg hcap] at ok ⊢
  split at ok <;> rename_i hd
  · left
    refine h.goOn ok (by simpa using h.busy) rfl rfl fun pre _ hh => ?_
    simp only [Block.Heading, hp, hd, Block.enter_phase, Block.enter_work] at hh ⊢
    refine ⟨hh.1, hcap, ?_⟩
    have := hh.2
    simp only [tableText, List.append_nil] at this
    rw [this]
    rfl
  · rename_i e r
    obtain ⟨hd1, -⟩ := tableText_drop hd
    refine h.writes ok rfl fun pre _ hh => ?_
    have hf := ok.frame
    have htx := hf.textFrom h.inv.legal h.fits 0
    simp only [Block.Heading, hp, Block.withWork_phase, Block.storeOuts_phase, Block.withWork_work] at hh ⊢
    refine ⟨?_, ?_⟩
    · have : ∀ c : Block, c.op = b.op → c.params = b.params → c.text = b.text → c.outcome = b.outcome := by
        intro c h1 h2 h3
        unfold Block.outcome; rw [h1, h2, h3]
      rw [this _ hf.op hf.params htx, hh.1, hf.params]
      congr 1
      exact htx.symm
    · rw [List.append_assoc, ← hh.2, hd1, hd]
      rfl

theorem Block.tickEmit_runs {b0 b : Block} (h : b0.Runs b) (hp : b.phase = .emit) : b0.Goes b.tickEmit := by
  have ok := b.tickEmit_ok h.inv h.busy hp
  obtain ⟨pre, h1, h2, hh⟩ := h.out
  have hw := h.inv.work h.busy
  simp only [hp, Block.Heading] at hh
  unfold Block.tickEmit at ok ⊢
  by_cases hcap : b.params.outCap < (tableText b.work.ct).length + (bitstream b.work.ct b.text).length
  · rw [if_pos hcap]
    exact h.fails (by rw [hh.1, encodeDocument, if_neg hh.2.1, if_pos hcap])
  rw [if_neg hcap] at ok ⊢
  split at ok <;> rename_i hu
  · rw [hu] at hh
    simp only [bitstream_nil, bitchars, List.map_nil, List.append_nil] at hh
    have hlen := congrArg List.length hh.2.2
    simp only [List.length_append, List.length_map] at hlen
    refine h.finishes (out := tableText b.work.ct ++ bitchars (bitstream b.work.ct b.text)) ?_ ?_ ?_ ?_ ?_
    · rw [hh.1, encodeDocument, if_neg hh.2.1, if_neg hcap]
    · simp [encodeResults]
    · simp; omega
    · simp; omega
    · intro i hi
      rw [h2 i (by simpa [hlen] using hi)]
      congr 2
      exact List.getElem_of_eq hh.2.2 _
  · rename_i s r
    have hlt : b.work.inPos < b.textLen := by
      by_contra hge
      rw [Block.unread, Block.textFrom_nil (by omega)] at hu
      cases hu
    have hr : b.textFrom (b.work.inPos + 1) = r := by
      rw [Block.unread, Block.textFrom_cons hlt] at hu
      exact (List.cons.inj hu).2
    refine h.writes ok (by simp) fun pre _ hh => ?_
    have hf := ok.frame
    have htx := hf.textFrom h.inv.legal h.fits
    simp only [Block.Heading, hp, Block.withWork_phase, Block.storeOuts_phase, Block.withWork_work] at hh ⊢
    have hot : ∀ c : Block, c.op = b.op → c.params = b.params → c.text = b.text → c.outcome = b.outcome := by
      intro c h1 h2 h3
      unfold Block.outcome; rw [h1, h2, h3]
    refine ⟨?_, ?_, ?_⟩
    · rw [hot _ hf.op hf.params (htx 0), hh.1, hf.params]
      congr 1
      exact (htx 0).symm
    · rw [hf.params]; exact hh.2.1
    · have h3 := hh.2.2
      rw [hu, bitstream_cons, bitchars_append, ← List.append_assoc] at h3
      have ht0 := htx 0
      simp only [Block.unread, Block.text, Block.withWork_work] at *
      rw [htx, hr, ht0, h3]

/-! ### DECODE -/

theorem Block.tickAwaitHeader_runs {b0 b : Block} (h : b0.Runs b) (hp : b.phase = .awaitHeader) :
    b0.Goes b.tickAwaitHeader := by
  have ok := b.tickAwaitHeader_ok h.inv h.busy hp
  obtain ⟨pre, -, -, hh⟩ := h.out
  have hop := h.op
  have hw := h.inv.work h.busy
  have hq := h.inv.phaseWork h.busy
  simp only [hp, Block.Heading] at hh hop hq
  have hfail : validate b.text = none → b0.Goes (b.raise .invalidFormat .awaitHeader) := fun hv =>
    h.fails (by rw [Block.outcome_decode hop, fDecode, hv])
  unfold Block.tickAwaitHeader at ok ⊢
  split at ok <;> rename_i ht
  · simp only [ht] at hh
    obtain ⟨fuel, hfu, hv⟩ := hh
    split at ok <;> rename_i hs
    · exact hfail (by rw [hv]; cases fuel <;> simp [scanTable, hs])
    · rename_i e last rest
      have hlen := scanEntry_length hs
      have hdrop : b.textFrom (b.textLen - rest.length) = rest := by
        obtain ⟨-, hd⟩ := scanEntry_sound hs
        have h3 := b.textFrom_add b.work.inPos (entryText e last).length
        change _ = b.unread.drop _ at h3
        have h4 := congrArg List.length hd
        rw [Block.unread, Block.textFrom_length, List.length_append] at h4
        rw [hd, List.drop_left] at h3
        rw [show b.textLen - rest.length = b.work.inPos + (entryText e last).length by omega, h3]
      obtain ⟨fuel, rfl⟩ : ∃ k, fuel = k + 1 := ⟨fuel - 1, by omega⟩
      left
      refine h.goOn ok (by simpa using h.busy) rfl rfl fun pre _ _ => ?_
      simp only [Block.Heading, hp, Block.withWork_phase, Block.withWork_work, scanTable, hs] at hv ⊢
      cases last
      · refine ⟨fuel, ?_, ?_⟩
        · change (b.textFrom (b.textLen - rest.length)).length ≤ fuel
          rw [hdrop]; omega
        · change validate b.text = match scanTable fuel (b.textFrom (b.textLen - rest.length)) with
            | none => none
            | some (es, stream) => if streamOk stream then some ((b.work.entries ++ [e]) ++ es, stream) else none
          rw [hdrop, hv]
          rcases hst : scanTable fuel rest with _ | ⟨es, stream⟩
          · simp only [hst]
          · simp [hst, List.append_assoc]
      · change validate b.text = if streamOk (b.textFrom (b.textLen - rest.length)) then
          some (b.work.entries ++ [e], b.textFrom (b.textLen - rest.length)) else none
        rw [hdrop, hv]
  · simp only [ht] at hh
    split at ok <;> rename_i hs
    · rw [if_pos hs] at hh ⊢
      left
      refine h.goOn ok (by simpa using h.busy) rfl rfl fun pre _ _ => ?_
      simp only [Block.Heading, Block.enter_phase, Block.enter_work]
      exact ⟨hh, rfl⟩
    · rw [if_neg hs] at hh ⊢
      exact hfail hh

theorem Block.tickParseTable_runs {b0 b : Block} (h : b0.Runs b) (hp : b.phase = .parseTable) :
    b0.Goes b.tickParseTable := by
  have ok := b.tickParseTable_ok h.inv h.busy hp
  obtain ⟨pre, -, -, hv, hpt⟩ : ∃ pre : List Sym, pre.length = b.work.outPos ∧ _ ∧
      validate b.text = some (b.work.entries, b.unread) ∧
      parseTable b.params b.work.rct (b.work.entries.drop b.work.entryPos) =
        parseTable b.params [] b.work.entries := by
    simpa only [hp, Block.Heading] using h.out
  have hop := h.op
  have hq := h.inv.phaseWork h.busy
  simp only [hp] at hop hq
  unfold Block.tickParseTable at ok ⊢
  split at ok <;> rename_i hd
  · left
    rw [hd] at hpt
    refine h.goOn ok (by simpa using h.busy) rfl hq.1.symm fun pre h1 _ => ?_
    simp only [Block.Heading, Block.enter_phase, Block.enter_work]
    refine ⟨b.work.inPos, hq.2, hv, hpt.symm, ?_⟩
    have : pre = [] := List.length_eq_zero_iff.mp (h1.trans hq.1)
    rw [this]
    rfl
  · rename_i e r
    have hd1 : b.work.entries.drop (b.work.entryPos + 1) = r := by rw [← List.drop_drop, hd]; rfl
    rw [hd, parseTable] at hpt
    split at ok <;> rename_i ha
    · rw [ha] at hpt
      exact h.fails (by rw [Block.outcome_decode hop, fDecode, hv]; simp only [← hpt])
    · rw [ha] at hpt
      left
      refine h.goOn ok (by simpa using h.busy) rfl rfl fun pre _ _ => ?_
      simp only [Block.Heading, hp, Block.withWork_phase, Block.withWork_work]
      exact ⟨hv, by rw [hd1]; exact hpt⟩

theorem Block.tickParseStream_runs {b0 b : Block} (h : b0.Runs b) (hp : b.phase = .parseStream) :
    ∃ c, b.tickParseStream = .ok c ∧ b0.Goes c := by
  obtain ⟨c, hc, ok⟩ := b.tickParseStream_ok h.inv h.busy hp
  refine ⟨c, hc, ?_⟩
  obtain ⟨pre, h1, h2, t, ht, hv, hpt, hwalk⟩ : ∃ pre : List Sym, pre.length = b.work.outPos ∧
      (∀ i (h : i < pre.length), b.outWord? i = some (wordOfSym pre[i])) ∧
      ∃ t, b.work.tableEnd = some t ∧ validate b.text = some (b.work.entries, b.textFrom t) ∧
        parseTable b.params [] b.work.entries = .ok b.work.rct ∧
        walkStream b.work.rct [] ((b.textFrom t).map charbit) =
          (pre ++ (walkStream b.work.rct b.work.acc (b.unread.map charbit)).1,
            (walkStream b.work.rct b.work.acc (b.unread.map charbit)).2) := by
    simpa only [hp, Block.Heading] using h.out
  have hop := h.op
  have hw := h.inv.work h.busy
  have hq := h.inv.phaseWork h.busy
  have hl := h.inv.legal
  simp only [hp] at hop hq
  obtain ⟨t', ht', hle⟩ := hq
  obtain rfl : t' = t := by rw [ht] at ht'; cases ht'; rfl
  have hcap := hl.2.2.1
  have hn : b.textLen ≤ b.params.inCap := h.fits
  have hdec : b.outcome = if (walkStream b.work.rct [] ((b.textFrom t').map charbit)).2 = [] then
        .ok (walkStream b.work.rct [] ((b.textFrom t').map charbit)).1
          (decodeResults b.text.length (b.textFrom t').length
            (walkStream b.work.rct [] ((b.textFrom t').map charbit)).1.length b.work.entries.length) .parseStream
      else .err .truncatedStream .parseStream := by
    rw [Block.outcome_decode hop, fDecode]
    simp only [hv, hpt]
  simp only [Block.tickParseStream, ht] at hc
  have hbit : ∀ pre s r, (b.storeOut b.work.outPos s) = b.storeOuts b.work.outPos [s] ∧ pre ++ s :: r = (pre ++ [s]) ++ r :=
    fun pre s r => ⟨rfl, by simp⟩
  split at hc <;> rename_i hu
  · rw [hwalk, hu] at hdec
    simp only [List.map_nil, walkStream, List.append_nil] at hdec
    split at hc <;> rename_i hacc <;> cases hc
    · rw [if_pos hacc] at hdec
      rw [← h1]
      refine h.finishes (out := pre) (hdec.trans ?_) rfl (by omega) h1.symm h2
      rw [Block.text_length, Block.textFrom_length]
    · exact h.fails (by rw [hdec, if_neg hacc])
  · rename_i ch r
    have hlt : b.work.inPos < b.textLen := by
      by_contra hge
      rw [Block.unread, Block.textFrom_nil (by omega)] at hu
      cases hu
    have hr : b.textFrom (b.work.inPos + 1) = r := by
      rw [Block.unread, Block.textFrom_cons hlt] at hu
      exact (List.cons.inj hu).2
    split at hc <;> rename_i hsym
    · rename_i s
      rw [(hbit [] s []).1] at hc
      cases hc
      refine h.writes ok rfl fun pre _ hh => ?_
      have hf := ok.frame
      have htx := hf.textFrom hl h.fits
      simp only [Block.Heading, hp, Block.withWork_phase, Block.storeOuts_phase, Block.withWork_work] at hh ⊢
      obtain ⟨t, ht2, -, -, hwk⟩ := hh
      obtain rfl : t = t' := by rw [ht] at ht2; cases ht2; rfl
      refine ⟨t, rfl, ?_, by rw [hf.params]; exact hpt, ?_⟩
      · simp only [Block.text] at *
        rw [htx, htx]; exact hv
      · rw [hu] at hwk
        simp only [List.map_cons, walkStream, hsym] at hwk
        simp only [Block.unread, Block.withWork_work]
        rw [htx, htx, hr, hwk]
        simp
    · cases hc
      left
      refine h.goOn ok (by simpa using h.busy) rfl rfl fun pre _ hh => ?_
      simp only [Block.Heading, hp, Block.withWork_phase, Block.withWork_work] at hh ⊢
      obtain ⟨t, ht2, -, -, hwk⟩ := hh
      refine ⟨t, ht.symm.trans ht2, ?_, hpt, ?_⟩
      · obtain rfl : t = t' := by rw [ht] at ht2; cases ht2; rfl
        exact hv
      · rw [hu] at hwk
        simp only [List.map_cons, walkStream, hsym] at hwk
        refine hwk.trans ?_
        change _ = (pre ++ (walkStream b.work.rct (b.work.acc ++ [charbit ch])
          ((b.textFrom (b.work.inPos + 1)).map charbit)).1, _)
        rw [hr]
        change _ = (_, (walkStream b.work.rct (b.work.acc ++ [charbit ch])
          ((b.textFrom (b.work.inPos + 1)).map charbit)).2)
        rw [hr]

/-! ## Any iteration, and the whole operation -/

/-- One iteration keeps the operation on its way to the outcome of its function, or ends it with that outcome. -/
theorem Block.tick_runs {b0 b : Block} (h : b0.Runs b) : ∃ c, b.tick = .ok c ∧ b0.Goes c := by
  unfold Block.tick
  split
  · exact Block.tickBegin_runs h ‹_›
  · exact ⟨_, rfl, Block.tickCount_runs h ‹_›⟩
  · exact Block.tickBuild_runs h ‹_›
  · exact Block.tickDerive_runs h ‹_›
  · exact ⟨_, rfl, Block.tickSerialize_runs h ‹_›⟩
  · exact ⟨_, rfl, Block.tickEmit_runs h ‹_›⟩
  · exact ⟨_, rfl, Block.tickAwaitHeader_runs h ‹_›⟩
  · exact ⟨_, rfl, Block.tickParseTable_runs h ‹_›⟩
  · exact Block.tickParseStream_runs h ‹_›

/-- The end of an operation is not BUSY. -/
theorem Block.EndsAs.ended {b0 c : Block} {r : OpResult} (h : b0.EndsAs c r) : c.state = .done ∨ c.state = .failed := by
  cases r with
  | ok out res last => exact .inl h.2.2.2.2.2.2.1
  | err code phase => exact .inr h.2.2.2.2.2.2.1

/-- Any number of iterations. -/
theorem Block.ticks_runs {b0 b : Block} (n : Nat) (h : b0.Runs b) : ∃ c, b.ticks n = .ok c ∧ b0.Goes c := by
  induction n generalizing b with
  | zero => exact ⟨b, rfl, .inl h⟩
  | succ n ih =>
    rw [Block.ticks, if_pos (h.inv.enabled h.busy)]
    obtain ⟨c, hc, hg⟩ := Block.tick_runs h
    rw [hc]
    rcases hg with hg | hg
    · exact ih hg
    · exact ⟨c, Block.ticks_idle n (by rcases hg.ended with h | h <;> simp [h]), .inr hg⟩

/-- An accepted ENCODE or DECODE of a text that fits is on its way. -/
theorem Block.start_runs {b : Block} (h : b.Inv) (hr : b.inReset = false) (hf : b.inLen.toNat ≤ b.params.inCap)
    {op : BitVec 4} (ho : op = 1 ∨ op = 2) : (b.start op).Runs (b.start op) := by
  obtain ⟨h1, h2⟩ := h.start hr hf ho
  refine ⟨h1, h2, Block.Frame.refl _, fun _ _ => rfl, [], by simp [Work.empty], by simp, ?_⟩
  rw [Block.start_fits hf]
  exact trivial

end Sys2Proof.Machine
end

