-- ==== Sys2Proof/Laws/PerInstr.lean ====
section
/-! SUPPORT. The statements made per instruction, one lemma per constructor of `Instr`. -/

namespace Sys2Proof.Laws.Fields

/-- The two fields of an instruction's word are the ones its row of spec/opcode_table.json gives it, and RSVD is 0 in
every row but ILLEGAL_RSVD (30_encoding R81, R82). -/
def Statement (i : Instr) : Prop :=
  opField (encode i) = i.op ∧ rsvdField (encode i) = i.rsvd ∧
    (i.wf = true → (rsvdField (encode i) = 0 ↔ ∀ r o, i ≠ .illegalRsvd r o))

theorem nop : Statement .nop := ⟨opField_encode _, rsvdField_encode _, fun _ => by simp [rsvdField_encode, Instr.rsvd]⟩

theorem encode : Statement .encode :=
  ⟨opField_encode _, rsvdField_encode _, fun _ => by simp [rsvdField_encode, Instr.rsvd]⟩

theorem decode : Statement .decode :=
  ⟨opField_encode _, rsvdField_encode _, fun _ => by simp [rsvdField_encode, Instr.rsvd]⟩

theorem illegalOp3 : Statement .illegalOp3 :=
  ⟨opField_encode _, rsvdField_encode _, fun _ => by simp [rsvdField_encode, Instr.rsvd]⟩

theorem illegalOp4to7 (o : BitVec 2) : Statement (.illegalOp4to7 o) :=
  ⟨opField_encode _, rsvdField_encode _, fun _ => by simp [rsvdField_encode, Instr.rsvd]⟩

theorem illegalOp8toF (o : BitVec 3) : Statement (.illegalOp8toF o) :=
  ⟨opField_encode _, rsvdField_encode _, fun _ => by simp [rsvdField_encode, Instr.rsvd]⟩

theorem illegalRsvd (rsvd : BitVec 28) (op : BitVec 4) : Statement (.illegalRsvd rsvd op) :=
  ⟨opField_encode _, rsvdField_encode _, fun h => by
    simp [rsvdField_encode, Instr.rsvd]
    simpa [Instr.wf] using h⟩

end Sys2Proof.Laws.Fields
end

