-- ==== Sys2Proof/Laws/Step.lean ====
section
/-! SUPPORT. What a step of the machine can do, once: a block step, a host step, or nothing. -/

namespace Sys2Proof.Machine

/-- A block step changes the block alone. -/
theorem blockStep_next {extra : Nat} {s t : State} (h : blockStep extra s = .next t) :
    s.block.ticks (extra + 1) = .ok t.block ∧ t = { s with block := t.block } := by
  unfold blockStep at h
  split at h
  · cases h
  · rename_i h1
    cases h
    exact ⟨h1, rfl⟩

theorem blockStep_not_refused {extra : Nat} {s : State} {r : Refusal} : blockStep extra s ≠ .refused r := by
  unfold blockStep
  split <;> simp

/-- Where the host moves and has an operation, the step is that operation. -/
theorem hostMove_cons {s : State} {op : HostOp} {rest : List HostOp} (h : s.host = op :: rest) :
    hostMove s = hostStep op { s with host := rest } := by
  simp only [hostMove, h]

/-- While the block is not BUSY a step is the host's next operation. -/
theorem step_host {s : State} {op : HostOp} {rest : List HostOp} (h : s.host = op :: rest)
    (hb : s.block.state ≠ .busy) : step s = hostStep op { s with host := rest } := by
  unfold step agentStep
  rw [if_neg (by simp [Block.enabled, hb]), hostMove_cons h]

/-- The outcomes of a step are those of a block step while the block is enabled, of the host's next operation, or of
an idle machine. -/
theorem step_cases (s : State) :
    (∃ extra s', s.block.enabled = true ∧ s'.block = s.block ∧ step s = blockStep extra s') ∨
    (s.block.enabled = false ∧ s.host = [] ∧ step s = .next s) ∨
    (∃ op rest s', s.host = op :: rest ∧ s'.block = s.block ∧ s'.host = rest ∧ step s = hostStep op s') := by
  unfold step agentStep
  by_cases he : s.block.enabled = true
  · rw [if_pos he]
    split
    · unfold hostMove
      split
      · rename_i op rest hh
        exact .inr (.inr ⟨op, rest, _, by simpa using hh, by simp, rfl, rfl⟩)
      · rw [if_pos (by simpa using he)]
        exact .inl ⟨0, s.takeSlot, he, by simp, rfl⟩
    · exact .inl ⟨_, s.takeSlot, he, by simp, rfl⟩
  · rw [if_neg he]
    unfold hostMove
    split
    · rename_i op rest hh
      exact .inr (.inr ⟨op, rest, { s with host := rest }, hh, rfl, rfl, rfl⟩)
    · rename_i hh
      exact .inr (.inl ⟨by simpa using he, hh, if_neg he⟩)

end Sys2Proof.Machine
end

