-- ==== Sys2Proof/Laws/Trees.lean ====
section
/-! SUPPORT. What the pool of BUILD keeps from one combination to the next, the order in which it is combined, and the
codes of a tree as the paths to its leaves. -/

namespace Sys2Proof.Machine

/-! ## The frequency table -/

/-- The keys are in ascending order (00_scope R10). -/
abbrev Ascending {α : Type} (l : List (Sym × α)) : Prop := l.Pairwise (fun x y => x.1.toNat < y.1.toNat)

theorem toNat_ne {s u : Sym} (h : s ≠ u) : s.toNat ≠ u.toNat := fun e => h (BitVec.eq_of_toNat_eq e)

theorem bumpCount_ascending {ft : FreqTable} (s : Sym) (h : Ascending ft) :
    Ascending (bumpCount ft s) ∧ ∀ y ∈ bumpCount ft s, y.1 = s ∨ ∃ n, (y.1, n) ∈ ft := by
  induction ft with
  | nil => simp [bumpCount]
  | cons e r ih =>
    obtain ⟨k, c⟩ := e
    obtain ⟨h1, h2⟩ := List.pairwise_cons.mp h
    obtain ⟨ih1, ih2⟩ := ih h2
    unfold bumpCount
    split
    · rename_i hk
      subst hk
      refine ⟨List.pairwise_cons.mpr ⟨h1, h2⟩, ?_⟩
      rintro y (_ | ⟨_, hy⟩)
      · exact .inl rfl
      · exact .inr ⟨y.2, List.mem_cons_of_mem _ hy⟩
    · rename_i hne
      split
      · rename_i hlt
        refine ⟨List.pairwise_cons.mpr ⟨?_, h⟩, ?_⟩
        · rintro y (_ | ⟨_, hy⟩)
          · exact hlt
          · exact Nat.lt_trans hlt (h1 y hy)
        · rintro y (_ | ⟨_, hy⟩)
          · exact .inl rfl
          · exact .inr ⟨y.2, hy⟩
      · rename_i hge
        have hks : k.toNat < s.toNat := by have := toNat_ne hne; omega
        refine ⟨List.pairwise_cons.mpr ⟨?_, ih1⟩, ?_⟩
        · intro y hy
          rcases ih2 y hy with e | ⟨n, hn⟩
          · rw [e]; exact hks
          · exact h1 (y.1, n) hn
        · rintro y (_ | ⟨_, hy⟩)
          · exact .inr ⟨c, List.mem_cons_self ..⟩
          · rcases ih2 y hy with e | ⟨n, hn⟩
            · exact .inl e
            · exact .inr ⟨n, List.mem_cons_of_mem _ hn⟩

/-- The count of one symbol, 0 where it has no entry. -/
def countOf (ft : FreqTable) (s : Sym) : Nat :=
  match ft with
  | [] => 0
  | (k, c) :: r => if s = k then c else countOf r s

theorem countOf_bumpCount (ft : FreqTable) (s u : Sym) (h : Ascending ft) :
    countOf (bumpCount ft s) u = countOf ft u + if u = s then 1 else 0 := by
  induction ft with
  | nil => simp [bumpCount, countOf]
  | cons e r ih =>
    obtain ⟨k, c⟩ := e
    obtain ⟨h1, h2⟩ := List.pairwise_cons.mp h
    have absent : ∀ {l : FreqTable}, (∀ y ∈ l, y.1 ≠ s) → countOf l s = 0 := by
      intro l hl
      induction l with
      | nil => rfl
      | cons x l ih =>
        obtain ⟨k, c⟩ := x
        have := hl (k, c) (List.mem_cons_self ..)
        simp only [countOf]
        rw [if_neg (Ne.symm this)]
        exact ih fun y hy => hl y (List.mem_cons_of_mem _ hy)
    unfold bumpCount
    split
    · rename_i hk
      subst hk
      by_cases hu : u = s <;> simp [countOf, hu]
    · rename_i hne
      split
      · rename_i hlt
        by_cases hu : u = s
        · subst hu
          have h0 : countOf ((k, c) :: r) u = 0 := absent (by
            rintro y (_ | ⟨_, hy⟩)
            · exact Ne.symm hne
            · rintro rfl
              have := h1 y hy
              simp only at this
              omega)
          rw [h0]
          simp [countOf]
        · rw [countOf, if_neg hu]
          simp [hu]
      · simp only [countOf]
        by_cases hu : u = k
        · subst hu
          simp [Ne.symm hne]
        · simp [hu, ih h2]

/-- The total of all counts. -/
abbrev total (ft : FreqTable) : Nat := (ft.map Prod.snd).sum

theorem total_bumpCount (ft : FreqTable) (s : Sym) : total (bumpCount ft s) = total ft + 1 := by
  induction ft with
  | nil => simp [bumpCount, total]
  | cons e r ih =>
    unfold bumpCount
    split <;> (try split) <;> simp_all [total] <;> omega

/-- The count in an ascending table is the entry's. -/
theorem mem_iff_countOf {ft : FreqTable} (h : Ascending ft) (s : Sym) (n : Nat) :
    (s, n) ∈ ft ↔ (∃ m, (s, m) ∈ ft) ∧ n = countOf ft s := by
  induction ft with
  | nil => simp
  | cons e r ih =>
    obtain ⟨k, c⟩ := e
    obtain ⟨h1, h2⟩ := List.pairwise_cons.mp h
    have hnk : ∀ m, (k, m) ∉ r := fun m hm => Nat.lt_irrefl _ (h1 (k, m) hm)
    by_cases hs : s = k
    · subst hs
      simp [countOf, hnk]
    · simp [countOf, hs, ih h2]

/-! ## The codes of a tree -/

/-- The paths to the leaves, from left to right, each with its leaf's symbol (42_code_table_deriver R151). -/
def Node.paths (n : Node) (path : Code) : List Entry :=
  match n with
  | .leaf s _ _ => [(s, path)]
  | .internal l r _ _ => l.paths (path ++ [false]) ++ r.paths (path ++ [true])

theorem walkTree_eq_foldl (n : Node) (path : Code) (ct : CodeTable) :
    walkTree n path ct = (n.paths path).foldl (fun ct e => setCode ct e.1 e.2) ct := by
  induction n generalizing path ct with
  | leaf s w k => rfl
  | internal l r w k ihl ihr => rw [walkTree, ihl, ihr, Node.paths, List.foldl_append]

theorem paths_symbols (n : Node) (path : Code) : (n.paths path).map Prod.fst = n.leaves.map Prod.fst := by
  induction n generalizing path with
  | leaf s w k => rfl
  | internal l r w k ihl ihr => simp [Node.paths, Node.leaves, ihl, ihr]

/-- Every path goes on from where it starts, at most one step per internal node. -/
theorem paths_extend (n : Node) (path : Code) {e : Entry} (h : e ∈ n.paths path) :
    ∃ c : Code, e.2 = path ++ c ∧ c.length ≤ n.internals := by
  induction n generalizing path with
  | leaf s w k =>
    simp only [Node.paths, List.mem_singleton] at h
    subst h
    exact ⟨[], by simp, by simp [Node.internals]⟩
  | internal l r w k ihl ihr =>
    simp only [Node.paths, List.mem_append] at h
    rcases h with h | h
    · obtain ⟨c, h1, h2⟩ := ihl _ h
      exact ⟨false :: c, by simp [h1], by simp [Node.internals]; omega⟩
    · obtain ⟨c, h1, h2⟩ := ihr _ h
      exact ⟨true :: c, by simp [h1], by simp [Node.internals]; omega⟩

/-- No path is a prefix of another (42_code_table_deriver R153). -/
theorem paths_prefixFree (n : Node) (path : Code) :
    (n.paths path).Pairwise (fun e f => ¬ e.2 <+: f.2 ∧ ¬ f.2 <+: e.2) := by
  induction n generalizing path with
  | leaf s w k => simp [Node.paths]
  | internal l r w k ihl ihr =>
    refine List.pairwise_append.mpr ⟨ihl _, ihr _, fun e he f hf => ?_⟩
    obtain ⟨c, hc, -⟩ := paths_extend l _ he
    obtain ⟨d, hd, -⟩ := paths_extend r _ hf
    constructor <;> rintro ⟨x, hx⟩ <;> simp [hc, hd] at hx

/-- The code lengths satisfy Kraft's equality (42_code_table_deriver R153). -/
theorem paths_kraft (n : Node) (path : Code) :
    ((n.paths path).map (fun e => (1 / 2 : ℚ) ^ e.2.length)).sum = (1 / 2 : ℚ) ^ path.length := by
  induction n generalizing path with
  | leaf s w k => simp [Node.paths]
  | internal l r w k ihl ihr =>
    simp only [Node.paths, List.map_append, List.sum_append, ihl, ihr, List.length_append, List.length_singleton,
      pow_succ]
    ring

/-- Storing codes under new symbols adds the entries and keeps the keys ascending. -/
theorem setCode_ascending {ct : CodeTable} (s : Sym) (c : Code) (h : Ascending ct) (hs : ∀ e ∈ ct, e.1 ≠ s) :
    Ascending (setCode ct s c) ∧ (setCode ct s c).Perm ((s, c) :: ct) := by
  induction ct with
  | nil => simp [setCode]
  | cons e r ih =>
    obtain ⟨k, d⟩ := e
    obtain ⟨h1, h2⟩ := List.pairwise_cons.mp h
    obtain ⟨ih1, ih2⟩ := ih h2 fun e he => hs e (List.mem_cons_of_mem _ he)
    have hk : s ≠ k := Ne.symm (hs (k, d) (List.mem_cons_self ..))
    rw [setCode, if_neg hk]
    split
    · rename_i hlt
      refine ⟨List.pairwise_cons.mpr ⟨?_, h⟩, List.Perm.refl _⟩
      rintro y (_ | ⟨_, hy⟩)
      · exact hlt
      · exact Nat.lt_trans hlt (h1 y hy)
    · rename_i hge
      have hks : k.toNat < s.toNat := by have := toNat_ne hk; omega
      refine ⟨List.pairwise_cons.mpr ⟨?_, ih1⟩, (ih2.cons _).trans (List.Perm.swap _ _ _)⟩
      intro y hy
      rcases List.mem_cons.mp (ih2.subset hy) with rfl | hy
      · exact hks
      · exact h1 y hy

theorem foldl_setCode {es : List Entry} {ct : CodeTable} (h : Ascending ct)
    (hd : (es.map Prod.fst ++ ct.map Prod.fst).Nodup) :
    Ascending (es.foldl (fun ct e => setCode ct e.1 e.2) ct) ∧
      (es.foldl (fun ct e => setCode ct e.1 e.2) ct).Perm (es ++ ct) := by
  induction es generalizing ct with
  | nil => exact ⟨h, List.Perm.refl _⟩
  | cons e r ih =>
    simp only [List.map_cons, List.cons_append, List.nodup_cons, List.mem_append, List.mem_map] at hd
    obtain ⟨a1, a2⟩ := setCode_ascending e.1 e.2 h fun x hx hxe => hd.1 (.inr ⟨x, hx, hxe⟩)
    have hd2 : (r.map Prod.fst ++ (setCode ct e.1 e.2).map Prod.fst).Nodup := by
      refine (((a2.map Prod.fst).append_left (r.map Prod.fst)).nodup_iff).mpr ?_
      rw [List.map_cons]
      refine (List.perm_middle.nodup_iff).mpr (List.nodup_cons.mpr ⟨?_, hd.2⟩)
      simpa using hd.1
    obtain ⟨b1, b2⟩ := ih a1 hd2
    exact ⟨b1, b2.trans ((a2.append_left r).trans (List.perm_middle))⟩

/-- The code table of a tree whose leaves have distinct symbols: its paths, ascending by symbol. -/
theorem walkTree_spec {n : Node} (h : (n.leaves.map Prod.fst).Nodup) :
    Ascending (walkTree n [] []) ∧ (walkTree n [] []).Perm (n.paths []) := by
  have := foldl_setCode (es := n.paths []) (ct := []) List.Pairwise.nil (by simpa [paths_symbols] using h)
  rw [walkTree_eq_foldl]
  simpa using this

/-! ## The pool of BUILD -/

theorem seqNo_mem (n : Node) : n.seqNo ∈ n.seqNos := by cases n <;> simp [Node.seqNo, Node.seqNos]

/-- A path leads to a leaf exactly when it is listed with that leaf's symbol. -/
theorem mem_paths (n : Node) (path : Code) (s : Sym) (c : Code) :
    (s, c) ∈ n.paths path ↔ ∃ p w k, c = path ++ p ∧ n.follow p = some (.leaf s w k) := by
  induction n generalizing path with
  | leaf u w k =>
    constructor
    · intro h
      cases List.mem_singleton.mp h
      exact ⟨[], w, k, by simp, rfl⟩
    · rintro ⟨_ | ⟨_ | _, p⟩, w', k', rfl, h⟩ <;> cases h
      simp [Node.paths]
  | internal l r w k ihl ihr =>
    rw [Node.paths, List.mem_append, ihl, ihr]
    constructor
    · rintro (⟨p, w', k', rfl, h⟩ | ⟨p, w', k', rfl, h⟩)
      · exact ⟨false :: p, w', k', by simp, h⟩
      · exact ⟨true :: p, w', k', by simp, h⟩
    · rintro ⟨_ | ⟨_ | _, p⟩, w', k', rfl, h⟩
      · cases h
      · exact .inl ⟨p, w', k', by simp, h⟩
      · exact .inr ⟨p, w', k', by simp, h⟩

/-- What every combination keeps (41_tree_builder R134, R137, R138, R140): the leaves of the trees are those of the
table, numbered by its order, the weights add up, the left child has the smaller key, the nodes are distinct and numbered
below `next`, and an internal node stands for one tree fewer. -/
structure PoolOk (ft : FreqTable) (pool : List Node) (next : Nat) : Prop where
  leaves : (pool.flatMap Node.leaves).Perm ft
  weights : ∀ n ∈ pool, n.weightsAdd ∧ n.weight = total n.leaves
  order : ∀ n ∈ pool, n.leftFirst ∧ n.numbered ft
  seqs : (pool.flatMap Node.seqNos).Nodup ∧ ∀ k ∈ pool.flatMap Node.seqNos, k < next
  count : (pool.map Node.internals).sum + pool.length = ft.length

theorem PoolOk.leavesFrom (ft : FreqTable) : PoolOk ft (leavesFrom 0 ft) ft.length := by
  have key : ∀ (ft : FreqTable) (k : Nat),
      (Machine.leavesFrom k ft).flatMap Node.leaves = ft ∧
      (Machine.leavesFrom k ft).flatMap Node.seqNos = List.range' k ft.length ∧
      (∀ n ∈ Machine.leavesFrom k ft, n.weightsAdd ∧ n.weight = total n.leaves) ∧
      (∀ all : FreqTable, all.drop k = ft → ∀ n ∈ Machine.leavesFrom k ft, n.leftFirst ∧ n.numbered all) ∧
      ((Machine.leavesFrom k ft).map Node.internals).sum = 0 := by
    intro ft
    induction ft with
    | nil => intro k; simp [Machine.leavesFrom]
    | cons e r ih =>
      intro k
      obtain ⟨i1, i2, i3, i5, i4⟩ := ih (k + 1)
      refine ⟨?_, ?_, ?_, ?_, ?_⟩
      · simp [Machine.leavesFrom, Node.leaves, i1]
      · simp [Machine.leavesFrom, Node.seqNos, i2, List.range'_succ]
      · rintro n (_ | ⟨_, hn⟩)
        · simp [Node.weightsAdd, Node.weight, Node.leaves, total]
        · exact i3 n hn
      · intro all hall
        rintro n (_ | ⟨_, hn⟩)
        · refine ⟨trivial, ?_⟩
          have := List.getElem?_drop (xs := all) (i := k) (j := 0)
          rw [hall] at this
          exact this.symm
        · exact i5 all (by rw [← List.drop_drop, hall]; rfl) n hn
      · simp [Machine.leavesFrom, Node.internals, i4]
  obtain ⟨k1, k2, k3, k5, k4⟩ := key ft 0
  refine ⟨by rw [k1], k3, k5 ft rfl, ?_, by simp [k4]⟩
  rw [k2]
  exact ⟨List.nodup_range', fun k hk => by rw [List.mem_range'_1] at hk; omega⟩

theorem PoolOk.perm {ft : FreqTable} {p q : List Node} {next : Nat} (h : PoolOk ft p next) (hp : q.Perm p) :
    PoolOk ft q next :=
  ⟨(hp.flatMap_right _).trans h.leaves, fun n hn => h.weights n (hp.subset hn),
    fun n hn => h.order n (hp.subset hn),
    ⟨((hp.flatMap_right _).nodup_iff).mpr h.seqs.1, fun k hk => h.seqs.2 k ((hp.flatMap_right _).subset hk)⟩,
    by rw [(hp.map _).sum_eq, hp.length_eq]; exact h.count⟩

/-- One combination keeps the pool as it should be. -/
theorem PoolOk.merge {ft : FreqTable} {x y : Node} {rest : List Node} {next : Nat}
    (h : PoolOk ft (x :: y :: rest) next) (hxy : ¬ keyLess y x) :
    PoolOk ft (rest ++ [.internal x y (x.weight + y.weight) next]) (next + 1) := by
  refine PoolOk.perm (p := .internal x y (x.weight + y.weight) next :: rest) ⟨?_, ?_, ?_, ⟨?_, ?_⟩, ?_⟩
    (List.perm_append_singleton _ _)
  · simpa [Node.leaves, List.append_assoc] using h.leaves
  · rintro n (_ | ⟨_, hn⟩)
    · obtain ⟨a1, a2⟩ := h.weights x (by simp)
      obtain ⟨b1, b2⟩ := h.weights y (by simp)
      refine ⟨⟨rfl, a1, b1⟩, ?_⟩
      change x.weight + y.weight = total (x.leaves ++ y.leaves)
      rw [a2, b2]
      simp [total]
    · exact h.weights n (List.mem_cons_of_mem _ (List.mem_cons_of_mem _ hn))
  · rintro n (_ | ⟨_, hn⟩)
    · obtain ⟨a1, a2⟩ := h.order x (by simp)
      obtain ⟨b1, b2⟩ := h.order y (by simp)
      have hne : x.seqNo ≠ y.seqNo := by
        have h1 := h.seqs.1
        rw [List.flatMap_cons, List.nodup_append] at h1
        exact h1.2.2 _ (seqNo_mem x) _ (by simp [List.flatMap_cons, seqNo_mem y])
      exact ⟨⟨by unfold keyLess at *; omega, a1, b1⟩, a2, b2⟩
    · exact h.order n (List.mem_cons_of_mem _ (List.mem_cons_of_mem _ hn))
  · have h1 := h.seqs.1
    simp only [List.flatMap_cons, ← List.append_assoc] at h1
    simp only [List.flatMap_cons, Node.seqNos, List.cons_append, List.nodup_cons]
    refine ⟨fun hm => ?_, h1⟩
    have := h.seqs.2 next (by simpa [List.flatMap_cons, ← List.append_assoc] using hm)
    omega
  · intro k hk
    simp only [List.flatMap_cons, Node.seqNos, List.cons_append, List.mem_cons] at hk
    rcases hk with rfl | hk
    · omega
    · have := h.seqs.2 k (by simpa [List.flatMap_cons, ← List.append_assoc] using hk)
      omega
  · have := h.count
    simp only [List.map_cons, List.sum_cons, List.length_cons, Node.internals] at this ⊢
    omega

theorem PoolOk.mergeLeast {ft : FreqTable} {pool : List Node} {next : Nat} (h : PoolOk ft pool next)
    (h2 : 2 ≤ pool.length) : PoolOk ft (mergeLeast pool next) (next + 1) := by
  obtain ⟨x, y, rest, hp, hm, hmin, -⟩ := mergeLeast_spec next h2
  rw [hm]
  exact (h.perm hp).merge (hmin y (List.mem_cons_self ..))

/-- BUILD's loop ends with one tree that keeps all this. -/
theorem buildLoop_ok {ft : FreqTable} (fuel : Nat) {pool : List Node} {next : Nat} (h : PoolOk ft pool next)
    (hne : pool ≠ []) (hf : pool.length ≤ fuel + 1) :
    ∃ root k, buildLoop fuel pool next = some root ∧ PoolOk ft [root] k := by
  induction fuel generalizing pool next with
  | zero =>
    match pool, hne with
    | [x], _ => exact ⟨x, next, rfl, h⟩
    | x :: y :: r, _ => simp at hf
  | succ fuel ih =>
    match pool, hne with
    | [x], _ => exact ⟨x, next, rfl, h⟩
    | x :: y :: r, _ =>
      have h2 : 2 ≤ (x :: y :: r).length := by simp
      have hl := mergeLeast_length next h2
      have hstep : buildLoop (fuel + 1) (x :: y :: r) next =
          buildLoop fuel (Machine.mergeLeast (x :: y :: r) next) (next + 1) := rfl
      rw [hstep]
      refine ih (h.mergeLeast h2) ?_ (by simp at hf hl; omega)
      intro he
      rw [he] at hl
      simp at hl

/-- BUILD of a non-empty table answers a root whose one-node pool is as it should be. -/
theorem buildTree_ok {ft : FreqTable} (h : ft ≠ []) :
    ∃ root k, buildTree ft = some root ∧ PoolOk ft [root] k := by
  refine buildLoop_ok ft.length (PoolOk.leavesFrom ft) ?_ (by simp)
  intro he
  have := leavesFrom_length 0 ft
  rw [he] at this
  exact h (List.length_eq_zero_iff.mp this.symm)

end Sys2Proof.Machine
end

