-- ==== Sys2Proof/Tests/Slice0.lean ====
section
/-! SUPPORT. The model's own tests. Expected values are those of spec/95_test_vectors.md (named EN, DE, CM, MA, P there)
or words written out from spec/opcode_table.json. -/

namespace Sys2Proof.Tests

open Sys2Proof.Machine

/-! ## Well-formedness and decoding -/

/-- Row ILLEGAL_RSVD has the condition RSVD != 0. -/
theorem test_wf_refuses_zero_rsvd : (Instr.illegalRsvd 0 0x5).wf = false := by decide

theorem test_wf_accepts_rsvd : (Instr.illegalRsvd 1 0x5).wf = true := by decide

theorem test_decode_nop : decodeWord 0b00000000000000000000000000000000 = .nop := by decide

theorem test_decode_encode : decodeWord 0b00000000000000000000000000000001 = .encode := by decide

theorem test_decode_decode : decodeWord 0b00000000000000000000000000000010 = .decode := by decide

theorem test_decode_illegalOp3 : decodeWord 0b00000000000000000000000000000011 = .illegalOp3 := by decide

theorem test_decode_illegalOp4to7 : decodeWord 0b00000000000000000000000000000110 = .illegalOp4to7 0b10 := by decide

theorem test_decode_illegalOp8toF : decodeWord 0b00000000000000000000000000001101 = .illegalOp8toF 0b101 := by decide

theorem test_decode_illegalRsvd :
    decodeWord 0b10000000000000000000000000010001 = .illegalRsvd 0b1000000000000000000000000001 0b0001 := by decide

/-- Lane 0 is the least significant byte (20_memory R65). -/
theorem test_decode_bytes : decodeBytes [0x02, 0x00, 0x00, 0x00, 0xAA] = .ok (.decode, [0xAA]) := by decide

theorem test_decode_bytes_short : decodeBytes [0x02, 0x00, 0x00] = .error .shortWord := by decide

theorem test_decodeTableWord : decodeTableWord 32 0x80000001 = some (.illegalRsvd 0x8000000 1) := by decide

/-! ## Small states -/

/-- The block with text `t` in IN and its length in IN_LEN. -/
def loaded (p : Params) (t : List Sym) : Block :=
  { t.zipIdx.foldl (fun b x => b.storeIn x.2 (wordOfSym x.1)) (Block.initial p) with
    inLen := BitVec.ofNat 32 t.length }

/-- A machine with this block and these host operations. -/
def machine (b : Block) (ops : List HostOp) : State := { State.reset with block := b, host := ops }

/-- A machine whose block runs an operation on `t`; the next step makes up to 40 iterations. -/
def running (p : Params) (t : List Sym) (op : BitVec 4) : State :=
  { State.reset with block := (loaded p t).start op, schedule := [.block 39] }

/-- The state after one step. -/
def after (s : State) : Option State :=
  match step s with
  | .next t => some t
  | .fault _ => none
  | .refused _ => none

/-- STATUS after one step. -/
def statusAfter (s : State) : Option Word := (after s).map fun t => t.block.statusWord

/-- The five result registers after one step. -/
def resultsAfter (s : State) : Option (List Word) :=
  (after s).map fun t => [t.block.outLen, t.block.tableLen, t.block.streamLen, t.block.symCount, t.block.entries]

/-- The first `n` OUT words after one step. -/
def outAfter (n : Nat) (s : State) : Option (List (Option Word)) :=
  (after s).map fun t => (List.range n).map t.block.outWord?

/-- The response to a host access made in one step. -/
def responseTo (b : Block) (a : Access) : Option Response :=
  (after (machine b [.access a])).bind fun t => t.log.head?.map Prod.snd

/-- The parameters of the reference build. -/
abbrev ref : Params := Params.reference

/-! ## One step per command word -/

/-- CM1. -/
theorem test_nop_reset : statusAfter (State.reset.withFetchWord 32 0x0) = some 0x0000 := by decide

/-- CM3: a NOP keeps FAILED. -/
theorem test_nop_failed :
    statusAfter (machine ((Block.initial ref).illegal 2) [.access (wr 0 0)]) = some 0x2603 := by decide

/-- CM4. -/
theorem test_illegalOp3 : statusAfter (State.reset.withFetchWord 32 0x3) = some 0x3603 := by decide

theorem test_illegalOp4to7 : statusAfter (State.reset.withFetchWord 32 0x6) = some 0x6603 := by decide

/-- CM5. -/
theorem test_illegalOp8toF : statusAfter (State.reset.withFetchWord 32 0xF) = some 0xF603 := by decide

/-- CM6: OP 0 with a reserved bit is not a NOP. -/
theorem test_illegalRsvd_op0 : statusAfter (State.reset.withFetchWord 32 0x10) = some 0x0603 := by decide

/-- CM7: ENCODE with bit 31 encodes nothing. -/
theorem test_illegalRsvd_op1 : statusAfter (State.reset.withFetchWord 32 0x80000001) = some 0x1603 := by decide

/-! ## One block step per operation -/

/-- EN4: `ab` gives `a:0;b:1` LF `01`. -/
theorem test_encode_ab :
    outAfter 11 (running ref [0x61, 0x62] 1) =
      some [some 0x61, some 0x3A, some 0x30, some 0x3B, some 0x62, some 0x3A, some 0x31, some 0x0A, some 0x30,
        some 0x31, none] ∧
    resultsAfter (running ref [0x61, 0x62] 1) = some [10, 8, 2, 2, 2] ∧
    statusAfter (running ref [0x61, 0x62] 1) = some 0x1052 := by decide

/-- CM9 (IN_LEN above IN_CAP fails in the acceptance step), EN21 (an empty text), EN23, and the checks of EN25, EN26
and EN27 on a shorter text. -/
theorem test_encode_errors :
    statusAfter (machine { loaded ref [] with inLen := 0xFFFFFFFF } [.access (wr 0 1)]) = some 0x1503 ∧
    statusAfter (running ref [] 1) = some 0x1113 ∧
    statusAfter (running { ref with maxCodeLen := 1 } [0x61, 0x62, 0x63] 1) = some 0x1533 ∧
    statusAfter (running { ref with inCap := 2, outCap := 7 } [0x61, 0x62] 1) = some 0x1543 ∧
    statusAfter (running { ref with inCap := 2, outCap := 9 } [0x61, 0x62] 1) = some 0x1553 ∧
    statusAfter (running { ref with inCap := 2, outCap := 10 } [0x61, 0x62] 1) = some 0x1052 := by decide

/-- DE8: LF right after SEMI is a symbol: `a:0;` LF `:1` LF `0110` gives `a` LF LF `a`. -/
theorem test_decode_lf_symbol :
    outAfter 4 (running ref [0x61, 0x3A, 0x30, 0x3B, 0x0A, 0x3A, 0x31, 0x0A, 0x30, 0x31, 0x31, 0x30] 2) =
      some [some 0x61, some 0x0A, some 0x0A, some 0x61] ∧
    resultsAfter (running ref [0x61, 0x3A, 0x30, 0x3B, 0x0A, 0x3A, 0x31, 0x0A, 0x30, 0x31, 0x31, 0x30] 2) =
      some [4, 8, 4, 4, 2] := by decide

/-- CM10 (IN_LEN above IN_CAP), DE26 (empty bitstream), DE40 (duplicate code), DE43 (a third distinct code with
RCT_CAP 2, here a second with 1),
DE53 (truncated stream). -/
theorem test_decode_errors :
    statusAfter (machine { loaded ref [] with inLen := 0xFFFFFFFF } [.access (wr 0 2)]) = some 0x2503 ∧
    statusAfter (running ref [0x61, 0x3A, 0x30, 0x0A] 2) = some 0x2283 ∧
    statusAfter (running ref [0x61, 0x3A, 0x30, 0x3B, 0x62, 0x3A, 0x30, 0x0A, 0x30] 2) = some 0x2393 ∧
    statusAfter (running { ref with rctCap := 1 } [0x61, 0x3A, 0x30, 0x3B, 0x62, 0x3A, 0x31, 0x0A, 0x30] 2) =
      some 0x2593 ∧
    statusAfter (running ref [0x61, 0x3A, 0x30, 0x0A, 0x31] 2) = some 0x24A3 := by decide

/-! ## The functions on longer vectors -/

/-- EN14, trace T4: `mississippi`. -/
theorem test_codes_mississippi :
    (buildTree (frequencies [0x6D, 0x69, 0x73, 0x73, 0x69, 0x73, 0x73, 0x69, 0x70, 0x70, 0x69])).map codeTable =
      some [(0x69, [true, true]), (0x6D, [true, false, false]), (0x70, [true, false, true]), (0x73, [false])] := by
  decide

/-- Trace T3: for `abcc` a leaf beats an internal node of equal weight. -/
theorem test_codes_abcc :
    (buildTree (frequencies [0x61, 0x62, 0x63, 0x63])).map codeTable =
      some [(0x61, [true, false]), (0x62, [true, true]), (0x63, [false])] := by decide

/-- DE52: table `a:01;b:0`, stream `010`: "0" matches b, then "10" is left. -/
theorem test_walk_shortest :
    walkStream [([false, true], 0x61), ([false], 0x62)] [] [false, true, false] = ([0x62], [true, false]) := by decide

/-! ## Accesses -/

/-- MA2: the PARAM registers. -/
theorem test_read_params :
    [0x020, 0x024, 0x028, 0x02C, 0x030].map (fun off => responseTo (loaded ref []) (rd off)) =
      [some (.data 0x10), some (.data 0x10000), some (.data 0x40000), some (.data 0x40), some (.data 0x10000)] := by
  decide

/-- MA13 to MA17: bus errors; the last IN word of IN_CAP = 65536 is at 0x13FFFC. -/
theorem test_bus_errors :
    responseTo (loaded ref []) (rd 0x002) = some (.error .misaligned) ∧
    responseTo (loaded ref []) (.read .w8 0x004) = some (.error .badWidth) ∧
    responseTo (loaded ref []) (rd 0x1000) = some (.error .unmapped) ∧
    responseTo (loaded ref []) (wr 0x13FFFC 0) = some .ack ∧
    responseTo (loaded ref []) (rd 0x140000) = some (.error .unmapped) ∧
    responseTo (loaded ref []) (rd 0x300000) = some (.error .unmapped) := by decide

/-- MA8, MA9: bits above `SYM_W` are dropped. -/
theorem test_write_in :
    ((after (machine (loaded ref []) [.access (wr 0x100000 0xFFFF0061)])).map fun t => t.block.inSym 0) =
      some 0x61 ∧
    ((after (machine (loaded { ref with symW := .w8 } []) [.access (wr 0x100000 0x1261)])).map
      fun t => t.block.inSym 0) = some 0x61 := by decide

/-- MA18. -/
theorem test_write_inLen :
    ((after (machine (loaded ref []) [.access (wr 0x008 0xFFFFFFFF)])).map fun t => t.block.inLen) =
      some 0xFFFFFFFF := by decide

/-- CM12: a write while BUSY is ignored. -/
theorem test_write_while_busy :
    ((after { machine ((loaded ref [0x61]).start 1) [.access (wr 0x008 5)] with schedule := [.host] }).map
      fun t => t.block.inLen) = some 1 := by decide

/-! ## Witnesses: states and operands that meet the hypotheses of the statements -/

/-- `ab` in IN, the block idle. -/
def idleAB : Block := loaded ref [0x61, 0x62]

/-- ENCODE of `ab`, accepted. -/
def busyAB : Block := idleAB.start 1

/-- What `n` iterations make of a block. -/
def ran (n : Nat) (b : Block) : Block :=
  match b.ticks n with
  | .ok c => c
  | .error _ => b

/-- ENCODE of `ab`, ended. -/
def doneAB : Block := ran 40 busyAB

/-- ENCODE of an empty text, accepted. -/
def busyEmpty : Block := (loaded ref []).start 1

theorem idleAB_inv : idleAB.Inv := by
  have h0 : (Block.initial ref).Inv := Block.initial_inv (by decide)
  have h1 : ((Block.initial ref).storeIn 0 (wordOfSym 0x61)).Inv := h0.storeIn (by decide) (by decide) _
  have h2 : (((Block.initial ref).storeIn 0 (wordOfSym 0x61)).storeIn 1 (wordOfSym 0x62)).Inv :=
    h1.storeIn (by decide) (by decide) _
  exact h2.withInLen (by decide) 2

theorem busyAB_inv : busyAB.Inv := idleAB_inv.accept (by decide) (.inl rfl)

theorem doneAB_inv : doneAB.Inv := by
  obtain ⟨c, hc, hi, -⟩ := busyAB.ticks_ok 40 busyAB_inv (by decide)
  have : doneAB = c := by rw [doneAB, ran, hc]
  rw [this]
  exact hi

theorem busyEmpty_inv : busyEmpty.Inv := (Block.initial_inv (p := ref) (by decide)).accept (by decide) (.inl rfl)

theorem witness_DecodeOfEncodeIsTheInstruction : (Instr.illegalRsvd 0xFFFFFFF 0xF).wf = true := by decide

theorem witness_StepRunsTheDecodedCommand_idle :
    (machine idleAB [.access (wr 0x000 1)]).host = [.access (wr 0x000 1)] ∧ idleAB.inReset = false ∧
      idleAB.state ≠ .busy := by decide

theorem witness_StepRunsTheDecodedCommand_busy :
    { machine busyAB [.access (wr 0x000 3)] with schedule := [.host] }.nextSlot = .host ∧ busyAB.inReset = false ∧
      busyAB.state = .busy := by decide

theorem witness_StepRunsTheDecodedCommand_table : decodeTableWord 32 0xFFFFFFFF = some (.illegalRsvd 0xFFFFFFF 0xF) := by
  decide

theorem witness_StepPerformsTheNextAccess :
    idleAB.enabled = false ∧ busyAB.enabled = true ∧
      { machine busyAB [.access (rd 0x004)] with schedule := [.host] }.nextSlot = .host := by decide

/-- IllegalCommandFails (words at the edges of its two alternatives) and EncodeAndDecodeStart, in IDLE, DONE and
FAILED. -/
theorem witness_command_accepted :
    idleAB.state ≠ .busy ∧ doneAB.state = .done ∧ (idleAB.illegal 3).state = .failed ∧ rsvdField 0x10 ≠ 0 ∧
      3 ≤ (opField 0x3).toNat ∧ rsvdField 0x3 = 0 := by decide

theorem witness_CommandWhileBusyIsIgnored : (machine busyAB []).block.state = .busy := by decide

/-- EncodeEndsWithItsFunction and DecodeEndsWithItsFunction: IN_LEN may be IN_CAP. -/
theorem witness_EncodeAndDecodeEnd :
    (Block.initial { ref with inCap := 2 }).params.Legal ∧
      (loaded { ref with inCap := 2 } [0x61, 0x62]).inLen.toNat = 2 ∧ idleAB.Inv ∧ idleAB.inReset = false ∧
      idleAB.state ≠ .busy ∧ idleAB.inLen.toNat ≤ idleAB.params.inCap :=
  ⟨by decide, by decide, idleAB_inv, by decide, by decide, by decide⟩

/-- The same text in an idle block and in one whose last ENCODE is done. -/
theorem witness_OutcomeIsIndependent :
    idleAB.Inv ∧ doneAB.Inv ∧ idleAB.params = doneAB.params ∧ idleAB.inReset = false ∧ doneAB.inReset = false ∧
      idleAB.state ≠ .busy ∧ doneAB.state ≠ .busy ∧ idleAB.inLen = doneAB.inLen ∧ idleAB.text = doneAB.text ∧
      idleAB ≠ doneAB :=
  ⟨idleAB_inv, doneAB_inv, by decide, by decide, by decide, by decide, by decide, by decide, by decide, by decide⟩

theorem witness_OperationsTerminate :
    busyAB.Inv ∧ busyAB.state = .busy ∧ tickBound busyAB.inLen.toNat ≤ (List.replicate 16 0).length :=
  ⟨busyAB_inv, by decide, by decide⟩

theorem witness_DecodeOfEncodeIsTheText :
    Params.Legal ref ∧
      fEncode ref [0x61] = .ok [0x61, 0x3A, 0x30, 0x0A, 0x30]
        { outLen := 5, tableLen := 4, streamLen := 1, symCount := 1, entries := 1 } .emit ∧
      5 ≤ ref.inCap ∧ 1 ≤ ref.rctCap := by decide

theorem witness_EveryStepKeepsTheInvariant_host :
    idleAB.Inv ∧ (after (machine idleAB [.access (wr 0x000 1)])).isSome = true := ⟨idleAB_inv, by decide⟩

theorem witness_EveryStepKeepsTheInvariant_block :
    busyAB.Inv ∧ (after { machine busyAB [] with schedule := [.block 3] }).isSome = true := ⟨busyAB_inv, by decide⟩

theorem witness_OnlyAccessDuringResetIsRefused :
    step (machine idleAB.assertReset [.access (rd 0x004)]) = .refused .accessDuringReset := rfl

theorem witness_StateChangesOnlyAsListed :
    (after (machine idleAB [.access (wr 0x000 1)])).map (fun t => t.block.state) = some .busy ∧
    (after (machine idleAB [.access (wr 0x000 3)])).map (fun t => t.block.state) = some .failed ∧
    (after { machine busyAB [] with schedule := [.block 39] }).map (fun t => t.block.state) = some .done ∧
    (after (machine doneAB [.assertReset])).map (fun t => t.block.state) = some .idle := by decide

theorem witness_IdleMachineStaysAsItIs : (machine doneAB []).block.state ≠ .busy ∧ (machine doneAB []).host = [] := by
  decide

/-- NoStepFaults, PhaseOnlyAdvances, BlockStepsLeaveTheInputAlone and FailureCommitsNothing: a block step that goes on,
and one that fails. -/
theorem witness_block_steps :
    busyAB.Inv ∧ busyAB.state = .busy ∧ (busyAB.ticks 3).toOption.map (fun b => b.state) = some .busy ∧
    busyEmpty.Inv ∧ busyEmpty.state = .busy ∧
    (busyEmpty.ticks 3).toOption.map (fun b => (b.state, b.err)) = some (.failed, .emptyInput) :=
  ⟨busyAB_inv, by decide, by decide, busyEmpty_inv, by decide, by decide⟩

/-- A host access other than a command word, in DONE and in FAILED. -/
theorem witness_ResultsStayUntilTheNextCommand :
    doneAB.params.Legal ∧ doneAB.state = .done ∧ (idleAB.illegal 3).state = .failed ∧
      (after (machine doneAB [.access (wr (inAddr 0) 7)])).isSome = true ∧
      (after (machine (idleAB.illegal 3) [.access (wr 0x008 7)])).isSome = true := by decide

/-- The offsets at the edges of the ignored writes: 0x004, 0x00C, 0xFFC, and the first and last word of OUT. -/
theorem witness_IgnoredWrites :
    [0x004, 0x00C, 0xFFC, outBase, outAddr (ref.outCap - 1)].map (fun off => responseTo idleAB (wr off 1)) =
      List.replicate 5 (some .ack) := by decide

/-- InWordStoresTheSymbol, InWordReadsBack, InLenTakesAnyValueUnlessBusy, RegisterPageReads and ReadsHaveNoSideEffect:
the first and the last word of IN, while BUSY and while not. -/
theorem witness_InWord :
    0 < idleAB.params.inCap ∧ idleAB.params.inCap - 1 < idleAB.params.inCap ∧ idleAB.params.Legal ∧
      idleAB.inReset = false ∧ busyAB.inReset = false ∧ busyAB.state = .busy ∧
      responseTo idleAB (wr (inAddr 65535) 1) = some .ack := by decide

/-- OutReadsDefinedBelowOutLen and OutReadsFreeElsewhere: OUT_LEN is 10, words 0 and 9 are defined, word 10 is not, nor any before DONE. -/
theorem witness_OutReads :
    doneAB.Inv ∧ doneAB.state = .done ∧ doneAB.outLen = 10 ∧ doneAB.params.Legal ∧ doneAB.inReset = false ∧
      doneAB.outWord? 0 = some 0x61 ∧ doneAB.outWord? 9 = some 0x31 ∧ 10 < doneAB.params.outCap ∧
      idleAB.state ≠ .done :=
  ⟨doneAB_inv, by decide, by decide, by decide, by decide, by decide, by decide, by decide, by decide⟩

/-- The edges of the unmapped offsets: after the register page, around IN and after OUT. -/
theorem witness_BusErrorsChangeNothing :
    0x1000 ≤ 0x1000 ∧ ¬ bufferByte ref 0x1000 ∧ ¬ bufferByte ref 0xFFFFC ∧ ¬ bufferByte ref 0x140000 ∧
      ¬ bufferByte ref 0x300000 ∧ bufferByte ref 0x100000 ∧ bufferByte ref 0x13FFFC ∧ bufferByte ref 0x2FFFFC := by
  norm_num [bufferByte, inBase, outBase, Params.reference]

theorem witness_AccessDuringResetIsRefused : idleAB.assertReset.inReset = true := by decide

theorem witness_WaitRepeatsWhileBusy :
    (machine doneAB [.wait]).host = [.wait] ∧ doneAB.inReset = false ∧ doneAB.state ≠ .busy ∧ busyAB.state = .busy ∧
      { machine busyAB [.wait] with schedule := [.host] }.nextSlot = .host := by decide

theorem witness_LoadStrMakesTheText :
    (machine idleAB (loadStr [0x61, 0xFFFF] ++ [])).host = loadStr [0x61, 0xFFFF] ++ [] ∧ idleAB.inReset = false ∧
      doneAB.state ≠ .busy ∧ doneAB.params.Legal ∧ 2 ≤ doneAB.params.inCap ∧
      ∀ c ∈ ([0x61, 0xFFFF] : List Sym), symOfWord .w16 (wordOfSym c) = c :=
  ⟨rfl, by decide, by decide, by decide, by decide,
    List.forall_mem_cons.mpr ⟨by decide, List.forall_mem_singleton.mpr (by decide)⟩⟩

theorem witness_ReadOutReturnsTheOutput :
    (machine doneAB [.readOut]).host = [.readOut] ∧ doneAB.Inv ∧ doneAB.state = .done :=
  ⟨by decide, doneAB_inv, by decide⟩

/-- Reset after an operation, and at a point of one. -/
theorem witness_ResetPutsEveryRegisterInItsResetValue :
    (machine doneAB [.assertReset, .releaseReset]).host = .assertReset :: [.releaseReset] ∧ doneAB.enabled = false ∧
      (ran 2 busyAB).enabled = true ∧
      { machine (ran 2 busyAB) [.assertReset, .releaseReset] with schedule := [.host] }.nextSlot = .host := by decide

theorem witness_ResetAbandonsTheOperation :
    { machine busyAB [.assertReset, .releaseReset] with schedule := [.host] }.nextSlot = .host ∧
      busyAB.state = .busy ∧ busyAB.inReset = false := by decide

/-- TreeInvariants, CodeTableIsPrefixFree, CodeLengthsSumToOne, CodeLengthBound and SingleSymbolText: trees of one and
of two symbols. -/
theorem witness_trees :
    (buildTree (frequencies [0x61])).isSome = true ∧ (buildTree (frequencies [0x61, 0x62])).isSome = true ∧
      2 ≤ (frequencies [0x61, 0x62]).length ∧ (frequencies [0x61, 0x62]).length ≤ ref.maxCodeLen + 1 ∧
      Params.Legal ref ∧ 0 + 5 ≤ ref.outCap := by decide

/-- ErrorsOfEachOperation, EncodedDocumentLayout (with witness_DecodeOfEncodeIsTheText) and DecodedTextFits: every error
of 60_exceptions R212 but the ones of acceptance, and a success of each function. -/
theorem witness_outcomes :
    fEncode ref [] = .err .emptyInput .count ∧
    fEncode { ref with maxCodeLen := 1 } [0x61, 0x62, 0x63] = .err .capacity .derive ∧
    fEncode { ref with outCap := 3 } [0x61] = .err .capacity .serialize ∧
    fEncode { ref with outCap := 4 } [0x61] = .err .capacity .emit ∧
    fDecode ref [0x61] = .err .invalidFormat .awaitHeader ∧
    fDecode ref [0x61, 0x3A, 0x30, 0x3B, 0x62, 0x3A, 0x30, 0x0A, 0x30] = .err .duplicateCode .parseTable ∧
    fDecode { ref with rctCap := 0 } [0x61, 0x3A, 0x30, 0x0A, 0x30] = .err .capacity .parseTable ∧
    fDecode ref [0x61, 0x3A, 0x30, 0x0A, 0x31] = .err .truncatedStream .parseStream ∧
    fDecode ref [0x61, 0x3A, 0x30, 0x0A, 0x30] = .ok [0x61]
      { outLen := 1, tableLen := 4, streamLen := 1, symCount := 1, entries := 1 } .parseStream := by decide

theorem witness_ValidatorAcceptsExactlyTheGrammar :
    validate [0x61, 0x3A, 0x30, 0x0A, 0x30] = some ([(0x61, [false])], [0x30]) := by decide

theorem witness_ReverseTableInvertsTheEntries :
    (parseTable ref [] [(0x61, [false]), (0x61, [false]), (0x62, [true])]).toOption =
      some [([false], 0x61), ([true], 0x62)] := by decide

/-- One entry for each of the five clauses, at the edge of the code length. -/
theorem witness_EntryChecksInOrder :
    ({ ref with maxCodeLen := 1 } : Params).maxCodeLen < [false, false].length ∧
    [false].length ≤ ({ ref with maxCodeLen := 1 } : Params).maxCodeLen ∧
    symOfCode [([false], 0x61)] [false] = some 0x61 ∧ symOfCode [([false], 0x61)] [true] = none ∧
    [([false], (0x61 : Sym))].length = ({ ref with rctCap := 1 } : Params).rctCap ∧
    [([false], (0x61 : Sym))].length < ref.rctCap := by decide

/-- The hypotheses on the shorter prefixes, for the code "10" of a table that also holds "0". -/
theorem witness_WalkEmitsTheShortestMatch :
    symOfCode [([false], 0x61), ([true, false], 0x62)] [true, false] = some 0x62 ∧
      symOfCode [([false], 0x61), ([true, false], 0x62)] ([true, false].take 1) = none := by decide

theorem witness_LongAccumulatorNeverMatches :
    ∀ e ∈ [([false], (0x61 : Sym))], e.1.length < [true, true].length := by decide

/-- A block step chosen by the schedule, and one made because the host has nothing to do. -/
theorem witness_StepRunsTheBlockAgent :
    busyAB.enabled = true ∧ { machine busyAB [.wait] with schedule := [.block 39] }.nextSlot = .block 39 ∧
      { machine busyAB [] with schedule := [.host] }.nextSlot = .host ∧ (machine busyAB []).host = [] := by decide

/-- The pools of two and of three leaves, the third lighter than the others. -/
theorem witness_BuildCombinesTheTwoLeast :
    2 ≤ (leavesFrom 0 [(0x61, 1), (0x62, 1)]).length ∧
      ((leavesFrom 0 [(0x61, 1), (0x62, 1)]).map Node.seqNo).Nodup ∧
      ((leavesFrom 0 [(0x61, 3), (0x62, 2), (0x63, 1)]).map Node.seqNo).Nodup := by decide

theorem witness_EqualMemoriesAreEqualData :
    Memory.wf [(0x100000, 0x61), (0x100001, 0x00)] ∧ Memory.wf (idleAB.mem) ∧ idleAB.mem.length = 8 := by decide

end Sys2Proof.Tests
end

/-! SUPPORT. ENCODE and DECODE as wholes: an accepted operation reaches the end state of its function. -/

namespace Sys2Proof.Machine

/-! ## What the start of an operation leaves of its input -/

/-- The text an operation works on is the one at acceptance (40_command R115). -/
@[simp] theorem Block.start_text (b : Block) (op : BitVec 4) : (b.start op).text = b.text :=
  Block.textFrom_congr (b.start_params op) (b.start_epoch op) (b.start_inLen op)
    (fun _ _ _ => by rw [Block.start_mem]) 0

/-- Where an accepted ENCODE is heading (43_encoder R160). -/
theorem Block.outcome_start_encode (b : Block) : (b.start 1).outcome = fEncode b.params b.text := by
  rw [Block.outcome_encode (b.start_op 1), Block.start_params, Block.start_text]

/-- Where an accepted DECODE is heading (44_decoder R180). -/
theorem Block.outcome_start_decode (b : Block) : (b.start 2).outcome = fDecode b.params b.text := by
  rw [Block.outcome_decode (b.start_op 2), Block.start_params, Block.start_text]

/-! ## From acceptance to the end -/

/-- A running operation has, from the bound of 40_command R119 on, one block for every number of iterations, in which
it has ended with the outcome of its function. -/
theorem Block.Runs.reaches_end {b0 b : Block} (h : b0.Runs b) :
    ∃ c, (∀ k, tickBound b.inLen.toNat ≤ k → b.ticks k = .ok c) ∧ b0.EndsAs c b0.outcome := by
  obtain ⟨c, hc, hgoes⟩ := Block.ticks_runs (tickBound b.inLen.toNat) h
  have hended : c.state = .done ∨ c.state = .failed := by
    obtain ⟨d, hd, -, hend⟩ := b.ticks_end _ h.inv h.busy le_rfl
    obtain rfl : d = c := Except.ok.inj (hd.symm.trans hc)
    exact hend
  have hnotBusy : c.state ≠ .busy := by rcases hended with hs | hs <;> simp [hs]
  refine ⟨c, fun k hk => ?_, hgoes.resolve_left fun hruns => hnotBusy hruns.busy⟩
  rw [← Nat.add_sub_of_le hk]
  exact Block.ticks_add _ hc hnotBusy

/-- A command word that starts an operation, accepted with a text that fits IN: the block is BUSY with the operation's
OP, and reaches the end state of the operation's function (40_command R114-R119). -/
theorem exec_start_reaches_end {i : Instr} {op : BitVec 4} {s : State} {r : OpResult}
    (hexec : exec i s = .next (s.command fun b => b.start op)) (ho : op = 1 ∨ op = 2)
    (hout : (s.block.start op).outcome = r) (hinv : s.block.Inv) (hreset : s.block.inReset = false)
    (hidle : s.block.state ≠ .busy) (hfits : s.block.inLen.toNat ≤ s.block.params.inCap) :
    ∃ t b, exec i s = .next t ∧ t.block.state = .busy ∧ t.block.op = op ∧
      (∀ k, tickBound s.block.inLen.toNat ≤ k → t.block.ticks k = .ok b) ∧ t.block.EndsAs b r := by
  have hruns := Block.start_runs hinv hreset hfits ho
  obtain ⟨c, hticks, hends⟩ := hruns.reaches_end
  rw [Block.start_inLen] at hticks
  rw [State.command_accepted _ hidle] at hexec
  exact ⟨_, c, hexec, hruns.busy, Block.start_op _ op, hticks, hout ▸ hends⟩

/-- Settles O12: the accepted ENCODE runs (`Block.Runs`) to the end state of `fEncode`. -/
theorem encodeEndsWithItsFunction : Obligations.EncodeEndsWithItsFunction := fun s =>
  exec_start_reaches_end rfl (.inl rfl) s.block.outcome_start_encode

/-- Settles O13: the accepted DECODE runs (`Block.Runs`) to the end state of `fDecode`. -/
theorem decodeEndsWithItsFunction : Obligations.DecodeEndsWithItsFunction := fun s =>
  exec_start_reaches_end rfl (.inr rfl) s.block.outcome_start_decode

end Sys2Proof.Machine

/-! SUPPORT. What a step does to the block, and from it the invariant, the moves of STATE and PHASE, the register page
and reset (10_state). -/

namespace Sys2Proof.Machine

/-! ## What a step does to the block -/

/-- A step leaves the block as some iterations of a running operation leave it, or as it was, or as the host's next
operation leaves it. -/
theorem step_effect {s t : State} (h : step s = .next t) :
    (s.block.enabled = true ∧ ∃ n, s.block.ticks n = .ok t.block) ∨ t.block = s.block ∨
      ∃ op rest, s.host = op :: rest ∧ HostEffect op s.block t.block := by
  obtain ⟨extra, s', hen, hs', heq⟩ | ⟨-, -, heq⟩ | ⟨op, rest, s', hhost, hs', -, heq⟩ := step_cases s
  · exact .inl ⟨hen, extra + 1, hs' ▸ (blockStep_next (heq ▸ h)).1⟩
  · obtain rfl : s = t := Host.Outcome.next.inj (heq.symm.trans h)
    exact .inr (.inl rfl)
  · exact .inr (.inr ⟨op, rest, hhost, hs' ▸ hostStep_effect (heq ▸ h)⟩)

/-- Where the host moves (the block is not enabled, or the schedule's next choice is the host), a step is the host's next
operation. -/
theorem step_hostMoves {s : State} {op : HostOp} {rest : List HostOp} (h : s.host = op :: rest)
    (hslot : s.block.enabled = true → s.nextSlot = .host) :
    step s = hostStep op { (if s.block.enabled then s.takeSlot else s) with host := rest } := by
  unfold step agentStep
  by_cases hen : s.block.enabled = true
  · rw [if_pos hen, if_pos hen, hslot hen]
    exact hostMove_cons (by rw [State.takeSlot_host, h])
  · rw [if_neg hen, if_neg hen, hostMove_cons h]

/-! ## The invariant -/

/-- What one operation of the host does keeps the invariant. -/
theorem HostEffect.keeps_inv {op : HostOp} {b c : Block} (h : HostEffect op b c) (hinv : b.Inv) : c.Inv := by
  cases h with
  | none => exact hinv
  | start w op b hr hb hop => exact hinv.accept hr (hop.imp And.right And.right)
  | illegal w b hr hb hw => exact hinv.illegal hr _
  | inLen op b v hr hb => exact hinv.withInLen hb v
  | inWord op b i v hr hb hi => exact hinv.storeIn hb hi v
  | assertReset => exact hinv.assertReset
  | releaseReset => exact hinv.releaseReset

/-- Any number of iterations of a running operation keeps the invariant. -/
theorem Block.Inv.ticks {b c : Block} {n : Nat} (h : b.Inv) (hb : b.state = .busy) (hc : b.ticks n = .ok c) :
    c.Inv := by
  obtain ⟨d, hd, hinv, -⟩ := b.ticks_ok n h hb
  obtain rfl : d = c := Except.ok.inj (hd.symm.trans hc)
  exact hinv

/-- Settles O18: block steps keep the invariant by `Block.ticks_ok`, host steps effect by effect. -/
theorem everyStepKeepsTheInvariant : Obligations.EveryStepKeepsTheInvariant := by
  intro s t hinv hstep
  obtain ⟨hen, n, hticks⟩ | hsame | ⟨op, rest, -, heffect⟩ := step_effect hstep
  · exact hinv.ticks (s.block.enabled_iff.mp hen).1 hticks
  · exact hsame ▸ hinv
  · exact heffect.keeps_inv hinv

/-- Settles O17: the reference parameters are legal. -/
theorem invariantHoldsAtReset : Obligations.InvariantHoldsAtReset :=
  Block.initial_inv (p := Params.reference) (by decide)

/-! ## The moves of STATE and PHASE (10_state R38) -/

theorem Block.start_state (b : Block) (op : BitVec 4) : (b.start op).state = .failed ∨ (b.start op).state = .busy := by
  unfold Block.start
  split
  · exact .inl rfl
  · exact .inr rfl

/-- One operation of the host leaves STATE and PHASE alone, except a command word other than NOP, accepted, and reset;
both put PHASE to NONE. -/
theorem HostEffect.status {op : HostOp} {b c : Block} (h : HostEffect op b c) :
    (c.state = b.state ∧ c.phase = b.phase) ∨
    (c.phase = .noPhase ∧
      ((∃ w, op = .access (wr 0x000 w) ∧ b.state ≠ .busy ∧ decodeWord w ≠ .nop ∧
          (c.state = .failed ∨ (c.state = .busy ∧ (decodeWord w = .encode ∨ decodeWord w = .decode)))) ∨
        (op = .assertReset ∧ c.state = .idle))) := by
  cases h with
  | none => exact .inl ⟨rfl, rfl⟩
  | start w op b hr hb hop =>
    have hcmd : decodeWord w = .encode ∨ decodeWord w = .decode := hop.imp And.left And.left
    have hnop : decodeWord w ≠ .nop := by rcases hcmd with hw | hw <;> simp [hw]
    exact .inr ⟨b.start_phase op, .inl ⟨w, rfl, hb, hnop, (b.start_state op).imp_right (⟨·, hcmd⟩)⟩⟩
  | illegal w b hr hb hw => exact .inr ⟨rfl, .inl ⟨w, rfl, hb, hw, .inl rfl⟩⟩
  | inLen => exact .inl ⟨rfl, rfl⟩
  | inWord => exact .inl ⟨rfl, rfl⟩
  | assertReset => exact .inr ⟨rfl, .inr ⟨rfl, rfl⟩⟩
  | releaseReset => exact .inl ⟨rfl, rfl⟩

/-- An iteration in any phase, whatever the internal state, keeps STATE or ends the operation. -/
theorem Block.tick_state {b c : Block} (h : b.tick = .ok c) :
    c.state = b.state ∨ c.state = .done ∨ c.state = .failed := by
  unfold Block.tick at h
  cases hp : b.phase <;> simp only [hp] at h
  case noPhase =>
    unfold Block.tickBegin at h
    repeat' split at h
    all_goals cases h
    all_goals exact .inl rfl
  case count =>
    cases h
    unfold Block.tickCount
    repeat' split
    all_goals simp
  case build =>
    unfold Block.tickBuild at h
    split at h <;> cases h <;> exact .inl rfl
  case derive =>
    unfold Block.tickDerive at h
    repeat' split at h
    all_goals cases h
    all_goals simp
  case serialize =>
    cases h
    unfold Block.tickSerialize
    repeat' split
    all_goals simp
  case emit =>
    cases h
    unfold Block.tickEmit
    repeat' split
    all_goals simp
  case awaitHeader =>
    cases h
    unfold Block.tickAwaitHeader
    repeat' split
    all_goals simp
  case parseTable =>
    cases h
    unfold Block.tickParseTable
    repeat' split
    all_goals simp
  case parseStream =>
    unfold Block.tickParseStream at h
    repeat' split at h
    all_goals cases h
    all_goals simp

/-- Any number of iterations keeps STATE or ends the operation. -/
theorem Block.ticks_state {n : Nat} {b c : Block} (h : b.ticks n = .ok c) :
    c.state = b.state ∨ c.state = .done ∨ c.state = .failed := by
  induction n generalizing b with
  | zero => cases h; exact .inl rfl
  | succ n ih =>
    unfold Block.ticks at h
    split at h
    · split at h
      · cases h
      · rename_i d hd
        rcases ih h with hc | hc
        · exact hc ▸ Block.tick_state hd
        · exact .inr hc
    · cases h; exact .inl rfl

/-- Settles O21: a block step moves STATE only to DONE or FAILED, and a host step as `HostEffect.status` says. -/
theorem stateChangesOnlyAsListed : Obligations.StateChangesOnlyAsListed := by
  intro s t hstep
  obtain ⟨hen, n, hticks⟩ | hsame | ⟨op, rest, hhost, heffect⟩ := step_effect hstep
  · have hbusy := (s.block.enabled_iff.mp hen).1
    exact ⟨fun hne => .inr (.inl ⟨hbusy, (Block.ticks_state hticks).resolve_left hne⟩), fun _ => .inl hbusy⟩
  · exact ⟨fun hne => absurd (congrArg Block.state hsame) hne, fun hne => absurd (congrArg Block.phase hsame) hne⟩
  · obtain ⟨hstate, hphase⟩ | ⟨hphase, ⟨w, rfl, hb, hw, hstate⟩ | ⟨rfl, hstate⟩⟩ := heffect.status
    · exact ⟨fun hne => absurd hstate hne, fun hne => absurd hphase hne⟩
    · exact ⟨fun _ => .inl ⟨w, rest, hhost, hb, hw, hstate⟩, fun _ => .inr ⟨hphase, .inl ⟨w, rest, hhost, hw⟩⟩⟩
    · exact ⟨fun _ => .inr (.inr ⟨rest, hhost, hstate⟩), fun _ => .inr ⟨hphase, .inr ⟨rest, hhost⟩⟩⟩

/-! ## The register page -/

/-- A read of a word of the register page returns its value and is recorded; nothing else happens (20_memory R66). -/
theorem busAccess_rd_reg {s : State} {off : Nat} (hr : s.block.inReset = false) (h : off % 4 = 0 ∧ off < 0x1000) :
    busAccess (rd off) s = .next (s.record (rd off) (.data (s.block.readReg off))) :=
  busAccess_rd hr (decodeAccess_reg h.1 h.2)

/-- The offsets above the PARAM registers are reserved and read as 0 (10_state R36). -/
theorem Block.readReg_reserved (b : Block) {off : Nat} (h : 0x034 ≤ off) : b.readReg off = 0 := by
  unfold Block.readReg
  split
  case h_14 => rfl
  all_goals omega

/-- Settles O28: each read is `Block.readReg` at its offset. -/
theorem registerPageReads : Obligations.RegisterPageReads := by
  intro s hr
  refine ⟨busAccess_rd_reg hr (by decide), busAccess_rd_reg hr (by decide), busAccess_rd_reg hr (by decide),
    busAccess_rd_reg hr (by decide), busAccess_rd_reg hr (by decide), busAccess_rd_reg hr (by decide),
    busAccess_rd_reg hr (by decide), busAccess_rd_reg hr (by decide), busAccess_rd_reg hr (by decide),
    busAccess_rd_reg hr (by decide), busAccess_rd_reg hr (by decide), busAccess_rd_reg hr (by decide),
    busAccess_rd_reg hr (by decide), fun off h4 hlow hhigh => ?_⟩
  rw [busAccess_rd_reg hr ⟨h4, by omega⟩, s.block.readReg_reserved hlow]

/-- Only CMD and IN_LEN of the register page take a write (10_state R36, R37). -/
theorem writeTarget_reg_ignored {off : Nat} (v : Word) (a : Access) (s : State) (hcmd : off ≠ 0x000)
    (hlen : off ≠ 0x008) : writeTarget (.reg off) v a s = .next (s.record a .ack) := by
  simp [writeTarget, hcmd, hlen]

/-- Settles O30: a read-only or reserved offset decodes to a register that takes no write, an OUT offset to an OUT
word. -/
theorem ignoredWrites : Obligations.IgnoredWrites := by
  intro s off v hr h4 hwhere
  rcases hwhere with ⟨hlow, hhigh, hlen⟩ | ⟨hlegal, hlow, hhigh⟩
  · rw [busAccess_wr hr (decodeAccess_reg h4 (by omega))]
    exact writeTarget_reg_ignored v _ s (by omega) hlen
  · exact busAccess_wr hr (decodeAccess_out hlegal.2.1 h4 hlow hhigh)

/-- A write to IN_LEN is `Block.writeInLen` (10_state R27). -/
theorem busAccess_wr_inLen {s : State} (v : Word) (hr : s.block.inReset = false) :
    busAccess (wr 0x008 v) s = .next { s.record (wr 0x008 v) .ack with block := s.block.writeInLen v } :=
  busAccess_wr hr (decodeAccess_reg (by decide) (by decide))

theorem Block.writeInLen_busy {b : Block} (v : Word) (h : b.state = .busy) : b.writeInLen v = b := if_pos h

theorem Block.writeInLen_notBusy {b : Block} (v : Word) (h : b.state ≠ .busy) :
    b.writeInLen v = { b with inLen := v } := if_neg h

/-- Settles O31, in both cases of BUSY. -/
theorem inLenTakesAnyValueUnlessBusy : Obligations.InLenTakesAnyValueUnlessBusy := by
  intro s v hr
  rw [busAccess_wr_inLen v hr]
  constructor
  · intro hidle
    rw [Block.writeInLen_notBusy v hidle]
    rfl
  · intro hbusy
    rw [Block.writeInLen_busy v hbusy]
    rfl

/-! ## Reset -/

theorem Block.assertReset_statusWord (b : Block) : b.assertReset.statusWord = 0 := by
  simp [Block.statusWord, RunState.code, Phase.code, ErrCode.code]

/-- Where the host moves, the reset edge at the head of its list resets the block, and of the rest takes only that edge
and the schedule's choice. -/
theorem step_assertReset {s : State} {rest : List HostOp} (h : s.host = .assertReset :: rest)
    (hslot : s.block.enabled = true → s.nextSlot = .host) :
    step s = .next { (if s.block.enabled then s.takeSlot else s) with
      block := s.block.assertReset, host := rest } := by
  rw [step_hostMoves h hslot]
  split
  · rw [← s.takeSlot_block]; rfl
  · rfl

/-- Settles O41: the step is the reset edge, and after it only the host can move. -/
theorem resetPutsEveryRegisterInItsResetValue : Obligations.ResetPutsEveryRegisterInItsResetValue := by
  intro s rest hhost hslot
  refine ⟨_, step_assertReset hhost hslot, s.block.assertReset_inReset, s.block.assertReset_params,
    s.block.assertReset_state, s.block.assertReset_phase, s.block.assertReset_err, s.block.assertReset_op,
    s.block.assertReset_statusWord, s.block.assertReset_inLen, ⟨rfl, rfl, rfl, rfl, rfl⟩, s.block.assertReset_work,
    fun _ => rfl, s.block.assertReset_epoch, rfl, fun rest' hrest => ?_⟩
  exact step_host (op := .releaseReset) (rest := rest') hrest (by simp)

end Sys2Proof.Machine

/-! SUPPORT. The memory map (20_memory): memory as data, what one access to a buffer or to no mapped word does, and that
nothing but a command word or reset changes the results. -/

namespace Sys2Proof.Machine

/-! ## Memory as data -/

@[simp] theorem Memory.read_cons_same (k : Nat) (v : Byte) (r : Memory) : Memory.read? ((k, v) :: r) k = some v := by
  simp [Memory.read?]

theorem Memory.read_cons_other {k a : Nat} (v : Byte) (r : Memory) (h : k ≠ a) :
    Memory.read? ((k, v) :: r) a = Memory.read? r a := by
  simp [Memory.read?, h]

/-- Nothing is read below every listed offset. -/
theorem Memory.read_below {m : Memory} {a : Nat} (h : ∀ c ∈ m, a < c.1) : m.read? a = none := by
  induction m with
  | nil => rfl
  | cons c r ih =>
    obtain ⟨hc, hr⟩ := List.forall_mem_cons.mp h
    rw [Memory.read_cons_other _ _ hc.ne', ih hr]

/-- The first offset of a canonical memory is the least that reads as anything. -/
theorem Memory.head_le_of_read {k a : Nat} {v w : Byte} {r : Memory} (hwf : Memory.wf ((k, v) :: r))
    (h : Memory.read? ((k, v) :: r) a = some w) : k ≤ a := by
  by_contra hlt
  have hbelow : ∀ c ∈ (k, v) :: r, a < c.1 :=
    List.forall_mem_cons.mpr ⟨by omega, fun c hc => Nat.lt_trans (by omega) (List.rel_of_pairwise_cons hwf hc)⟩
  rw [Memory.read_below hbelow] at h
  cases h

/-- Settles O58, by induction on one memory: the two have the same first cell, and their rests read alike. -/
theorem equalMemoriesAreEqualData : Obligations.EqualMemoriesAreEqualData := by
  intro m
  induction m with
  | nil =>
    intro n _ _ hread
    cases n with
    | nil => rfl
    | cons d q => simpa [Memory.read?] using hread d.1
  | cons c r ih =>
    intro n hm hn hread
    obtain ⟨k, v⟩ := c
    have hk := hread k
    rw [Memory.read_cons_same] at hk
    cases n with
    | nil => cases hk
    | cons d q =>
      obtain ⟨l, w⟩ := d
      have hl := hread l
      rw [Memory.read_cons_same] at hl
      obtain rfl : k = l := Nat.le_antisymm (Memory.head_le_of_read hm hl) (Memory.head_le_of_read hn hk.symm)
      obtain rfl : v = w := by simpa using hk
      obtain ⟨hkr, hr⟩ := List.pairwise_cons.mp hm
      obtain ⟨hkq, hq⟩ := List.pairwise_cons.mp hn
      congr 1
      refine ih q hr hq fun a => ?_
      by_cases ha : k = a
      · subst ha
        rw [Memory.read_below hkr, Memory.read_below hkq]
      · rw [← Memory.read_cons_other v r ha, ← Memory.read_cons_other v q ha, hread a]

/-! ## A step of the host -/

/-- Settles O6: where the host moves a step is `hostStep` of its next operation, for an access `busAccess`. -/
theorem stepPerformsTheNextAccess : Obligations.StepPerformsTheNextAccess := by
  intro s a rest hhost
  constructor
  · intro hoff
    have hoff' : ¬ s.block.enabled = true := by simp [hoff]
    rw [step_hostMoves hhost fun hon => absurd hon hoff', if_neg hoff', hostStep]
  · intro hon hslot
    rw [step_hostMoves hhost fun _ => hslot, if_pos hon, hostStep]

/-! ## Bus errors (20_memory R62, R63) -/

theorem decodeAccess_badWidth {width : Width} (p : Params) (off : Nat) (h : width ≠ .w32) :
    decodeAccess p width off = .error .badWidth := if_pos h

theorem decodeAccess_misaligned {off : Nat} (p : Params) (h : off % 4 ≠ 0) :
    decodeAccess p .w32 off = .error .misaligned := by
  simp [decodeAccess, h]

theorem decodeAccess_unmapped {p : Params} {off : Nat} (h4 : off % 4 = 0) (hreg : 0x1000 ≤ off)
    (hbuf : ¬ bufferByte p off) : decodeAccess p .w32 off = .error .unmapped := by
  obtain ⟨hin, hout⟩ := not_or.mp hbuf
  simp [decodeAccess, target?, h4, Nat.not_lt.mpr hreg, hin, hout]

theorem busAccess_read_error {s : State} {width : Width} {off : Nat} {e : BusError} (hr : s.block.inReset = false)
    (h : decodeAccess s.block.params width off = .error e) :
    busAccess (.read width off) s = .next (s.record (.read width off) (.error e)) := by
  simp [busAccess, hr, h]

theorem busAccess_write_error {s : State} {width : Width} {off : Nat} {e : BusError} (v : Word)
    (hr : s.block.inReset = false) (h : decodeAccess s.block.params width off = .error e) :
    busAccess (.write width off v) s = .next (s.record (.write width off v) (.error e)) := by
  simp [busAccess, hr, h]

/-- Settles O36: in each of the three cases the offset decodes to an error, and an access that does is recorded only. -/
theorem busErrorsChangeNothing : Obligations.BusErrorsChangeNothing := by
  intro s width off v hr hbad
  have herror : ∃ e, decodeAccess s.block.params width off = .error e := by
    by_cases hw : width = .w32
    · subst hw
      by_cases h4 : off % 4 = 0
      · obtain ⟨hreg, hbuf⟩ := (hbad.resolve_left (not_not.mpr rfl)).resolve_left (not_not.mpr h4)
        exact ⟨_, decodeAccess_unmapped h4 hreg hbuf⟩
      · exact ⟨_, decodeAccess_misaligned _ h4⟩
    · exact ⟨_, decodeAccess_badWidth _ _ hw⟩
  obtain ⟨e, he⟩ := herror
  exact ⟨e, busAccess_read_error hr he, busAccess_write_error v hr he⟩

/-! ## Reads (20_memory R66) -/

/-- Settles O29: a read is a bus error, which is recorded only, or reads a mapped word (`readTarget_frame`). -/
theorem readsHaveNoSideEffect : Obligations.ReadsHaveNoSideEffect := by
  intro s width off hr
  cases hdec : decodeAccess s.block.params width off with
  | error e => exact ⟨_, busAccess_read_error hr hdec, rfl, rfl, rfl⟩
  | ok target =>
    obtain ⟨rfl, -, -⟩ := decodeAccess_ok hdec
    exact ⟨_, busAccess_rd hr hdec, readTarget_frame target _ s⟩

/-! ## IN (20_memory R68) -/

/-- A read of an IN word returns its symbol, whatever STATE is. -/
theorem busAccess_rd_in {s : State} {i : Nat} (hr : s.block.inReset = false) (hi : i < s.block.params.inCap) :
    busAccess (rd (inAddr i)) s = .next (s.record (rd (inAddr i)) (.data (wordOfSym (s.block.inSym i)))) :=
  busAccess_rd hr (decodeAccess_in hi)

/-- A write to an IN word is `Block.writeIn`. -/
theorem busAccess_wr_in {s : State} {i : Nat} (v : Word) (hr : s.block.inReset = false)
    (hi : i < s.block.params.inCap) : busAccess (wr (inAddr i) v) s =
      .next { s.record (wr (inAddr i) v) .ack with block := s.block.writeIn i v } :=
  busAccess_wr hr (decodeAccess_in hi)

theorem Block.writeIn_busy {b : Block} (i : Nat) (v : Word) (h : b.state = .busy) : b.writeIn i v = b := if_pos h

theorem Block.writeIn_notBusy {b : Block} (i : Nat) (v : Word) (h : b.state ≠ .busy) :
    b.writeIn i v = b.storeIn i v := if_neg h

/-- Settles O32: while BUSY the block stays, otherwise it is `Block.storeIn`, one word stored at `inAddr i`. -/
theorem inWordStoresTheSymbol : Obligations.InWordStoresTheSymbol := by
  intro s i v hr _ hi
  rw [busAccess_wr_in v hr hi]
  constructor
  · intro hbusy
    rw [Block.writeIn_busy i v hbusy]
    rfl
  · intro hidle
    rw [Block.writeIn_notBusy i v hidle]
    exact ⟨_, rfl, Memory.readWord_storeWord_same _ _ _, fun _ ha => Memory.read_storeWord_other _ _ ha⟩

/-- Settles O33: the read returns `Block.inSym`, which after the write is the symbol stored. -/
theorem inWordReadsBack : Obligations.InWordReadsBack := by
  intro s i hr _ hi
  refine ⟨busAccess_rd_in hr hi, fun v t hidle hwrite => ?_⟩
  rw [busAccess_wr_in v hr hi, Block.writeIn_notBusy i v hidle] at hwrite
  have hblock : t.block = s.block.storeIn i v := (congrArg State.block (Host.Outcome.next.inj hwrite)).symm
  rw [busAccess_rd_in (by rwa [hblock]) (by rwa [hblock]), hblock, Block.inSym_storeIn_same]

/-! ## OUT (20_memory R69) -/

theorem Block.readOut_below {b : Block} {i : Nat} (hdone : b.state = .done) (hi : i < b.outLen.toNat) :
    b.readOut? i = b.outWord? i := if_pos ⟨hdone, hi⟩

theorem Block.readOut_elsewhere {b : Block} {i : Nat} (h : b.state ≠ .done ∨ b.outLen.toNat ≤ i) :
    b.readOut? i = none := if_neg fun ⟨hdone, hi⟩ => h.elim (· hdone) (Nat.not_le.mpr hi)

/-- A read of an OUT word where it is defined returns its value. -/
theorem busAccess_rd_out_defined {s : State} {i : Nat} {w : Word} (hr : s.block.inReset = false)
    (hl : s.block.params.inCap ≤ 262144) (hi : i < s.block.params.outCap) (hw : s.block.readOut? i = some w) :
    busAccess (rd (outAddr i)) s = .next (s.record (rd (outAddr i)) (.data w)) := by
  rw [busAccess_rd hr (decodeAccess_outAddr hl hi)]
  simp only [readTarget, hw]

/-- A read of an OUT word where it is not defined returns the next free value and draws it. -/
theorem busAccess_rd_out_free {s : State} {i : Nat} (hr : s.block.inReset = false)
    (hl : s.block.params.inCap ≤ 262144) (hi : i < s.block.params.outCap) (hfree : s.block.readOut? i = none) :
    busAccess (rd (outAddr i)) s =
      .next { s.record (rd (outAddr i)) (.data (Config.freeOut s.draws)) with draws := s.draws + 1 } := by
  rw [busAccess_rd hr (decodeAccess_outAddr hl hi)]
  simp only [readTarget, hfree]

/-- In DONE reset is not asserted. -/
theorem Block.Inv.inReset_of_done {b : Block} (h : b.Inv) (hdone : b.state = .done) : b.inReset = false := by
  have hstatus := h.status
  simp only [Block.StatusInv, hdone] at hstatus
  exact hstatus.1

/-- Settles O34: the invariant has every OUT word below OUT_LEN written, and OUT_LEN at most OUT_CAP. -/
theorem outReadsDefinedBelowOutLen : Obligations.OutReadsDefinedBelowOutLen := by
  intro s i hinv hdone hi
  obtain ⟨-, ⟨houtLen, -⟩, hwritten⟩ := hinv.result
  obtain ⟨w, hw⟩ := Option.isSome_iff_exists.mp (hwritten i hi)
  obtain ⟨-, hinCap, -⟩ := hinv.legal
  exact ⟨w, hw, busAccess_rd_out_defined (hinv.inReset_of_done hdone) hinCap (hi.trans_le houtLen)
    ((Block.readOut_below hdone hi).trans hw)⟩

/-- Settles O35: outside DONE and from OUT_LEN up `Block.readOut?` has no value. -/
theorem outReadsFreeElsewhere : Obligations.OutReadsFreeElsewhere := by
  intro s i hr ⟨_, hinCap, _⟩ hi hwhere
  exact busAccess_rd_out_free hr hinCap hi (Block.readOut_elsewhere hwhere)

/-! ## The results until the next command (20_memory R71) -/

/-- STATUS, the five result registers and every OUT word are the same in both blocks. -/
structure Block.SameResults (b c : Block) : Prop where
  statusWord : c.statusWord = b.statusWord
  outLen : c.outLen = b.outLen
  tableLen : c.tableLen = b.tableLen
  streamLen : c.streamLen = b.streamLen
  symCount : c.symCount = b.symCount
  entries : c.entries = b.entries
  outWord : ∀ i, c.outWord? i = b.outWord? i

theorem Block.SameResults.refl (b : Block) : b.SameResults b := ⟨rfl, rfl, rfl, rfl, rfl, rfl, fun _ => rfl⟩

theorem Block.sameResults_withInLen (b : Block) (v : Word) : b.SameResults { b with inLen := v } :=
  ⟨rfl, rfl, rfl, rfl, rfl, rfl, fun _ => rfl⟩

theorem Block.sameResults_releaseReset (b : Block) : b.SameResults b.releaseReset :=
  ⟨rfl, rfl, rfl, rfl, rfl, rfl, fun _ => rfl⟩

/-- IN lies below OUT for every legal IN_CAP, so a write to IN keeps every OUT word. -/
theorem Block.outWord_storeIn {i : Nat} (b : Block) (v : Word) (hi : i < 262144) (j : Nat) :
    (b.storeIn i v).outWord? j = b.outWord? j :=
  Memory.readWord_storeWord_other _ _ (by unfold inAddr outAddr inBase outBase; omega)

theorem Block.sameResults_storeIn {i : Nat} (b : Block) (v : Word) (hi : i < 262144) :
    b.SameResults (b.storeIn i v) :=
  ⟨rfl, rfl, rfl, rfl, rfl, rfl, b.outWord_storeIn v hi⟩

/-- Of the host's operations only a command word and reset change the results. -/
theorem HostEffect.sameResults {op : HostOp} {b c : Block} (h : HostEffect op b c) (hl : b.params.Legal)
    (hreset : op ≠ .assertReset) (hcmd : ∀ w, op ≠ .access (wr 0x000 w)) : b.SameResults c := by
  cases h with
  | none => exact .refl b
  | start w => exact absurd rfl (hcmd w)
  | illegal w => exact absurd rfl (hcmd w)
  | inLen op b v => exact b.sameResults_withInLen v
  | inWord op b i v hr hb hi => exact b.sameResults_storeIn v (hi.trans_le hl.2.1)
  | assertReset => exact absurd rfl hreset
  | releaseReset => exact b.sameResults_releaseReset

/-- Settles O26: in DONE and FAILED the block is not enabled, so a step is the host's, or none. -/
theorem resultsStayUntilTheNextCommand : Obligations.ResultsStayUntilTheNextCommand := by
  intro s t hlegal hended hstep hreset hcmd
  have hsame : s.block.SameResults t.block := by
    obtain ⟨hon, -⟩ | hblock | ⟨op, rest, hhost, heffect⟩ := step_effect hstep
    · have hbusy := (s.block.enabled_iff.mp hon).1
      rcases hended with hs | hs <;> cases hs.symm.trans hbusy
    · exact hblock ▸ .refl _
    · rw [hhost] at hreset hcmd
      exact heffect.sameResults hlegal (fun h => hreset (h ▸ rfl)) fun w h => hcmd w (h ▸ rfl)
  obtain ⟨hstatus, houtLen, htableLen, hstreamLen, hsymCount, hentries, hout⟩ := hsame
  exact ⟨hstatus, houtLen, htableLen, hstreamLen, hsymCount, hentries, hout⟩

end Sys2Proof.Machine

/-! SUPPORT. The encodings (30_encoding): the decoder of command words and the encoder as inverses, the STATUS word, the
grammar of documents, and the host-program notation run to its end. -/

namespace Sys2Proof

/-! ## Command words (30_encoding R81-R83) -/

/-- The decoder reads a well-formed instruction's word back, row by row. -/
theorem decodeWord_encode {i : Instr} (h : i.wf = true) : decodeWord (encode i) = i := by
  cases i with
  | nop | encode | decode | illegalOp3 => decide
  | illegalOp4to7 o => revert o; decide
  | illegalOp8toF o => revert o; decide
  | illegalRsvd rsvd op =>
    have hrsvd : rsvd ≠ 0 := by simpa [Instr.wf] using h
    rw [decodeWord, rsvdField_encode, opField_encode]
    exact if_pos hrsvd

/-- The encoder writes every word back from its instruction. -/
theorem encode_decodeWord (w : Word) : encode (decodeWord w) = w := by
  obtain ⟨hop, hrsvd, -⟩ := decodeWord_fields w
  rw [encode, hop, hrsvd, append_fields]

/-- A word decodes to a well-formed instruction exactly when its two fields are the instruction's. -/
theorem decodeWord_eq_iff {i : Instr} (w : Word) (h : i.wf = true) :
    decodeWord w = i ↔ rsvdField w = i.rsvd ∧ opField w = i.op := by
  constructor
  · rintro rfl
    obtain ⟨hop, hrsvd, -⟩ := decodeWord_fields w
    exact ⟨hrsvd.symm, hop.symm⟩
  · rintro ⟨hrsvd, hop⟩
    have hw : encode i = w := by rw [encode, ← hrsvd, ← hop, append_fields]
    rw [← hw, decodeWord_encode h]

/-- The four byte lanes of an instruction's word are decoded as the word (20_memory R65). -/
theorem decodeBytes_encodeBytes (i : Instr) (rest : List Byte) :
    decodeBytes (encodeBytes i ++ rest) = .ok (decodeWord (encode i), rest) := by
  simp only [encodeBytes, List.cons_append, List.nil_append, decodeBytes, Machine.lanes_append]

/-- Settles O1: the word by `decodeWord_encode`, and the byte lanes put together are the word. -/
theorem decodeOfEncodeIsTheInstruction : Obligations.DecodeOfEncodeIsTheInstruction := fun i hwf =>
  ⟨decodeWord_encode hwf, fun rest => by rw [decodeBytes_encodeBytes, decodeWord_encode hwf]⟩

/-- Settles O2: the decoder keeps both fields of the word (`decodeWord_fields`). -/
theorem encodeOfDecodeIsTheWord : Obligations.EncodeOfDecodeIsTheWord := fun w =>
  ⟨(decodeWord_fields w).2.2, encode_decodeWord w⟩

theorem legalWord_iff (w : Word) :
    legalWord w = true ↔ rsvdField w = 0 ∧ (opField w = 0 ∨ opField w = 1 ∨ opField w = 2) := by
  simp [legalWord, or_assoc]

/-- Settles O3: each of the three legal rows has its two fields (`decodeWord_eq_iff`). -/
theorem opcodeMapSelectsTheCommand : Obligations.OpcodeMapSelectsTheCommand := by
  intro w
  have hnop : decodeWord w = .nop ↔ rsvdField w = 0 ∧ opField w = 0 := decodeWord_eq_iff w rfl
  have hencode : decodeWord w = .encode ↔ rsvdField w = 0 ∧ opField w = 1 := decodeWord_eq_iff w rfl
  have hdecode : decodeWord w = .decode ↔ rsvdField w = 0 ∧ opField w = 2 := decodeWord_eq_iff w rfl
  obtain ⟨hop, -, -⟩ := decodeWord_fields w
  refine ⟨hnop, hencode, hdecode, legalWord_iff w, ?_, hop⟩
  rw [legalWord_iff, hnop, hencode, hdecode, and_or_left, and_or_left]

/-- Settles O4: each word is the encoding of its row's instruction. -/
theorem writtenOutWordsDecode : Obligations.WrittenOutWordsDecode :=
  ⟨decodeWord_encode (i := .nop) rfl, decodeWord_encode (i := .encode) rfl, decodeWord_encode (i := .decode) rfl,
    decodeWord_encode (i := .illegalOp3) rfl, decodeWord_encode (i := .illegalOp4to7 2) rfl,
    decodeWord_encode (i := .illegalOp8toF 7) rfl, decodeWord_encode (i := .illegalRsvd 0x8000000 1) rfl⟩

namespace Machine

/-! ## The grammar of documents (30_encoding R92) -/

/-- The table section found at the front of `d` is at least one entry, each with a code, written out by `tableText`. -/
theorem scanTable_sound {fuel : Nat} {d rest : List Sym} {es : List Entry} (h : scanTable fuel d = some (es, rest)) :
    es ≠ [] ∧ (∀ e ∈ es, e.2 ≠ []) ∧ d = tableText es ++ rest := by
  induction fuel generalizing d es with
  | zero => simp [scanTable] at h
  | succ fuel ih =>
    unfold scanTable at h
    split at h
    case h_1 => cases h
    case h_2 e r hentry =>
      cases h
      obtain ⟨hcode, rfl⟩ := scanEntry_sound hentry
      exact ⟨by simp, by simpa using hcode, by simp [tableText]⟩
    case h_3 e r hentry =>
      obtain ⟨hcode, rfl⟩ := scanEntry_sound hentry
      split at h
      case h_1 => cases h
      case h_2 es' rest' htable =>
        cases h
        obtain ⟨hne, hcodes, rfl⟩ := ih htable
        have hlast : es'.isEmpty = false := List.isEmpty_eq_false_iff.mpr hne
        exact ⟨by simp, List.forall_mem_cons.mpr ⟨hcode, hcodes⟩, by simp [tableText, hlast]⟩

/-- A written-out table section is found whole, given one unit of fuel per entry. -/
theorem scanTable_complete {fuel : Nat} {es : List Entry} (rest : List Sym) (hne : es ≠ [])
    (hcodes : ∀ e ∈ es, e.2 ≠ []) (hfuel : es.length ≤ fuel) :
    scanTable fuel (tableText es ++ rest) = some (es, rest) := by
  induction es generalizing fuel with
  | nil => exact absurd rfl hne
  | cons e es ih =>
    obtain ⟨hcode, hcodes⟩ := List.forall_mem_cons.mp hcodes
    obtain ⟨fuel, rfl⟩ := Nat.exists_eq_add_of_le' (Nat.one_le_of_lt hfuel)
    rw [scanTable, tableText, List.append_assoc, scanEntry_complete e _ _ hcode]
    cases es with
    | nil => rfl
    | cons f es =>
      have htable := ih (by simp) hcodes (Nat.le_of_succ_le_succ hfuel)
      simp only [List.isEmpty_cons, htable]

/-- A bitstream line is accepted exactly when it is the characters of at least one bit. -/
theorem streamOk_iff (line : List Sym) : streamOk line = true ↔ ∃ c : Code, c ≠ [] ∧ line = bitchars c := by
  constructor
  · intro h
    obtain ⟨hne, hbits⟩ : line ≠ [] ∧ ∀ c ∈ line, isBit c = true := by simpa [streamOk] using h
    exact ⟨line.map charbit, by simpa using hne, (bitchars_map_charbit hbits).symm⟩
  · rintro ⟨c, hne, rfl⟩
    simp [streamOk, bitchars, hne]

theorem validate_eq_some_iff (d : List Sym) (es : List Entry) (line : List Sym) :
    validate d = some (es, line) ↔ scanTable d.length d = some (es, line) ∧ streamOk line = true := by
  unfold validate
  constructor
  · intro h
    split at h
    case h_1 => cases h
    case h_2 es' line' htable =>
      split at h
      case isTrue hstream => cases h; exact ⟨htable, hstream⟩
      case isFalse => cases h
  · rintro ⟨htable, hstream⟩
    simp only [htable, hstream, if_true]

/-- Settles O52: the scanner of the table section is sound and complete for `tableText`, and the rest is the stream. -/
theorem validatorAcceptsExactlyTheGrammar : Obligations.ValidatorAcceptsExactlyTheGrammar := by
  intro d es line
  rw [validate_eq_some_iff, streamOk_iff]
  constructor
  · rintro ⟨htable, stream, hne, rfl⟩
    obtain ⟨hes, hcodes, hd⟩ := scanTable_sound htable
    exact ⟨hes, hcodes, stream, hne, rfl, hd⟩
  · rintro ⟨hes, hcodes, stream, hne, rfl, rfl⟩
    have hfuel : es.length ≤ (tableText es ++ bitchars stream).length :=
      (tableText_length_ge es).trans (by simp)
    exact ⟨scanTable_complete _ hes hcodes hfuel, stream, hne, rfl⟩

/-! ## The STATUS word (30_encoding R84, R85) -/

theorem Block.stateField_statusWord (b : Block) : stateField b.statusWord = b.state.code :=
  BitVec.extractLsb'_append_eq_right

/-- The STATUS word from bit 4 up is PHASE, ERR, OP and the upper reserved bits. -/
theorem Block.extract_statusWord (b : Block) {start : Nat} (len : Nat) (h : 4 ≤ start) :
    b.statusWord.extractLsb' start len =
      ((0 : BitVec 16) ++ b.op ++ b.err.code ++ b.phase.code).extractLsb' (start - 2 - 2) len :=
  (BitVec.extractLsb'_append_eq_of_le (by omega)).trans (BitVec.extractLsb'_append_eq_of_le (by omega))

theorem Block.phaseField_statusWord (b : Block) : phaseField b.statusWord = b.phase.code :=
  (b.extract_statusWord 4 (by decide)).trans BitVec.extractLsb'_append_eq_right

theorem Block.errField_statusWord (b : Block) : errField b.statusWord = b.err.code := by
  rw [errField, b.extract_statusWord 4 (by decide), BitVec.extractLsb'_append_eq_of_le (by decide)]
  exact BitVec.extractLsb'_append_eq_right

theorem Block.statusOpField_statusWord (b : Block) : statusOpField b.statusWord = b.op := by
  rw [statusOpField, b.extract_statusWord 4 (by decide), BitVec.extractLsb'_append_eq_of_le (by decide),
    BitVec.extractLsb'_append_eq_of_le (by decide)]
  exact BitVec.extractLsb'_append_eq_right

theorem Block.statusWord_reserved (b : Block) :
    b.statusWord.extractLsb' 2 2 = 0 ∧ b.statusWord.extractLsb' 16 16 = 0 := by
  constructor
  · exact (BitVec.extractLsb'_append_eq_of_le (by decide)).trans BitVec.extractLsb'_append_eq_right
  · rw [b.extract_statusWord 16 (by decide), BitVec.extractLsb'_append_eq_of_le (by decide),
      BitVec.extractLsb'_append_eq_of_le (by decide), BitVec.extractLsb'_append_eq_of_le (by decide)]
    rfl

theorem toNat_append_eq_add {m n : Nat} (x : BitVec m) (y : BitVec n) :
    (x ++ y).toNat = x.toNat * 2 ^ n + y.toNat := by
  rw [BitVec.toNat_append, ← Nat.shiftLeft_add_eq_or_of_lt y.isLt, Nat.shiftLeft_eq]

theorem Block.statusWord_toNat (b : Block) : b.statusWord.toNat =
    b.op.toNat * 2 ^ 12 + b.err.code.toNat * 2 ^ 8 + b.phase.code.toNat * 2 ^ 4 + b.state.code.toNat := by
  simp only [Block.statusWord, toNat_append_eq_add, BitVec.ofNat_eq_ofNat, BitVec.toNat_zero]
  omega

/-- Settles O27, field by field; `code` is the numbering. -/
theorem statusWordFormat : Obligations.StatusWordFormat := by
  intro b
  rw [b.stateField_statusWord, b.phaseField_statusWord, b.errField_statusWord]
  obtain ⟨hlow, hhigh⟩ := b.statusWord_reserved
  exact ⟨by cases b.state <;> rfl, by cases b.phase <;> rfl, by cases b.err <;> rfl, b.statusOpField_statusWord, hlow,
    hhigh, b.statusWord_toNat⟩

/-! ## `WAIT` (30_encoding R101) -/

/-- STATE reads 1 exactly while BUSY. -/
theorem Block.stateField_eq_one_iff (b : Block) : stateField b.statusWord = 1 ↔ b.state = .busy := by
  rw [b.stateField_statusWord]
  cases b.state <;> decide

/-- Off BUSY, `WAIT` is one read of STATUS. -/
theorem hostStep_wait_notBusy {s : State} (hr : s.block.inReset = false) (hidle : s.block.state ≠ .busy) :
    hostStep .wait s = .next (s.record (rd 0x004) (.data s.block.statusWord)) :=
  (if_neg fun h => hidle (s.block.stateField_eq_one_iff.mp h)).trans (busAccess_rd_reg hr ⟨rfl, by decide⟩)

/-- While BUSY, `WAIT` reads STATUS and is the host's next operation again. -/
theorem hostStep_wait_busy {s : State} (hr : s.block.inReset = false) (hbusy : s.block.state = .busy) :
    hostStep .wait s =
      .next ({ s with host := .wait :: s.host }.record (rd 0x004) (.data s.block.statusWord)) :=
  (if_pos (s.block.stateField_eq_one_iff.mpr hbusy)).trans
    (busAccess_rd_reg (s := { s with host := .wait :: s.host }) hr ⟨rfl, by decide⟩)

/-- Settles O38: where the host moves the step is `hostStep .wait`. -/
theorem waitRepeatsWhileBusy : Obligations.WaitRepeatsWhileBusy := by
  intro s rest hhost hr
  constructor
  · intro hidle
    rw [step_host hhost hidle]
    exact hostStep_wait_notBusy hr hidle
  · intro hbusy hslot
    have hon : s.block.enabled = true := s.block.enabled_iff.mpr ⟨hbusy, hr⟩
    rw [step_hostMoves hhost fun _ => hslot, if_pos hon, ← s.takeSlot_block]
    exact hostStep_wait_busy (by simpa using hr) (by simpa using hbusy)

/-! ## Several steps -/

theorem steps_succ {n : Nat} {s t : State} (h : step s = .next t) : steps (n + 1) s = steps n t := by
  simp only [steps, h]

/-- A run that completes is followed by the rest of the run. -/
theorem steps_add {m : Nat} (n : Nat) {s t : State} (h : steps m s = .next t) : steps (m + n) s = steps n t := by
  induction m generalizing s with
  | zero =>
    obtain rfl : s = t := Host.Outcome.next.inj h
    rw [Nat.zero_add]
  | succ m ih =>
    unfold steps at h
    split at h
    case h_1 u hstep => rw [Nat.succ_add, steps_succ hstep, ih h]
    case h_2 => cases h
    case h_3 => cases h

/-! ## `LOADSTR` (30_encoding R101) -/

/-- `IN[i] <- cs[0]; IN[i+1] <- cs[1]; ...`, as host writes while not BUSY. -/
def Block.storeIns (b : Block) (i : Nat) (cs : List Sym) : Block :=
  match cs with
  | [] => b
  | c :: r => Block.storeIns (b.storeIn i (wordOfSym c)) (i + 1) r

/-- `storeIns` changes memory alone. -/
theorem Block.storeIns_eq (b : Block) (i : Nat) (cs : List Sym) :
    b.storeIns i cs = { b with mem := (b.storeIns i cs).mem } := by
  induction cs generalizing b i with
  | nil => rfl
  | cons c r ih => exact ih _ _

@[simp] theorem Block.storeIns_params (b : Block) (i : Nat) (cs : List Sym) :
    (b.storeIns i cs).params = b.params := by rw [Block.storeIns_eq]

@[simp] theorem Block.storeIns_inReset (b : Block) (i : Nat) (cs : List Sym) :
    (b.storeIns i cs).inReset = b.inReset := by rw [Block.storeIns_eq]

@[simp] theorem Block.storeIns_state (b : Block) (i : Nat) (cs : List Sym) :
    (b.storeIns i cs).state = b.state := by rw [Block.storeIns_eq]

theorem Block.inSym_storeIns_below (b : Block) {i j : Nat} (cs : List Sym) (h : j < i) :
    (b.storeIns i cs).inSym j = b.inSym j := by
  induction cs generalizing b i with
  | nil => rfl
  | cons c r ih => rw [Block.storeIns, ih _ (by omega), Block.inSym_storeIn_other _ _ (by omega)]

/-- A run of IN words holds the symbols written, cut to `SYM_W` bits. -/
theorem Block.inSym_storeIns (b : Block) (i : Nat) (cs : List Sym) (k : Nat) (h : k < cs.length) :
    (b.storeIns i cs).inSym (i + k) = symOfWord b.params.symW (wordOfSym cs[k]) := by
  induction cs generalizing b i k with
  | nil => cases h
  | cons c r ih =>
    rw [Block.storeIns]
    cases k with
    | zero => rw [Block.inSym_storeIns_below _ _ (by omega)]; exact b.inSym_storeIn_same i _
    | succ k =>
      rw [← Nat.add_assoc, Nat.add_right_comm]
      exact ih (b.storeIn i (wordOfSym c)) (i + 1) k (Nat.lt_of_succ_lt_succ h)

theorem Block.SameResults.trans {a b c : Block} (hab : a.SameResults b) (hbc : b.SameResults c) :
    a.SameResults c :=
  ⟨hbc.statusWord.trans hab.statusWord, hbc.outLen.trans hab.outLen, hbc.tableLen.trans hab.tableLen,
    hbc.streamLen.trans hab.streamLen, hbc.symCount.trans hab.symCount, hbc.entries.trans hab.entries,
    fun i => (hbc.outWord i).trans (hab.outWord i)⟩

theorem Block.sameResults_storeIns (b : Block) (i : Nat) (cs : List Sym) (h : i + cs.length ≤ 262144) :
    b.SameResults (b.storeIns i cs) := by
  induction cs generalizing b i with
  | nil => exact .refl b
  | cons c r ih =>
    rw [List.length_cons] at h
    exact (b.sameResults_storeIn _ (by omega)).trans (ih _ _ (by omega))

/-- The writes of `LOADSTR`, run from index `k` while not BUSY, store the symbols. -/
theorem steps_storeIns (cs : List Sym) (k : Nat) {s : State} {rest : List HostOp}
    (hhost : s.host = (cs.zipIdx k).map (fun x => .access (wr (inAddr x.2) (wordOfSym x.1))) ++ rest)
    (hr : s.block.inReset = false) (hidle : s.block.state ≠ .busy) (hcap : k + cs.length ≤ s.block.params.inCap) :
    ∃ u, steps cs.length s = .next u ∧ u.host = rest ∧ u.block = s.block.storeIns k cs := by
  induction cs generalizing k s with
  | nil => exact ⟨s, rfl, hhost, rfl⟩
  | cons c r ih =>
    rw [List.length_cons] at hcap ⊢
    have hk : k < s.block.params.inCap := by omega
    have hrest : k + 1 + r.length ≤ s.block.params.inCap := by omega
    have hstep := (step_host hhost hidle).trans (busAccess_wr_in (wordOfSym c) hr hk)
    rw [Block.writeIn_notBusy _ _ hidle] at hstep
    rw [steps_succ hstep]
    exact ih (k + 1) rfl hr hidle hrest

/-- The text of a block whose IN_LEN is set to the length of what its IN words hold. -/
theorem Block.text_withInLen {b : Block} {t : List Sym} (hlen : t.length < 2 ^ 32)
    (hsym : ∀ i (h : i < t.length), b.inSym i = t[i]) :
    ({ b with inLen := BitVec.ofNat 32 t.length } : Block).text = t := by
  have htextLen : ({ b with inLen := BitVec.ofNat 32 t.length } : Block).textLen = t.length := by
    rw [Block.textLen, BitVec.toNat_ofNat, Nat.mod_eq_of_lt hlen]
  refine List.ext_getElem (by rw [Block.text_length, htextLen]) fun i _ hi => ?_
  simp only [Block.text, Block.textFrom, List.getElem_map, List.getElem_range', Nat.zero_add, Nat.one_mul]
  exact hsym i hi

/-- Settles O39: the writes to IN store the symbols (`steps_storeIns`), and the write to IN_LEN makes them the text. -/
theorem loadStrMakesTheText : Obligations.LoadStrMakesTheText := by
  intro s t rest hhost hr hidle hlegal hcap hwidth
  have hsize : t.length ≤ 262144 := hcap.trans hlegal.2.1
  rw [loadStr, List.append_assoc] at hhost
  obtain ⟨u, hsteps, huhost, hublock⟩ := steps_storeIns t 0 hhost hr hidle (by omega)
  have huidle : u.block.state ≠ .busy := by rwa [hublock, Block.storeIns_state]
  have huReset : u.block.inReset = false := by rwa [hublock, Block.storeIns_inReset]
  have hstep := (step_host huhost huidle).trans
    (busAccess_wr_inLen (BitVec.ofNat 32 t.length) huReset)
  rw [Block.writeInLen_notBusy _ huidle, hublock] at hstep
  have hsym : ∀ i (h : i < t.length), (s.block.storeIns 0 t).inSym i = t[i] := fun i hi => by
    have hstored := s.block.inSym_storeIns 0 t i hi
    rwa [Nat.zero_add, hwidth _ (List.getElem_mem hi)] at hstored
  obtain ⟨hstatus, houtLen, htableLen, hstreamLen, hsymCount, hentries, hout⟩ :=
    (s.block.sameResults_storeIns 0 t (by omega)).trans (Block.sameResults_withInLen _ (BitVec.ofNat 32 t.length))
  exact ⟨_, (steps_add 1 hsteps).trans (steps_succ hstep), Block.text_withInLen (by omega) hsym, rfl, hstatus,
    s.block.storeIns_params 0 t, houtLen, htableLen, hstreamLen, hsymCount, hentries, hout⟩

/-! ## `READOUT` (30_encoding R101) -/

/-- `OUT[0..OUT_LEN)`: the words the block wrote. -/
def Block.outWords (b : Block) : List Word := (List.range b.outLen.toNat).map fun i => (b.outWord? i).getD 0

@[simp] theorem Block.outWords_length (b : Block) : b.outWords.length = b.outLen.toNat := by simp [Block.outWords]

/-- In a block that meets the invariant every one of them was written (10_state R34). -/
theorem Block.Inv.outWord_eq {b : Block} (h : b.Inv) {i : Nat} (hi : i < b.outWords.length) :
    b.outWord? i = some b.outWords[i] := by
  obtain ⟨-, -, hwritten⟩ := h.result
  obtain ⟨w, hw⟩ := Option.isSome_iff_exists.mp (hwritten i (by simpa using hi))
  simp [Block.outWords, hw]

/-- A read below OUT_LEN in DONE returns the word the block wrote. -/
theorem busAccess_rd_outWord {s : State} {i : Nat} {w : Word} (hinv : s.block.Inv) (hdone : s.block.state = .done)
    (hi : i < s.block.outLen.toNat) (hw : s.block.outWord? i = some w) :
    busAccess (rd (outAddr i)) s = .next (s.record (rd (outAddr i)) (.data w)) := by
  obtain ⟨w', hw', hread⟩ := outReadsDefinedBelowOutLen s i hinv hdone hi
  obtain rfl : w = w' := Option.some.inj (hw.symm.trans hw')
  exact hread

/-- The reads of `READOUT`, run from index `k` in DONE, return the words of OUT in order, and only the log gains. -/
theorem steps_outReads (ws : List Word) (k : Nat) {s : State} {rest : List HostOp}
    (hhost : s.host = (List.range' k ws.length).map (fun i => .access (rd (outAddr i))) ++ rest)
    (hinv : s.block.Inv) (hdone : s.block.state = .done) (hlen : k + ws.length ≤ s.block.outLen.toNat)
    (hws : ∀ i (h : i < ws.length), s.block.outWord? (k + i) = some ws[i]) :
    steps ws.length s = .next { s with
      host := rest
      log := ((ws.zipIdx k).map fun x => (rd (outAddr x.2), Response.data x.1)).reverse ++ s.log } := by
  induction ws generalizing k s with
  | nil => cases s; cases hhost; rfl
  | cons w r ih =>
    rw [List.length_cons] at hlen hhost ⊢
    have hk : k < s.block.outLen.toNat := by omega
    have hrestLen : k + 1 + r.length ≤ s.block.outLen.toNat := by omega
    have hstep := (step_host hhost (by simp [hdone])).trans
      (busAccess_rd_outWord hinv hdone hk (hws 0 (Nat.succ_pos _)))
    have hrest : ∀ i (h : i < r.length), s.block.outWord? (k + 1 + i) = some r[i] := fun i hi => by
      rw [Nat.add_right_comm, Nat.add_assoc]
      exact hws (i + 1) (Nat.succ_lt_succ hi)
    rw [steps_succ hstep]
    refine Eq.trans (ih (k + 1) rfl hinv hdone hrestLen hrest) ?_
    simp [State.record]

/-- `READOUT` reads OUT_LEN and puts the reads of that many OUT words at the head of the host's list. -/
theorem hostStep_readOut {s : State} (hr : s.block.inReset = false) :
    hostStep .readOut s = .next ({ s with host := outReads s.block.outLen.toNat ++ s.host }.record (rd 0x00C)
      (.data s.block.outLen)) :=
  busAccess_rd_reg (s := { s with host := outReads s.block.outLen.toNat ++ s.host }) (off := 0x00C) hr (by decide)

/-- Settles O40: the read of OUT_LEN (`hostStep_readOut`), then those of the words written (`steps_outReads`). -/
theorem readOutReturnsTheOutput : Obligations.ReadOutReturnsTheOutput := by
  intro s rest hhost hinv hdone
  have hstep := (step_host hhost (by simp [hdone])).trans (hostStep_readOut (hinv.inReset_of_done hdone))
  refine ⟨_, s.block.outWords, ?_, s.block.outWords_length, fun i hi => hinv.outWord_eq hi, rfl⟩
  rw [steps_succ hstep, ← s.block.outWords_length]
  refine steps_outReads s.block.outWords 0 ?_ hinv hdone (by simp) fun i hi => ?_
  · rw [s.block.outWords_length]; rfl
  · rw [Nat.zero_add]; exact hinv.outWord_eq hi

end Machine

end Sys2Proof

/-! SUPPORT. The commands (40_command): what each command word does, how a step comes to run it or the block agent, and
of a running operation its outcome, its end and its phases. -/

namespace Sys2Proof.Machine

/-! ## The outcome of an operation (40_command R120) -/

/-- Both blocks stand in the same STATUS with the same result registers, and in DONE with the same output. -/
structure Block.SameOutcome (b c : Block) : Prop where
  state : b.state = c.state
  phase : b.phase = c.phase
  err : b.err = c.err
  op : b.op = c.op
  outLen : b.outLen = c.outLen
  tableLen : b.tableLen = c.tableLen
  streamLen : b.streamLen = c.streamLen
  symCount : b.symCount = c.symCount
  entries : b.entries = c.entries
  outWord : b.state = .done → ∀ j, j < b.outLen.toNat → b.outWord? j = c.outWord? j

/-- The end state of an operation is fixed by its OP and the outcome of its function, as far as the host sees it. -/
theorem Block.EndsAs.sameOutcome {b0 b c0 c : Block} {r : OpResult} (hb : b0.EndsAs b r) (hc : c0.EndsAs c r)
    (hop : b0.op = c0.op) : b.SameOutcome c := by
  obtain ⟨-, -, -, hbOp, -, -, hb⟩ := hb
  obtain ⟨-, -, -, hcOp, -, -, hc⟩ := hc
  have hops : b.op = c.op := by rw [hbOp, hcOp, hop]
  cases r with
  | ok out res last =>
    obtain ⟨hbState, hbPhase, hbErr, hbOutLen, hbTableLen, hbStreamLen, hbSymCount, hbEntries, hlen, -, hbOut, -⟩ := hb
    obtain ⟨hcState, hcPhase, hcErr, hcOutLen, hcTableLen, hcStreamLen, hcSymCount, hcEntries, -, -, hcOut, -⟩ := hc
    refine ⟨hbState.trans hcState.symm, hbPhase.trans hcPhase.symm, hbErr.trans hcErr.symm, hops,
      hbOutLen.trans hcOutLen.symm, hbTableLen.trans hcTableLen.symm, hbStreamLen.trans hcStreamLen.symm,
      hbSymCount.trans hcSymCount.symm, hbEntries.trans hcEntries.symm, fun _ j hj => ?_⟩
    have hjOut : j < out.length := by
      rw [hbOutLen, BitVec.toNat_ofNat, hlen] at hj
      exact hj.trans_le (Nat.mod_le _ _)
    rw [hbOut j hjOut, hcOut j hjOut]
  | err code phase =>
    obtain ⟨hbState, hbPhase, hbErr, ⟨hbOutLen, hbTableLen, hbStreamLen, hbSymCount, hbEntries⟩, -⟩ := hb
    obtain ⟨hcState, hcPhase, hcErr, ⟨hcOutLen, hcTableLen, hcStreamLen, hcSymCount, hcEntries⟩, -⟩ := hc
    exact ⟨hbState.trans hcState.symm, hbPhase.trans hcPhase.symm, hbErr.trans hcErr.symm, hops,
      hbOutLen.trans hcOutLen.symm, hbTableLen.trans hcTableLen.symm, hbStreamLen.trans hcStreamLen.symm,
      hbSymCount.trans hcSymCount.symm, hbEntries.trans hcEntries.symm, fun hdone => by simp [hbState] at hdone⟩

/-- Where an accepted operation is heading depends on OP, the parameters and the text alone. -/
theorem Block.outcome_start_congr {b c : Block} (op : BitVec 4) (hparams : b.params = c.params)
    (htext : b.text = c.text) : (b.start op).outcome = (c.start op).outcome := by
  simp only [Block.outcome, Block.start_op, Block.start_params, Block.start_text, hparams, htext]

/-- ENCODE and DECODE start an operation with OP 1 or 2 (40_command R114). -/
theorem exec_start {i : Instr} (hi : i = .encode ∨ i = .decode) :
    ∃ op : BitVec 4, (op = 1 ∨ op = 2) ∧ ∀ s, exec i s = .next (s.command fun b => b.start op) := by
  rcases hi with rfl | rfl
  · exact ⟨1, .inl rfl, fun _ => rfl⟩
  · exact ⟨2, .inr rfl, fun _ => rfl⟩

/-- Settles O14: both operations reach the end state of one outcome (`Block.outcome_start_congr`). -/
theorem outcomeIsIndependent : Obligations.OutcomeIsIndependent := by
  intro i s1 s2 hi hinv1 hinv2 hparams hreset1 hreset2 hidle1 hidle2 hlen hfits htext
  obtain ⟨op, hop, hexec⟩ := exec_start hi
  have hout := Block.outcome_start_congr op hparams.symm htext.symm
  obtain ⟨t1, b1, hexec1, -, hop1, hticks1, hends1⟩ :=
    exec_start_reaches_end (hexec s1) hop rfl hinv1 hreset1 hidle1 hfits
  obtain ⟨t2, b2, hexec2, -, hop2, hticks2, hends2⟩ :=
    exec_start_reaches_end (hexec s2) hop hout hinv2 hreset2 hidle2 (by rwa [← hlen, ← hparams])
  obtain ⟨hstate, hphase, herr, hopEq, houtLen, htableLen, hstreamLen, hsymCount, hentries, houtWord⟩ :=
    hends1.sameOutcome hends2 (hop1.trans hop2.symm)
  exact ⟨t1, t2, b1, b2, tickBound s1.block.inLen.toNat, hexec1, hexec2,
    fun k hk => ⟨hticks1 k hk, hticks2 k (hlen ▸ hk)⟩, hends1.ended, hstate, hphase, herr, hopEq, houtLen, htableLen,
    hstreamLen, hsymCount, hentries, houtWord⟩

/-! ## The end of an operation (40_command R119) -/

theorem Block.ticks_notEnabled {b : Block} (n : Nat) (h : ¬ b.enabled = true) : b.ticks n = .ok b := by
  cases n with
  | zero => rfl
  | succ n => exact if_neg h

/-- `m + n` iterations are `m` iterations and then `n`. -/
theorem Block.ticks_bind (m n : Nat) (b : Block) : (b.ticks m >>= fun c => c.ticks n) = b.ticks (m + n) := by
  induction m generalizing b with
  | zero => rw [Nat.zero_add]; rfl
  | succ m ih =>
    by_cases hon : b.enabled = true
    · rw [Nat.add_right_comm, Block.ticks, Block.ticks, if_pos hon, if_pos hon]
      cases b.tick with
      | error f => rfl
      | ok c => exact ih c
    · rw [b.ticks_notEnabled _ hon, b.ticks_notEnabled _ hon]
      exact b.ticks_notEnabled n hon

/-- Block steps in a row make the iterations of all of them together. -/
theorem Block.foldlM_ticks (extras : List Nat) (b : Block) :
    extras.foldlM (fun c extra => c.ticks (extra + 1)) b = b.ticks (extras.map (· + 1)).sum := by
  induction extras generalizing b with
  | nil => rfl
  | cons extra rest ih =>
    rw [List.foldlM_cons, List.map_cons, List.sum_cons, ← Block.ticks_bind (extra + 1)]
    exact bind_congr ih

/-- Settles O15: every block step makes at least one iteration, and `Block.ticks_end` bounds the iterations. -/
theorem operationsTerminate : Obligations.OperationsTerminate := by
  intro s extras hinv hbusy hbound
  have hsum : extras.length ≤ (extras.map (· + 1)).sum := by simp
  obtain ⟨c, hticks, -, hended⟩ := s.block.ticks_end _ hinv hbusy (hbound.trans hsum)
  exact ⟨c, (Block.foldlM_ticks extras s.block).trans hticks, hended⟩

/-! ## The phases of an operation (40_command R117) -/

/-- Settles O23: `Block.ticks_ok` has the order of the phases, and the invariant after the step that they are of OP. -/
theorem phaseOnlyAdvances : Obligations.PhaseOnlyAdvances := by
  intro extra s t hinv hbusy hstep hbusy'
  obtain ⟨c, hticks, hinv', hframe, -, -, hphase⟩ := s.block.ticks_ok (extra + 1) hinv hbusy
  obtain rfl : c = t.block := Except.ok.inj (hticks.symm.trans (blockStep_next hstep).1)
  obtain ⟨hle, -, hne⟩ := hphase hbusy'
  obtain ⟨-, hof, -, -⟩ := hinv'.base.busy hbusy'
  exact ⟨hframe.op, hof, hne extra.succ_pos, hle⟩

/-! ## What each command word does (40_command R110-R114) -/

/-- Settles O7: NOP's effect is the identity, accepted or not. -/
theorem nopHasNoEffect : Obligations.NopHasNoEffect := by
  intro s
  by_cases hbusy : s.block.state = .busy
  · exact congrArg Host.Outcome.next (State.command_busy _ hbusy)
  · exact congrArg Host.Outcome.next (State.command_accepted _ hbusy)

/-- Settles O10: whatever the effect of the word, `State.command` leaves it out while BUSY. -/
theorem commandWhileBusyIsIgnored : Obligations.CommandWhileBusyIsIgnored := by
  intro i s hbusy
  obtain ⟨f, hexec, -⟩ := exec_cases i s
  rw [hexec, State.command_busy f hbusy]

/-- Every instruction but NOP, ENCODE and DECODE, accepted, fails with its OP field (40_command R112). -/
theorem exec_illegal {i : Instr} {s : State} (hi : ¬ (i = .nop ∨ i = .encode ∨ i = .decode))
    (hidle : s.block.state ≠ .busy) : exec i s = .next { s with block := illegalBlock s.block i.op } := by
  obtain ⟨f, hexec, ⟨rfl, -⟩ | ⟨rfl, -⟩ | ⟨rfl, -⟩ | ⟨-, rfl⟩⟩ := exec_cases i s
  · exact absurd (.inl rfl) hi
  · exact absurd (.inr (.inl rfl)) hi
  · exact absurd (.inr (.inr rfl)) hi
  · rw [hexec, State.command_accepted _ hidle]
    rfl

/-- A word with a reserved bit set or OP at least 3 is none of the three legal commands (30_encoding R83). -/
theorem decodeWord_illegal {w : Word} (h : rsvdField w ≠ 0 ∨ 3 ≤ (opField w).toNat) :
    ¬ (decodeWord w = .nop ∨ decodeWord w = .encode ∨ decodeWord w = .decode) := by
  obtain ⟨-, -, -, hlegal, hcommands, -⟩ := opcodeMapSelectsTheCommand w
  rw [← hcommands, hlegal]
  rintro ⟨hrsvd, hop⟩
  rcases h with hne | hge
  · exact hne hrsvd
  · rcases hop with hop | hop | hop <;> simp [hop] at hge

/-- Settles O8: the four illegal rows and every illegal word by `exec_illegal`. -/
theorem illegalCommandFails : Obligations.IllegalCommandFails := by
  intro s hidle
  refine ⟨exec_illegal (by simp) hidle, fun _ => exec_illegal (by simp) hidle, fun _ => exec_illegal (by simp) hidle,
    fun _ _ => exec_illegal (by simp) hidle, fun w hw => ?_⟩
  rw [exec_illegal (decodeWord_illegal hw) hidle, (decodeWord_fields w).1]

/-- The start of an operation, in both cases of the capacity check (40_command R114). -/
theorem Block.start_eq_startedBlock (b : Block) (op : BitVec 4) : b.start op = startedBlock b op := by
  by_cases hover : b.params.inCap < b.inLen.toNat
  · rw [Block.start_overflow hover, startedBlock, if_pos hover, if_pos hover]
  · rw [Block.start_fits (Nat.not_lt.mp hover), startedBlock, if_neg hover, if_neg hover]

/-- Settles O9: the accepted word starts the operation (`Block.start_eq_startedBlock`). -/
theorem encodeAndDecodeStart : Obligations.EncodeAndDecodeStart := by
  intro s hidle
  have haccepted (op : BitVec 4) :
      s.command (fun b => b.start op) = { s with block := startedBlock s.block op } := by
    rw [State.command_accepted _ hidle, Block.start_eq_startedBlock]
  exact ⟨congrArg Host.Outcome.next (haccepted 1), congrArg Host.Outcome.next (haccepted 2)⟩

/-- The parameters, the reset input, IN_LEN, the epoch and memory are the same in both blocks. -/
structure Block.SameInputs (b c : Block) : Prop where
  params : c.params = b.params
  inReset : c.inReset = b.inReset
  inLen : c.inLen = b.inLen
  epoch : c.epoch = b.epoch
  mem : c.mem = b.mem

theorem Block.SameInputs.refl (b : Block) : b.SameInputs b := ⟨rfl, rfl, rfl, rfl, rfl⟩

theorem Block.sameInputs_start (b : Block) (op : BitVec 4) : b.SameInputs (b.start op) :=
  ⟨b.start_params op, b.start_inReset op, b.start_inLen op, b.start_epoch op, b.start_mem op⟩

theorem Block.sameInputs_illegal (b : Block) (op : BitVec 4) : b.SameInputs (b.illegal op) :=
  ⟨rfl, rfl, rfl, rfl, rfl⟩

/-- An effect that leaves the inputs of a block alone leaves them alone as a command, accepted or not. -/
theorem State.sameInputs_command {s : State} {f : Block → Block} (h : s.block.SameInputs (f s.block)) :
    s.block.SameInputs (s.command f).block := by
  by_cases hbusy : s.block.state = .busy
  · rw [State.command_busy f hbusy]
    exact .refl _
  · rw [State.command_accepted f hbusy]
    exact h

/-- Settles O11: the effect of each word leaves the block's inputs alone, and `State.command` the outside world. -/
theorem commandWordsFrame : Obligations.CommandWordsFrame := by
  intro i s
  obtain ⟨f, hexec, heffect⟩ := exec_cases i s
  have hsame : s.block.SameInputs (f s.block) := by
    rcases heffect with ⟨-, rfl⟩ | ⟨-, rfl⟩ | ⟨-, rfl⟩ | ⟨-, rfl⟩
    · exact .refl _
    · exact s.block.sameInputs_start 1
    · exact s.block.sameInputs_start 2
    · exact s.block.sameInputs_illegal i.op
  obtain ⟨hparams, hreset, hlen, hepoch, hmem⟩ := State.sameInputs_command hsame
  exact ⟨_, hexec, hparams, hreset, hlen, hepoch, fun a => by rw [hmem], rfl, rfl, rfl, rfl⟩

/-! ## What a step runs -/

/-- Where the host moves, a step with a write to CMD next is `exec` of the decoded word (40_command R110). -/
theorem step_command {s : State} {w : Word} {rest : List HostOp} (hhost : s.host = .access (wr 0x000 w) :: rest)
    (hreset : s.block.inReset = false) (hslot : s.block.enabled = true → s.nextSlot = .host) :
    step s = exec (decodeWord w) { (if s.block.enabled then s.takeSlot else s) with
      host := rest, log := (wr 0x000 w, .ack) :: s.log } := by
  have hlog : (if s.block.enabled then s.takeSlot else s).log = s.log := by split <;> simp
  rw [step_hostMoves hhost hslot, ← hlog]
  exact busAccess_cmd _ w (by split <;> simpa using hreset)

/-- The bytes of a table word, put together, are the word. -/
theorem decodeTableWord_eq (nbits w : Nat) : decodeTableWord nbits w = some (decodeWord (tableWord nbits w)) := by
  simp only [decodeTableWord, decodeBytes, lanes_append]

/-- Settles O5: `step_command`, in the three ways the host can be the one that moves. -/
theorem stepRunsTheDecodedCommand : Obligations.StepRunsTheDecodedCommand := by
  refine ⟨fun s w rest hhost hreset hidle => ?_, fun s w rest hhost hreset hbusy hslot => ?_, fun s nbits w i hi => ?_⟩
  · have hoff : ¬ s.block.enabled = true := fun hon => hidle (s.block.enabled_iff.mp hon).1
    rw [step_command hhost hreset fun hon => absurd hon hoff, if_neg hoff]
  · have hon : s.block.enabled = true := s.block.enabled_iff.mpr ⟨hbusy, hreset⟩
    rw [step_command hhost hreset fun _ => hslot, if_pos hon]
  · obtain rfl : decodeWord (tableWord nbits w) = i := Option.some.inj ((decodeTableWord_eq nbits w).symm.trans hi)
    have hhost : (s.withFetchWord nbits w).host = .access (wr 0x000 (tableWord nbits w)) :: s.host := rfl
    by_cases hbusy : s.block.state = .busy
    · have hon : (s.withFetchWord nbits w).block.enabled = true := (Block.enabled_iff _).mpr ⟨hbusy, rfl⟩
      obtain ⟨hslot, htake⟩ := State.takeSlot_cons (s := s.withFetchWord nbits w) (if_pos hbusy)
      rw [step_command hhost rfl fun _ => hslot, if_pos hon, htake]
      rfl
    · have hoff : ¬ (s.withFetchWord nbits w).block.enabled = true := fun hon =>
        hbusy ((Block.enabled_iff _).mp hon).1
      have hschedule : (s.withFetchWord nbits w).schedule = s.schedule := if_neg hbusy
      rw [step_command hhost rfl fun hon => absurd hon hoff, if_neg hoff, ← hschedule]
      rfl

/-- Settles O22: of the three kinds of step only the idle one is left (`step_cases`). -/
theorem idleMachineStaysAsItIs : Obligations.IdleMachineStaysAsItIs := by
  intro s hidle hhost
  obtain ⟨-, -, hon, -⟩ | ⟨-, -, hstep⟩ | ⟨op, rest, -, hcons, -⟩ := step_cases s
  · exact absurd (s.block.enabled_iff.mp hon).1 hidle
  · exact hstep
  · cases hhost.symm.trans hcons

/-- Where the host has nothing to do and the block is enabled, the block makes one iteration. -/
theorem hostMove_block {s : State} (hhost : s.host = []) (hon : s.block.enabled = true) :
    hostMove s = blockStep 0 s := by
  simp only [hostMove, hhost, if_pos hon]

/-- Settles O59: while the block is enabled `agentStep` follows the schedule's choice. -/
theorem stepRunsTheBlockAgent : Obligations.StepRunsTheBlockAgent := by
  intro s hon
  constructor
  · intro extra hslot
    simp only [step, agentStep, if_pos hon, hslot]
  · intro hslot hhost
    simp only [step, agentStep, if_pos hon, hslot]
    exact hostMove_block (by rw [State.takeSlot_host, hhost]) (by rw [State.takeSlot_block, hon])

end Sys2Proof.Machine

/-! SUPPORT. The tree builder (41_tree_builder): the frequency table as counts of the text, what one iteration of BUILD
takes from the pool, and the sorted list of R141 as the pool in the order of `(w, seq)`. -/

namespace Sys2Proof.Machine

/-! ## The frequency table (41_tree_builder R131, R133) -/

/-- COUNT reads the text one symbol after the other. -/
theorem frequencies_concat (t : List Sym) (s : Sym) : frequencies (t ++ [s]) = bumpCount (frequencies t) s := by
  simp [frequencies]

theorem frequencies_ascending (t : List Sym) : Ascending (frequencies t) := by
  induction t using List.reverseRecOn with
  | nil => exact List.Pairwise.nil
  | append_singleton t s ih => rw [frequencies_concat]; exact (bumpCount_ascending s ih).1

/-- A symbol's count in the table is its number of occurrences. -/
theorem countOf_frequencies (t : List Sym) (s : Sym) : countOf (frequencies t) s = t.count s := by
  induction t using List.reverseRecOn with
  | nil => rfl
  | append_singleton t u ih =>
    rw [frequencies_concat, countOf_bumpCount _ _ _ (frequencies_ascending t), ih, List.count_append,
      List.count_singleton]
    simp only [beq_iff_eq, eq_comm (a := s)]

theorem total_frequencies (t : List Sym) : total (frequencies t) = t.length := by
  induction t using List.reverseRecOn with
  | nil => rfl
  | append_singleton t s ih => rw [frequencies_concat, total_bumpCount, ih, List.length_append, List.length_singleton]

theorem bumpCount_pos {ft : FreqTable} (s : Sym) (h : ∀ e ∈ ft, 1 ≤ e.2) : ∀ e ∈ bumpCount ft s, 1 ≤ e.2 := by
  induction ft with
  | nil => simp [bumpCount]
  | cons e r ih =>
    obtain ⟨hc, hr⟩ := List.forall_mem_cons.mp h
    unfold bumpCount
    split
    · exact List.forall_mem_cons.mpr ⟨Nat.le_add_left .., hr⟩
    · split
      · exact List.forall_mem_cons.mpr ⟨Nat.le_refl 1, h⟩
      · exact List.forall_mem_cons.mpr ⟨hc, ih hr⟩

theorem frequencies_pos (t : List Sym) : ∀ e ∈ frequencies t, 1 ≤ e.2 := by
  induction t using List.reverseRecOn with
  | nil => intro e he; cases he
  | append_singleton t s ih => rw [frequencies_concat]; exact bumpCount_pos s ih

theorem frequencies_ne_nil {t : List Sym} (h : t ≠ []) : frequencies t ≠ [] := by
  rw [← List.dropLast_concat_getLast h, frequencies_concat]
  exact bumpCount_ne_nil _ _

/-- A symbol without an entry has the count 0, so one with another count has an entry. -/
theorem exists_mem_of_countOf_pos {ft : FreqTable} {s : Sym} (h : 0 < countOf ft s) : ∃ n, (s, n) ∈ ft := by
  induction ft with
  | nil => cases h
  | cons e r ih =>
    obtain ⟨k, c⟩ := e
    by_cases hs : s = k
    · exact ⟨c, by simp [hs]⟩
    · rw [countOf, if_neg hs] at h
      exact (ih h).imp fun n hn => List.mem_cons_of_mem _ hn

/-- The entries of the table are the symbols of the text with their numbers of occurrences. -/
theorem mem_frequencies_iff (t : List Sym) (s : Sym) (n : Nat) :
    (s, n) ∈ frequencies t ↔ s ∈ t ∧ n = t.count s := by
  rw [mem_iff_countOf (frequencies_ascending t), countOf_frequencies]
  refine and_congr_left fun _ => ⟨fun ⟨m, hm⟩ => ?_, fun hs => exists_mem_of_countOf_pos ?_⟩
  · have hcount := ((mem_iff_countOf (frequencies_ascending t) s m).mp hm).2
    rw [countOf_frequencies] at hcount
    exact List.count_pos_iff.mp (hcount ▸ frequencies_pos t _ hm)
  · rw [countOf_frequencies]
    exact List.count_pos_iff.mpr hs

theorem frequencies_length_le (t : List Sym) : (frequencies t).length ≤ t.length := by
  induction t using List.reverseRecOn with
  | nil => exact Nat.le_refl 0
  | append_singleton t s ih =>
    rw [frequencies_concat, List.length_append]
    exact (bumpCount_length ..).trans (Nat.add_le_add_right ih 1)

/-- A symbol of `SYM_W` bits is below `2^SYM_W` (log 1). -/
theorem toNat_lt_of_symOfWord {w : SymW} {c : Sym} (h : symOfWord w (wordOfSym c) = c) : c.toNat < 2 ^ w.bits := by
  cases w with
  | w8 =>
    rw [← h, symOfWord, BitVec.toNat_setWidth]
    exact (Nat.mod_le _ _).trans_lt (BitVec.isLt _)
  | w16 => exact c.isLt

/-- An ascending table whose keys are below `m` has at most `m` entries. -/
theorem Ascending.length_le {α : Type} {l : List (Sym × α)} {m : Nat} (h : Ascending l)
    (hm : ∀ e ∈ l, e.1.toNat < m) : l.length ≤ m := by
  have hnodup : (l.map fun e => e.1.toNat).Nodup := List.pairwise_map.mpr (h.imp Nat.ne_of_lt)
  have hsub : (l.map fun e => e.1.toNat) ⊆ List.range m := by
    intro k hk
    obtain ⟨e, he, rfl⟩ := List.mem_map.mp hk
    exact List.mem_range.mpr (hm e he)
  simpa using (List.subperm_of_subset hnodup hsub).length_le

/-- Settles O43: COUNT, one symbol after the other, keeps the table ascending and its counts those of the text. -/
theorem frequencyTableCountsTheText : Obligations.FrequencyTableCountsTheText := by
  intro t
  refine ⟨frequencies_ascending t, mem_frequencies_iff t, frequencies_pos t, total_frequencies t,
    fun h => List.length_pos_iff.mpr (frequencies_ne_nil h), frequencies_length_le t, fun w hw => ?_⟩
  refine Ascending.length_le (frequencies_ascending t) fun e he => toNat_lt_of_symOfWord (hw e.1 ?_)
  exact ((mem_frequencies_iff t e.1 e.2).mp he).1

/-! ## The tree of a text (41_tree_builder R134, R137-R140) -/

/-- Settles O44: the root is a pool of one tree that keeps `PoolOk`, and the counts of the table sum to the length. -/
theorem treeInvariants : Obligations.TreeInvariants := by
  intro t ht
  obtain ⟨root, next, hroot, hok⟩ := buildTree_ok (frequencies_ne_nil ht)
  obtain ⟨hadd, hweight⟩ := hok.weights root (List.mem_singleton_self _)
  obtain ⟨hleft, hnum⟩ := hok.order root (List.mem_singleton_self _)
  have hleaves : root.leaves.Perm (frequencies t) := by simpa using hok.leaves
  have htotal : total root.leaves = t.length := (hleaves.map Prod.snd).sum_eq.trans (total_frequencies t)
  exact ⟨root, hroot, hleaves, by simpa using hok.count, hadd, hweight.trans htotal, by simpa using hok.seqs.1,
    hnum, hleft⟩

/-! ## One iteration of BUILD (41_tree_builder R135-R137) -/

/-- Keys of distinct sequence numbers are comparable. -/
theorem keyLess_of_not_keyLess {x y : Node} (h : ¬ keyLess y x) (hne : x.seqNo ≠ y.seqNo) : keyLess x y := by
  unfold keyLess at *
  omega

/-- Settles O60: no node left is less than one taken (`mergeLeast_spec`), and distinct numbers make that strict. -/
theorem buildCombinesTheTwoLeast : Obligations.BuildCombinesTheTwoLeast := by
  intro pool next hlen hnodup
  obtain ⟨x, y, rest, hperm, hmerge, hx, hy⟩ := mergeLeast_spec next hlen
  have hseq := (hperm.map Node.seqNo).nodup_iff.mpr hnodup
  obtain ⟨hxr, hyr⟩ : (∀ z ∈ y :: rest, x.seqNo ≠ z.seqNo) ∧ ∀ z ∈ rest, y.seqNo ≠ z.seqNo := by
    obtain ⟨h1, h2⟩ := List.pairwise_cons.mp (List.pairwise_map.mp hseq)
    exact ⟨h1, (List.pairwise_cons.mp h2).1⟩
  have hmem : y ∈ y :: rest := List.mem_cons_self
  exact ⟨x, y, rest, hperm, keyLess_of_not_keyLess (hx y hmem) (hxr y hmem),
    fun z hz => keyLess_of_not_keyLess (hy z hz) (hyr z hz), hmerge⟩

/-! ## BUILD by sorted insertion (41_tree_builder R141) -/

/-- The list is in the order of `(w, seq)`, and a node numbered `next` would be the last of its weight. -/
structure SortedBelow (next : Nat) (pool : List Node) : Prop where
  sorted : pool.Pairwise keyLess
  below : ∀ n ∈ pool, n.seqNo < next

theorem keyLess_trans {x y z : Node} (hxy : keyLess x y) (hyz : keyLess y z) : keyLess x z := by
  unfold keyLess at *
  omega

theorem insertByWeight_perm (x : Node) (pool : List Node) : (insertByWeight x pool).Perm (x :: pool) := by
  induction pool with
  | nil => exact List.Perm.refl _
  | cons y r ih =>
    unfold insertByWeight
    split
    · exact List.Perm.refl _
    · exact (ih.cons y).trans (List.Perm.swap x y r)

/-- A new node inserted after all of weight at most its own stands in its place by `(w, seq)`, because its number is
greater than theirs. -/
theorem insertByWeight_sorted {x : Node} {pool : List Node} (h : SortedBelow x.seqNo pool) :
    (insertByWeight x pool).Pairwise keyLess := by
  induction pool with
  | nil => exact List.pairwise_singleton ..
  | cons y r ih =>
    obtain ⟨hy, hr⟩ := List.pairwise_cons.mp h.sorted
    obtain ⟨hyx, hbelow⟩ := List.forall_mem_cons.mp h.below
    unfold insertByWeight
    split
    · rename_i hlt
      have hxy : keyLess x y := .inl hlt
      exact List.pairwise_cons.mpr ⟨List.forall_mem_cons.mpr ⟨hxy, fun z hz => keyLess_trans hxy (hy z hz)⟩, h.sorted⟩
    · rename_i hge
      have hlast : keyLess y x := by unfold keyLess; omega
      refine List.pairwise_cons.mpr ⟨fun z hz => ?_, ih ⟨hr, hbelow⟩⟩
      exact List.forall_mem_cons.mpr ⟨hlast, hy⟩ z ((insertByWeight_perm x r).subset hz)

/-- Inserting the node of the next number keeps the list in order. -/
theorem SortedBelow.insert {x : Node} {next : Nat} {pool : List Node} (h : SortedBelow next pool)
    (hx : x.seqNo = next) : SortedBelow (next + 1) (insertByWeight x pool) := by
  subst hx
  refine ⟨insertByWeight_sorted h, fun n hn => ?_⟩
  rcases List.mem_cons.mp ((insertByWeight_perm x pool).subset hn) with rfl | hp
  · exact Nat.lt_succ_self _
  · exact Nat.lt_succ_of_lt (h.below n hp)

/-- The leaves, inserted one after the other, are the pool of BUILD in order. -/
theorem foldl_insertByWeight_leavesFrom (ft : FreqTable) {k : Nat} {pool : List Node} (h : SortedBelow k pool) :
    SortedBelow (k + ft.length) ((leavesFrom k ft).foldl (fun p x => insertByWeight x p) pool) ∧
      ((leavesFrom k ft).foldl (fun p x => insertByWeight x p) pool).Perm (pool ++ leavesFrom k ft) := by
  induction ft generalizing k pool with
  | nil => exact ⟨h, by simp [leavesFrom]⟩
  | cons e r ih =>
    obtain ⟨s, w⟩ := e
    obtain ⟨hsorted, hperm⟩ := ih (h.insert (x := .leaf s w k) rfl)
    refine ⟨by rwa [List.length_cons, Nat.add_comm r.length, ← Nat.add_assoc], hperm.trans ?_⟩
    exact ((insertByWeight_perm _ pool).append_right _).trans List.perm_middle.symm

/-- The least node is the same in every order of a pool. -/
theorem least_unique {x m : Node} {r rest : List Node} (hp : (m :: rest).Perm (x :: r)) (hx : ∀ z ∈ r, keyLess x z)
    (hm : ∀ z ∈ rest, ¬ keyLess z m) : m = x ∧ rest.Perm r := by
  have hmx : m = x := by
    by_contra hne
    have hmr : m ∈ r := (List.mem_cons.mp (hp.subset List.mem_cons_self)).resolve_left hne
    have hxr : x ∈ rest := (List.mem_cons.mp (hp.symm.subset List.mem_cons_self)).resolve_left (Ne.symm hne)
    exact hm x hxr (hx m hmr)
  subst hmx
  exact ⟨rfl, hp.cons_inv⟩

/-- One iteration of BUILD combines the two front nodes of the pool in order. -/
theorem mergeLeast_of_sorted {x y : Node} {r pool : List Node} (next : Nat) (h : (x :: y :: r).Pairwise keyLess)
    (hp : (x :: y :: r).Perm pool) :
    (mergeLeast pool next).Perm (.internal x y (x.weight + y.weight) next :: r) := by
  obtain ⟨hx, hyr⟩ := List.pairwise_cons.mp h
  obtain ⟨m, n, rest, hperm, hmerge, hm, hn⟩ := mergeLeast_spec next (pool := pool) (by simp [← hp.length_eq])
  obtain ⟨rfl, hp1⟩ := least_unique (hperm.trans hp.symm) hx hm
  obtain ⟨rfl, hp2⟩ := least_unique hp1 (List.pairwise_cons.mp hyr).1 hn
  rw [hmerge]
  exact (List.perm_append_singleton _ _).trans (hp2.cons _)

theorem buildLoop_merge {fuel next : Nat} {pool : List Node} (h : 2 ≤ pool.length) :
    buildLoop (fuel + 1) pool next = buildLoop fuel (mergeLeast pool next) (next + 1) := by
  match pool, h with
  | _ :: _ :: _, _ => rfl

/-- Neither loop has anything to do on a pool of at most one node. -/
theorem sortedLoop_eq_buildLoop_of_short (fuel next : Nat) {q pool : List Node} (hp : q.Perm pool)
    (h : q.length ≤ 1) : sortedLoop fuel q next = buildLoop fuel pool next := by
  match q, h with
  | [], _ =>
    obtain rfl := hp.nil_eq
    cases fuel <;> rfl
  | [x], _ =>
    obtain rfl := hp.singleton_eq
    cases fuel <;> rfl

/-- The two loops keep the same pool, one of them in order, and end with the same node. -/
theorem sortedLoop_eq_buildLoop (fuel : Nat) {q pool : List Node} {next : Nat} (h : SortedBelow next q)
    (hp : q.Perm pool) (hf : q.length ≤ fuel + 1) : sortedLoop fuel q next = buildLoop fuel pool next := by
  induction fuel generalizing q pool next with
  | zero => exact sortedLoop_eq_buildLoop_of_short 0 next hp hf
  | succ fuel ih =>
    match q with
    | [] | [_] => exact sortedLoop_eq_buildLoop_of_short (fuel + 1) next hp (by simp)
    | x :: y :: r =>
      have hr : SortedBelow next r := ⟨(List.pairwise_cons.mp (List.pairwise_cons.mp h.sorted).2).2,
        fun n hn => h.below n (List.mem_cons_of_mem _ (List.mem_cons_of_mem _ hn))⟩
      have hins := insertByWeight_perm (.internal x y (x.weight + y.weight) next) r
      rw [buildLoop_merge (by simp [← hp.length_eq]), sortedLoop]
      refine ih (hr.insert rfl) (hins.trans (mergeLeast_of_sorted next h.sorted hp).symm) ?_
      rw [hins.length_eq]
      exact Nat.le_of_succ_le_succ hf

/-- Settles O45: the sorted list starts as BUILD's pool in the order of `(w, seq)`, and the two loops keep it so. -/
theorem sortedInsertionBuildsTheSameTree : Obligations.SortedInsertionBuildsTheSameTree := by
  intro ft
  obtain ⟨hsorted, hperm⟩ :=
    foldl_insertByWeight_leavesFrom ft (k := 0) (pool := []) ⟨List.Pairwise.nil, by simp⟩
  rw [Nat.zero_add] at hsorted
  refine sortedLoop_eq_buildLoop ft.length hsorted hperm ?_
  rw [hperm.length_eq, List.nil_append, leavesFrom_length]
  exact Nat.le_succ _

end Sys2Proof.Machine

/-! SUPPORT. The code table (42_code_table_deriver): the codes of a tree as the paths of its leaves, the facts about them
that depend on the number of symbols only, and ENCODE of a text of one symbol. -/

namespace Sys2Proof.Machine

/-! ## The tree of a table -/

/-- BUILD answers a root only with what `PoolOk` keeps. -/
theorem PoolOk.of_buildTree {ft : FreqTable} {root : Node} (h : buildTree ft = some root) :
    ∃ next, PoolOk ft [root] next := by
  have hne : ft ≠ [] := by rintro rfl; cases h
  obtain ⟨r, next, hr, hok⟩ := buildTree_ok hne
  obtain rfl : r = root := Option.some.inj (hr.symm.trans h)
  exact ⟨next, hok⟩

theorem leaves_perm_of_buildTree {ft : FreqTable} {root : Node} (h : buildTree ft = some root) :
    root.leaves.Perm ft := by
  obtain ⟨_, hok⟩ := PoolOk.of_buildTree h
  simpa using hok.leaves

/-- One internal node fewer than symbols (41_tree_builder R138). -/
theorem internals_of_buildTree {ft : FreqTable} {root : Node} (h : buildTree ft = some root) :
    root.internals + 1 = ft.length := by
  obtain ⟨_, hok⟩ := PoolOk.of_buildTree h
  simpa using hok.count

/-! ## Ascending tables as maps -/

theorem Ascending.symbols_nodup {α : Type} {l : List (Sym × α)} (h : Ascending l) : (l.map Prod.fst).Nodup :=
  List.pairwise_map.mpr (h.imp fun hlt heq => hlt.ne (congrArg BitVec.toNat heq))

/-- Two ascending tables of the same symbols list them in the same order. -/
theorem Ascending.symbols_eq {α β : Type} {l : List (Sym × α)} {m : List (Sym × β)} (hl : Ascending l)
    (hm : Ascending m) (hp : (l.map Prod.fst).Perm (m.map Prod.fst)) : l.map Prod.fst = m.map Prod.fst :=
  hp.eq_of_pairwise (le := fun s u => s.toNat < u.toNat) (fun _ _ _ _ hlt hgt => absurd hgt hlt.asymm)
    (List.pairwise_map.mpr hl) (List.pairwise_map.mpr hm)

/-! ## The code table as the paths of the tree (42_code_table_deriver R151, R152) -/

/-- The code with which the walk starts at the root: empty, but "0" where the root is a leaf (R152). -/
def Node.rootPath : Node → Code
  | .leaf _ _ _ => [false]
  | .internal _ _ _ _ => []

/-- With the root's own code to start from, R152's case is the walk of R151. -/
theorem codeTable_eq_walkTree (root : Node) : codeTable root = walkTree root root.rootPath [] := by
  cases root <;> rfl

/-- A root above a leaf is internal, and its walk starts with the empty code. -/
theorem rootPath_of_internals {root : Node} (h : 1 ≤ root.internals) : root.rootPath = [] := by
  cases root with
  | leaf s w k => cases h
  | internal l r w k => rfl

/-- The code table of a tree whose leaves have distinct symbols lists its paths, ascending by symbol. -/
theorem codeTable_spec {root : Node} (h : (root.leaves.map Prod.fst).Nodup) :
    Ascending (codeTable root) ∧ (codeTable root).Perm (root.paths root.rootPath) := by
  rw [codeTable_eq_walkTree, walkTree_eq_foldl]
  simpa using foldl_setCode (es := root.paths root.rootPath) (ct := []) List.Pairwise.nil
    (by simpa [paths_symbols] using h)

/-- No path is empty: the walk ends at a leaf, and starts with a bit where the root is one. -/
theorem paths_ne_nil {root : Node} {e : Entry} (h : e ∈ root.paths root.rootPath) : e.2 ≠ [] := by
  obtain ⟨p, w, k, hc, hfollow⟩ := (mem_paths root root.rootPath e.1 e.2).mp h
  intro hnil
  obtain ⟨hroot, rfl⟩ := List.append_eq_nil_iff.mp (hc.symm.trans hnil)
  cases root with
  | leaf s w k => cases hroot
  | internal l r w k => cases hfollow

/-- A path has one bit per internal node at most, or the one bit of a root leaf. -/
theorem paths_length_le {root : Node} {e : Entry} (h : e ∈ root.paths root.rootPath) :
    e.2.length ≤ max 1 root.internals := by
  obtain ⟨c, hc, hlen⟩ := paths_extend root root.rootPath h
  rw [hc, List.length_append]
  cases root with
  | leaf s w k => exact (Nat.add_le_add_left hlen 1).trans (le_max_left ..)
  | internal l r w k => exact (Nat.zero_add _).le.trans (hlen.trans (le_max_right ..))

/-- `paths_prefixFree` for every two entries of the table, whatever their order. -/
theorem PrefixFree.of_perm_paths {ct : CodeTable} {n : Node} {path : Code} (h : ct.Perm (n.paths path)) :
    PrefixFree ct := by
  have hpairs := paths_prefixFree n path
  have hpaths := List.Pairwise.forall_of_forall_of_flip (R := fun e f : Entry => e.2 <+: f.2 → e = f)
    (fun _ _ _ => rfl) (hpairs.imp fun hef hpre => absurd hpre hef.1) (hpairs.imp fun hef hpre => absurd hpre hef.2)
  exact fun e he f hf => hpaths (h.subset he) (h.subset hf)

/-! ## The code table of a text -/

section OfText

variable {t : List Sym} {root : Node} (h : buildTree (frequencies t) = some root)
include h

theorem codeTable_of_text : Ascending (codeTable root) ∧ (codeTable root).Perm (root.paths root.rootPath) := by
  refine codeTable_spec ?_
  have hsymbols := (leaves_perm_of_buildTree h).map Prod.fst
  exact hsymbols.nodup_iff.mpr (frequencies_ascending t).symbols_nodup

/-- The symbols of the code table are those of the frequency table (42_code_table_deriver R150). -/
theorem codeTable_symbols : (codeTable root).map Prod.fst = (frequencies t).map Prod.fst := by
  obtain ⟨hasc, hperm⟩ := codeTable_of_text h
  have hpaths := hperm.map Prod.fst
  rw [paths_symbols] at hpaths
  exact hasc.symbols_eq (frequencies_ascending t) (hpaths.trans ((leaves_perm_of_buildTree h).map _))

theorem codeTable_ne_nil : ∀ e ∈ codeTable root, e.2 ≠ [] := fun _ he =>
  paths_ne_nil ((codeTable_of_text h).2.subset he)

theorem codeTable_prefixFree : PrefixFree (codeTable root) := .of_perm_paths (codeTable_of_text h).2

/-- The longest path has one bit per internal node (42_code_table_deriver R154). -/
theorem codeTable_length_le : ∀ e ∈ codeTable root, e.2.length ≤ max 1 ((frequencies t).length - 1) := by
  intro e he
  rw [← internals_of_buildTree h, Nat.add_sub_cancel]
  exact paths_length_le ((codeTable_of_text h).2.subset he)

/-- With two or more symbols the paths start with the empty code. -/
theorem codeTable_perm_paths (h2 : 2 ≤ (frequencies t).length) : (codeTable root).Perm (root.paths []) := by
  have hinternals := internals_of_buildTree h
  rw [← rootPath_of_internals (root := root) (by omega)]
  exact (codeTable_of_text h).2

theorem mem_codeTable_iff_follow (h2 : 2 ≤ (frequencies t).length) (s : Sym) (c : Code) :
    (s, c) ∈ codeTable root ↔ ∃ w k, root.follow c = some (.leaf s w k) := by
  rw [(codeTable_perm_paths h h2).mem_iff, mem_paths]
  simp

end OfText

/-- The code table of a root leaf (42_code_table_deriver R152). -/
theorem codeTable_leaf (s : Sym) (w k : Nat) : codeTable (.leaf s w k) = [(s, [false])] := rfl

theorem mem_codeTable_of_leaf {root : Node} (h : root.internals = 0) (s : Sym) (c : Code) :
    (s, c) ∈ codeTable root ↔ c = [false] ∧ ∃ w k, root = .leaf s w k := by
  cases root with
  | leaf u w k => simp [codeTable_leaf, and_comm, eq_comm]
  | internal l r w k => cases h

/-- Settles O46: the table lists the paths of the tree (`codeTable_spec`), which end at distinct leaves. -/
theorem codeTableIsPrefixFree : Obligations.CodeTableIsPrefixFree := fun _ _ h =>
  ⟨codeTable_symbols h, codeTable_ne_nil h, codeTable_prefixFree h, mem_codeTable_iff_follow h,
    fun h1 => mem_codeTable_of_leaf (Nat.succ.inj ((internals_of_buildTree h).trans h1))⟩

/-- Settles O47: the table lists the paths from the root, which satisfy Kraft's equality (`paths_kraft`). -/
theorem codeLengthsSumToOne : Obligations.CodeLengthsSumToOne := by
  intro t root h h2
  rw [((codeTable_perm_paths h h2).map _).sum_eq, paths_kraft]
  simp

/-! ## DERIVE's capacity check (42_code_table_deriver R154) -/

theorem codeTooLong_eq_false_iff (p : Params) (ct : CodeTable) :
    codeTooLong p ct = false ↔ ∀ e ∈ ct, e.2.length ≤ p.maxCodeLen := by
  simp [codeTooLong]

/-- `F_ENCODE` of a text with a tree (43_encoder R160). -/
theorem fEncode_of_tree {t : List Sym} {root : Node} (p : Params) (h : buildTree (frequencies t) = some root) :
    fEncode p t = if codeTooLong p (codeTable root) then .err .capacity .derive
      else encodeDocument p t (codeTable root) := by
  have ht : t ≠ [] := by rintro rfl; cases h
  simp only [fEncode, if_neg ht, h]

theorem fEncode_of_codes_fit {t : List Sym} {root : Node} {p : Params} (h : buildTree (frequencies t) = some root)
    (hfit : ∀ e ∈ codeTable root, e.2.length ≤ p.maxCodeLen) :
    fEncode p t = encodeDocument p t (codeTable root) := by
  rw [fEncode_of_tree p h, (codeTooLong_eq_false_iff p _).mpr hfit]
  rfl

theorem encodeDocument_ne_derive (p : Params) (t : List Sym) (ct : CodeTable) (code : ErrCode) :
    encodeDocument p t ct ≠ .err code .derive := by
  unfold encodeDocument
  split
  · simp
  · split <;> simp

/-- Settles O48: a code has one bit per internal node at most (`codeTable_length_le`), which then is no more than
MAX_CODE_LEN. -/
theorem codeLengthBound : Obligations.CodeLengthBound := by
  intro p t root h
  refine ⟨codeTable_length_le h, fun hlegal hn => ?_⟩
  obtain ⟨-, -, -, -, hmax, -⟩ := hlegal
  have hfit : ∀ e ∈ codeTable root, e.2.length ≤ p.maxCodeLen := fun e he =>
    (codeTable_length_le h e he).trans (max_le hmax (by omega))
  rw [fEncode_of_codes_fit h hfit]
  exact encodeDocument_ne_derive p t _ _

/-! ## A text of one symbol (41_tree_builder R139, 42_code_table_deriver R152) -/

theorem frequencies_replicate (s : Sym) (n : Nat) : frequencies (List.replicate (n + 1) s) = [(s, n + 1)] := by
  induction n with
  | zero => rfl
  | succ n ih => rw [List.replicate_succ', frequencies_concat, ih, bumpCount, if_pos rfl]

theorem buildTree_replicate (s : Sym) (n : Nat) :
    buildTree (frequencies (List.replicate (n + 1) s)) = some (.leaf s (n + 1) 0) := by
  rw [frequencies_replicate]
  rfl

/-- One bit per occurrence. -/
theorem bitstream_replicate (s : Sym) (n : Nat) :
    bitstream [(s, [false])] (List.replicate n s) = List.replicate n false := by
  induction n with
  | zero => rfl
  | succ n ih => simp [List.replicate_succ, codeOf, ih]

theorem tableText_leaf (s : Sym) : tableText [(s, [false])] = [s, colon, ch0, lf] := rfl

theorem encodeDocument_replicate {p : Params} (s : Sym) {n : Nat} (h : n + 5 ≤ p.outCap) :
    encodeDocument p (List.replicate (n + 1) s) [(s, [false])] =
      .ok ([s, colon, ch0, lf] ++ List.replicate (n + 1) ch0)
        { outLen := n + 5, tableLen := 4, streamLen := n + 1, symCount := n + 1, entries := 1 } .emit := by
  have htable : ¬ p.outCap < 4 := by omega
  have hlen : 4 + (n + 1) = n + 5 := by omega
  simp [encodeDocument, encodeResults, tableText_leaf, bitstream_replicate, bitchars, bitchar, htable, hlen,
    Nat.not_lt.mpr h]

/-- Settles O49: the tree of the text is a root leaf, whose code fits every legal MAX_CODE_LEN. -/
theorem singleSymbolText : Obligations.SingleSymbolText := by
  refine ⟨codeTable_leaf, buildTree_replicate, fun p s n hlegal hcap => ?_⟩
  obtain ⟨-, -, -, -, hmax, -⟩ := hlegal
  have hfit : ∀ e ∈ codeTable (.leaf s (n + 1) 0), e.2.length ≤ p.maxCodeLen := by simpa [codeTable_leaf] using hmax
  rw [fEncode_of_codes_fit (buildTree_replicate s n) hfit, codeTable_leaf]
  exact encodeDocument_replicate s hcap

end Sys2Proof.Machine

/-! SUPPORT. The encoder (43_encoder): what a successful `fEncode` has computed, the layout of its document, and the
round trip, in which the decoder finds the code table as its entries and the greedy walk stops at the end of every
code. -/

namespace Sys2Proof.Machine

/-! ## A successful ENCODE (43_encoder R160, R163) -/

theorem encodeDocument_ok {p : Params} {t out : List Sym} {ct : CodeTable} {r : Results} {last : Phase}
    (h : encodeDocument p t ct = .ok out r last) :
    (tableText ct).length + (bitstream ct t).length ≤ p.outCap ∧
      out = tableText ct ++ bitchars (bitstream ct t) ∧ r = encodeResults ct t ∧ last = .emit := by
  unfold encodeDocument at h
  split at h
  case isTrue => cases h
  case isFalse =>
    split at h
    case isTrue => cases h
    case isFalse hemit => cases h; exact ⟨Nat.le_of_not_lt hemit, rfl, rfl, rfl⟩

/-- An ENCODE that succeeds has built a tree, its codes fit MAX_CODE_LEN and its document fits OUT. -/
theorem fEncode_ok {p : Params} {t out : List Sym} {r : Results} {last : Phase} (h : fEncode p t = .ok out r last) :
    ∃ root, buildTree (frequencies t) = some root ∧ (∀ e ∈ codeTable root, e.2.length ≤ p.maxCodeLen) ∧
      encodeDocument p t (codeTable root) = .ok out r last := by
  by_cases ht : t = []
  · rw [fEncode, if_pos ht] at h
    cases h
  · obtain ⟨root, _, hroot, -⟩ := buildTree_ok (frequencies_ne_nil ht)
    rw [fEncode_of_tree p hroot] at h
    cases hlong : codeTooLong p (codeTable root) <;> rw [hlong] at h
    case true => cases h
    case false => exact ⟨root, hroot, (codeTooLong_eq_false_iff p _).mp hlong, h⟩

/-! ## The code of a symbol (42_code_table_deriver R153) -/

theorem codeOf_mem {ct : CodeTable} {s : Sym} {c : Code} (h : codeOf ct s = some c) : (s, c) ∈ ct := by
  induction ct with
  | nil => cases h
  | cons e r ih =>
    obtain ⟨k, d⟩ := e
    unfold codeOf at h
    split at h
    case isTrue hk => cases h; subst hk; exact List.mem_cons_self
    case isFalse => exact List.mem_cons_of_mem _ (ih h)

theorem exists_codeOf_of_mem {ct : CodeTable} {s : Sym} (h : s ∈ ct.map Prod.fst) : ∃ c, codeOf ct s = some c := by
  induction ct with
  | nil => cases h
  | cons e r ih =>
    obtain ⟨k, d⟩ := e
    by_cases hk : s = k
    · exact ⟨d, if_pos hk⟩
    · rw [codeOf, if_neg hk]
      exact ih ((List.mem_cons.mp h).resolve_left hk)

/-- Every symbol of the text has a code in the table of its tree. -/
theorem exists_codeOf_codeTable {t : List Sym} {root : Node} (h : buildTree (frequencies t) = some root) :
    ∀ s ∈ t, ∃ c, codeOf (codeTable root) s = some c := by
  intro s hs
  refine exists_codeOf_of_mem ?_
  rw [codeTable_symbols h]
  exact List.mem_map.mpr ⟨(s, t.count s), (mem_frequencies_iff t s _).mpr ⟨hs, rfl⟩, rfl⟩

theorem codeTable_length_eq {t : List Sym} {root : Node} (h : buildTree (frequencies t) = some root) :
    (codeTable root).length = (frequencies t).length := by
  simpa using congrArg List.length (codeTable_symbols h)

theorem codeTable_nonempty {t : List Sym} {root : Node} (h : buildTree (frequencies t) = some root) :
    codeTable root ≠ [] := by
  intro hnil
  have hlen := codeTable_length_eq h
  have htree := internals_of_buildTree h
  rw [hnil, List.length_nil] at hlen
  omega

/-! ## The document (43_encoder R161, R162) -/

theorem isBit_of_mem_bitchars {code : Code} {c : Sym} (h : c ∈ bitchars code) : isBit c = true := by
  obtain ⟨b, -, rfl⟩ := List.mem_map.mp h
  exact isBit_bitchar b

/-- The table section ends in the table-to-stream separator. -/
theorem tableText_getLast {ct : CodeTable} (h : ct ≠ []) : (tableText ct).getLast? = some lf := by
  induction ct with
  | nil => exact absurd rfl h
  | cons e r ih =>
    cases r with
    | nil => rw [tableText, tableText, List.append_nil]; exact List.getLast?_concat
    | cons f r => rw [tableText, List.getLast?_append, ih (by simp)]; rfl

/-- Every symbol adds at least one bit. -/
theorem length_le_bitstream {ct : CodeTable} {t : List Sym} (hcodes : ∀ e ∈ ct, e.2 ≠ [])
    (ht : ∀ s ∈ t, ∃ c, codeOf ct s = some c) : t.length ≤ (bitstream ct t).length := by
  induction t with
  | nil => exact Nat.le_refl 0
  | cons s t ih =>
    obtain ⟨⟨c, hc⟩, ht⟩ := List.forall_mem_cons.mp ht
    have hpos : 0 < c.length := List.length_pos_iff.mpr (hcodes _ (codeOf_mem hc))
    have hrest := ih ht
    rw [bitstream_cons, hc, Option.getD_some, List.length_append, List.length_cons]
    omega

/-- Settles O50: the document is the table section followed by the bit characters (`encodeDocument_ok`), and every
symbol of the text has a code of at least one bit. -/
theorem encodedDocumentLayout : Obligations.EncodedDocumentLayout := by
  intro p t out r last h
  obtain ⟨root, hroot, -, hdoc⟩ := fEncode_ok h
  obtain ⟨hcap, rfl, rfl, rfl⟩ := encodeDocument_ok hdoc
  simp only [encodeResults, List.take_left, List.drop_left, List.length_append, bitchars_length, true_and]
  exact ⟨hcap, codeTable_length_eq hroot,
    length_le_bitstream (codeTable_ne_nil hroot) (exists_codeOf_codeTable hroot),
    tableText_getLast (codeTable_nonempty hroot), fun _ => isBit_of_mem_bitchars, root, hroot, rfl, rfl⟩

/-! ## PARSE_TABLE of distinct codes (44_decoder R185-R187) -/

theorem symOfCode_eq_none_iff (rct : RevTable) (c : Code) : symOfCode rct c = none ↔ c ∉ rct.map Prod.fst := by
  induction rct with
  | nil => simp [symOfCode]
  | cons e r ih =>
    obtain ⟨k, s⟩ := e
    by_cases hk : c = k <;> simp [symOfCode, hk, ih]

/-- A table of distinct codes is looked up as a map. -/
theorem symOfCode_eq_some_iff {rct : RevTable} (h : (rct.map Prod.fst).Nodup) (c : Code) (s : Sym) :
    symOfCode rct c = some s ↔ (c, s) ∈ rct := by
  refine ⟨symOfCode_mem, fun hmem => ?_⟩
  obtain ⟨u, hu⟩ : ∃ u, symOfCode rct c = some u := by
    rw [← Option.isSome_iff_exists, Option.isSome_iff_ne_none, Ne, symOfCode_eq_none_iff]
    exact not_not_intro (List.mem_map_of_mem hmem)
  have hsame : (c, u) = (c, s) := List.inj_on_of_nodup_map h (symOfCode_mem hu) hmem rfl
  rw [hu, (Prod.mk.inj hsame).2]

theorem addEntry_of_new {p : Params} {rct : RevTable} {e : Entry} (hlen : e.2.length ≤ p.maxCodeLen)
    (hnew : e.2 ∉ rct.map Prod.fst) (hcap : rct.length < p.rctCap) :
    addEntry p rct e = .ok (rct ++ [e.swap]) := by
  rw [addEntry, if_neg (Nat.not_lt.mpr hlen), (symOfCode_eq_none_iff rct e.2).mpr hnew]
  exact if_neg hcap.ne

/-- Entries with distinct codes within both capacities are added one after the other. -/
theorem parseTable_of_nodup {p : Params} {rct : RevTable} {es : List Entry}
    (hlen : ∀ e ∈ es, e.2.length ≤ p.maxCodeLen) (hnodup : (rct.map Prod.fst ++ es.map Prod.snd).Nodup)
    (hcap : rct.length + es.length ≤ p.rctCap) : parseTable p rct es = .ok (rct ++ es.map Prod.swap) := by
  induction es generalizing rct with
  | nil => rw [parseTable, List.map_nil, List.append_nil]
  | cons e es ih =>
    obtain ⟨he, hes⟩ := List.forall_mem_cons.mp hlen
    rw [List.length_cons] at hcap
    have hnew : e.2 ∉ rct.map Prod.fst := fun hmem =>
      (List.nodup_append.mp hnodup).2.2 _ hmem _ (List.mem_map_of_mem List.mem_cons_self) rfl
    have hrest := ih (rct := rct ++ [e.swap]) hes (by simpa using hnodup)
      (by rw [List.length_append, List.length_singleton]; omega)
    simp only [parseTable, addEntry_of_new he hnew (by omega), hrest]
    simp

/-! ## The greedy walk (44_decoder R188) -/

/-- The walk emits the symbol of the first extension of the accumulator that is a code. -/
theorem walkStream_append_of_match {rct : RevTable} {acc c : Code} {s : Sym} (rest : Code) (hne : c ≠ [])
    (hmatch : symOfCode rct (acc ++ c) = some s)
    (hfirst : ∀ k, 0 < k → k < c.length → symOfCode rct (acc ++ c.take k) = none) :
    walkStream rct acc (c ++ rest) = (s :: (walkStream rct [] rest).1, (walkStream rct [] rest).2) := by
  induction c generalizing acc with
  | nil => exact absurd rfl hne
  | cons b c ih =>
    cases c with
    | nil => simp only [List.cons_append, List.nil_append, walkStream, hmatch]
    | cons b' c =>
      have hnone : symOfCode rct (acc ++ [b]) = none := hfirst 1 Nat.one_pos (by simp)
      rw [List.cons_append, walkStream]
      simp only [hnone]
      refine ih (by simp) (by simpa using hmatch) fun k _ hk => ?_
      have hlater := hfirst (k + 1) (by omega) (Nat.succ_lt_succ hk)
      simpa using hlater

section RoundTrip

variable {ct : CodeTable} {rct : RevTable} (hinv : ∀ c s, symOfCode rct c = some s ↔ (s, c) ∈ ct)
  (hfree : PrefixFree ct) (hcodes : ∀ e ∈ ct, e.2 ≠ [])
include hinv hfree

/-- Where no code starts with another, what comes before the end of a code is none. -/
theorem symOfCode_take_eq_none {s : Sym} {c : Code} {k : Nat} (hc : (s, c) ∈ ct) (hk : k < c.length) :
    symOfCode rct (c.take k) = none := by
  cases hu : symOfCode rct (c.take k) with
  | none => rfl
  | some u =>
    have hsame := hfree (u, c.take k) ((hinv _ u).mp hu) (s, c) hc (List.take_prefix k c)
    have hlen := congrArg List.length (Prod.mk.inj hsame).2
    rw [List.length_take] at hlen
    omega

include hcodes

/-- The walk over the codes of a text emits the text and ends with an empty accumulator (43_encoder R168). -/
theorem walkStream_bitstream {t : List Sym} (ht : ∀ s ∈ t, ∃ c, codeOf ct s = some c) :
    walkStream rct [] (bitstream ct t) = (t, []) := by
  induction t with
  | nil => rfl
  | cons s t ih =>
    obtain ⟨⟨c, hc⟩, ht⟩ := List.forall_mem_cons.mp ht
    have hmem := codeOf_mem hc
    have hwalk := walkStream_append_of_match (acc := []) (bitstream ct t) (hcodes _ hmem) ((hinv c s).mpr hmem)
      fun k _ hk => symOfCode_take_eq_none hinv hfree hmem hk
    rw [bitstream_cons, hc, Option.getD_some, hwalk, ih ht]

end RoundTrip

/-! ## The round trip (43_encoder R168) -/

/-- Where no code starts with another entry's, the codes are distinct. -/
theorem PrefixFree.codes_nodup {ct : CodeTable} (h : PrefixFree ct) (hnodup : ct.Nodup) : (ct.map Prod.snd).Nodup :=
  hnodup.map_on fun e he f hf heq => h e he f hf (heq ▸ List.prefix_rfl)

theorem codeTable_codes_nodup {t : List Sym} {root : Node} (h : buildTree (frequencies t) = some root) :
    ((codeTable root).map Prod.snd).Nodup :=
  (codeTable_prefixFree h).codes_nodup (codeTable_of_text h).1.symbols_nodup.of_map

/-- The validator finds the entries and the bitstream of a written-out document. -/
theorem validate_document {es : List Entry} {stream : Code} (hne : es ≠ []) (hcodes : ∀ e ∈ es, e.2 ≠ [])
    (hstream : stream ≠ []) : validate (tableText es ++ bitchars stream) = some (es, bitchars stream) :=
  (validatorAcceptsExactlyTheGrammar _ _ _).mpr ⟨hne, hcodes, stream, hstream, rfl, rfl⟩

/-- `F_DECODE` of a document whose table is accepted and whose walk leaves no bits over (44_decoder R192). -/
theorem fDecode_of_walk {p : Params} {d out : List Sym} {es : List Entry} {stream : Code} {rct : RevTable}
    (hvalid : validate d = some (es, bitchars stream)) (htable : parseTable p [] es = .ok rct)
    (hwalk : walkStream rct [] stream = (out, [])) :
    fDecode p d = .ok out (decodeResults d.length stream.length out.length es.length) .parseStream := by
  simp only [fDecode, hvalid, htable, map_charbit_bitchars, hwalk, bitchars_length, if_true]

/-- A text's code table in reverse inverts it. -/
theorem symOfCode_reverse_codeTable {t : List Sym} {root : Node} (h : buildTree (frequencies t) = some root) (c : Code)
    (s : Sym) : symOfCode ((codeTable root).map Prod.swap) c = some s ↔ (s, c) ∈ codeTable root := by
  have hnodup : (((codeTable root).map Prod.swap).map Prod.fst).Nodup := by
    rw [List.map_map]
    exact codeTable_codes_nodup h
  rw [symOfCode_eq_some_iff hnodup]
  simp

/-- Settles O16: the validator finds the code table, PARSE_TABLE reverses it, and the walk over the text's codes emits
the text, since no code starts with another (`walkStream_bitstream`). -/
theorem decodeOfEncodeIsTheText : Obligations.DecodeOfEncodeIsTheText := by
  intro p t d r last _ _ h _ hentries
  obtain ⟨root, hroot, hmax, hdoc⟩ := fEncode_ok h
  obtain ⟨-, rfl, rfl, -⟩ := encodeDocument_ok hdoc
  have hcodes := codeTable_ne_nil hroot
  have ht := exists_codeOf_codeTable hroot
  have hstream : bitstream (codeTable root) t ≠ [] := by
    have hne : t ≠ [] := by rintro rfl; cases hroot
    exact List.length_pos_iff.mp ((List.length_pos_iff.mpr hne).trans_le (length_le_bitstream hcodes ht))
  have htable : parseTable p [] (codeTable root) = .ok ((codeTable root).map Prod.swap) :=
    parseTable_of_nodup hmax (codeTable_codes_nodup hroot) ((Nat.zero_add _).trans_le hentries)
  have hwalk := walkStream_bitstream (symOfCode_reverse_codeTable hroot) (codeTable_prefixFree hroot) hcodes ht
  rw [fDecode_of_walk (validate_document (codeTable_nonempty hroot) hcodes hstream) htable hwalk]
  simp [decodeResults, encodeResults]

end Sys2Proof.Machine

/-! SUPPORT. The decoder (44_decoder): what a block step leaves alone, the table that PARSE_TABLE builds, the greedy
walk of PARSE_STREAM, and what a successful `fDecode` has computed. -/

namespace Sys2Proof.Machine

/-! ## What a block step leaves alone (20_memory R70, 44_decoder R193) -/

/-- The block agent leaves every IN word alone: with legal parameters IN lies below OUT. -/
theorem Block.Frame.inSym {b c : Block} {i : Nat} (h : b.Frame c) (hl : b.params.Legal) (hi : i < b.params.inCap) :
    c.inSym i = b.inSym i := by
  obtain ⟨-, hcap, -⟩ := hl
  refine Block.inSym_congr h.params h.epoch fun a _ ha => h.bytes a (.inl ?_)
  unfold inAddr inBase at ha
  unfold outBase
  omega

/-- A block step of any length changes only what the block agent may change. -/
theorem Block.Inv.frame_blockStep {extra : Nat} {s t : State} (h : s.block.Inv) (hbusy : s.block.state = .busy)
    (hstep : blockStep extra s = .next t) : s.block.Frame t.block := by
  obtain ⟨c, hticks, -, hframe, -⟩ := s.block.ticks_ok (extra + 1) h hbusy
  obtain rfl : c = t.block := Except.ok.inj (hticks.symm.trans (blockStep_next hstep).1)
  exact hframe

/-- Settles O24: the step keeps the frame of the block agent, and touches nothing around the block. -/
theorem blockStepsLeaveTheInputAlone : Obligations.BlockStepsLeaveTheInputAlone := by
  intro extra s t hinv hbusy hstep
  have hframe := hinv.frame_blockStep hbusy hstep
  obtain ⟨-, hblock⟩ := blockStep_next hstep
  refine ⟨hframe.bytes, fun i hi => hframe.inSym hinv.legal hi, hframe.inLen, hframe.op, hframe.params, hframe.epoch,
    hframe.inReset, ?_⟩
  rw [hblock]
  exact ⟨rfl, rfl, rfl, rfl⟩

/-! ## One entry put into RCT (44_decoder R185-R187, 60_exceptions R213) -/

theorem symOfCode_append_same {rct : RevTable} {c : Code} (s : Sym) (h : symOfCode rct c = none) :
    symOfCode (rct ++ [(c, s)]) c = some s := by
  simp only [symOfCode_append, h, if_true]

theorem symOfCode_append_other (rct : RevTable) {c d : Code} (s : Sym) (h : d ≠ c) :
    symOfCode (rct ++ [(c, s)]) d = symOfCode rct d := by
  rw [symOfCode_append]
  cases symOfCode rct d with
  | some u => rfl
  | none => exact if_neg h

theorem addEntry_of_long {p : Params} {e : Entry} (rct : RevTable) (hlen : p.maxCodeLen < e.2.length) :
    addEntry p rct e = .error .capacity := if_pos hlen

theorem addEntry_of_held {p : Params} {rct : RevTable} {e : Entry} {s : Sym} (hlen : e.2.length ≤ p.maxCodeLen)
    (hheld : symOfCode rct e.2 = some s) :
    addEntry p rct e = if s ≠ e.1 then .error .duplicateCode else .ok rct := by
  rw [addEntry, if_neg hlen.not_gt, hheld]

theorem addEntry_of_unheld {p : Params} {rct : RevTable} {e : Entry} (hlen : e.2.length ≤ p.maxCodeLen)
    (hnew : symOfCode rct e.2 = none) :
    addEntry p rct e = if rct.length = p.rctCap then .error .capacity else .ok (rct ++ [e.swap]) := by
  rw [addEntry, if_neg hlen.not_gt, hnew]
  rfl

/-- An entry that is accepted has a code that fits, and either is in the table already or is added at its end. -/
theorem addEntry_ok {p : Params} {rct rct' : RevTable} {e : Entry} (h : addEntry p rct e = .ok rct') :
    e.2.length ≤ p.maxCodeLen ∧ ((symOfCode rct e.2 = some e.1 ∧ rct' = rct) ∨
      (symOfCode rct e.2 = none ∧ rct.length ≠ p.rctCap ∧ rct' = rct ++ [e.swap])) := by
  by_cases hlen : e.2.length ≤ p.maxCodeLen
  case neg =>
    rw [addEntry_of_long rct (not_le.mp hlen)] at h
    cases h
  refine ⟨hlen, ?_⟩
  cases hlook : symOfCode rct e.2 with
  | some s =>
    rw [addEntry_of_held hlen hlook] at h
    split at h
    case isTrue => cases h
    case isFalse hsame => cases h; exact .inl ⟨congrArg some (not_not.mp hsame), rfl⟩
  | none =>
    rw [addEntry_of_unheld hlen hlook] at h
    split at h
    case isTrue => cases h
    case isFalse hroom => cases h; exact .inr ⟨rfl, hroom, rfl⟩

/-- Settles O54: one equation of `addEntry` per clause, and the look-ups after a code is added. -/
theorem entryChecksInOrder : Obligations.EntryChecksInOrder := by
  intro p rct sym code
  refine ⟨addEntry_of_long (e := (sym, code)) rct, fun hlen s hheld hne => ?_, fun hlen hheld => ?_,
    fun hlen hnew hfull => ?_, fun hlen hnew hroom => ?_⟩
  · rw [addEntry_of_held hlen hheld, if_pos hne]
  · rw [addEntry_of_held hlen hheld, if_neg (not_not_intro rfl)]
  · rw [addEntry_of_unheld hlen hnew, if_pos hfull]
  · rw [addEntry_of_unheld hlen hnew, if_neg hroom.ne]
    exact ⟨_, rfl, symOfCode_append_same sym hnew, fun c hc => symOfCode_append_other rct sym hc⟩

/-! ## PARSE_TABLE (44_decoder R185-R187) -/

/-- `rct` is the reverse of the entries `es`, within both capacities. -/
structure Inverts (p : Params) (rct : RevTable) (es : List Entry) : Prop where
  lookup : ∀ c s, symOfCode rct c = some s ↔ (s, c) ∈ es
  nodup : (rct.map Prod.fst).Nodup
  length_le : rct.length ≤ p.rctCap
  codes_fit : ∀ e ∈ es, e.2.length ≤ p.maxCodeLen

theorem Inverts.nil (p : Params) : Inverts p [] [] :=
  ⟨by simp [symOfCode], List.nodup_nil, Nat.zero_le _, by simp⟩

/-- The table after an accepted entry is the reverse of the entries so far and that one. -/
theorem Inverts.of_addEntry {p : Params} {rct rct' : RevTable} {es : List Entry} {e : Entry} (h : Inverts p rct es)
    (hadd : addEntry p rct e = .ok rct') : Inverts p rct' (es ++ [e]) := by
  obtain ⟨sym, code⟩ := e
  obtain ⟨hlen, hcase⟩ := addEntry_ok hadd
  have hfit : ∀ e ∈ es ++ [(sym, code)], e.2.length ≤ p.maxCodeLen :=
    List.forall_mem_append.mpr ⟨h.codes_fit, List.forall_mem_singleton.mpr hlen⟩
  obtain ⟨hheld, rfl⟩ | ⟨hnew, hroom, rfl⟩ := hcase
  · have hmem : (sym, code) ∈ es := (h.lookup code sym).mp hheld
    refine ⟨fun c s => ?_, h.nodup, h.length_le, hfit⟩
    rw [h.lookup, List.mem_append, List.mem_singleton, or_iff_left_of_imp fun heq => heq ▸ hmem]
  · refine ⟨fun c s => ?_, ?_, ?_, hfit⟩
    · rw [List.mem_append, List.mem_singleton, Prod.mk.injEq, ← h.lookup]
      by_cases hc : c = code
      · subst hc
        have hsame := symOfCode_append_same sym hnew
        simp [hsame, hnew, eq_comm]
      · have hother := symOfCode_append_other rct sym hc
        simp [hother, hc]
    · rw [List.map_append, List.map_singleton, ← List.concat_eq_append]
      exact h.nodup.concat ((symOfCode_eq_none_iff rct code).mp hnew)
    · have hle := h.length_le
      rw [List.length_append, List.length_singleton]
      omega

/-- PARSE_TABLE adds the entries left one after the other. -/
theorem Inverts.of_parseTable {p : Params} {rct rct' : RevTable} {pre es : List Entry} (h : Inverts p rct pre)
    (hparse : parseTable p rct es = .ok rct') : Inverts p rct' (pre ++ es) := by
  induction es generalizing rct pre with
  | nil =>
    cases hparse
    rwa [List.append_nil]
  | cons e es ih =>
    rw [parseTable] at hparse
    split at hparse
    case h_1 => cases hparse
    case h_2 rct1 hadd =>
      rw [List.append_cons]
      exact ih (h.of_addEntry hadd) hparse

/-- Settles O53: `Inverts` holds of no entries and is kept by every entry that is accepted. -/
theorem reverseTableInvertsTheEntries : Obligations.ReverseTableInvertsTheEntries := by
  intro p es rct hparse
  obtain ⟨hlookup, hnodup, hlen, hfit⟩ := (Inverts.nil p).of_parseTable hparse
  exact ⟨hlookup, hnodup, hlen, hfit⟩

/-! ## PARSE_STREAM (44_decoder R188-R191) -/

/-- Settles O55: `walkStream_append_of_match` from the empty accumulator. -/
theorem walkEmitsTheShortestMatch : Obligations.WalkEmitsTheShortestMatch := fun _ _ rest _ hne hmatch hfirst =>
  walkStream_append_of_match (acc := []) rest hne hmatch hfirst

/-- A bit sequence longer than every code is none of them. -/
theorem symOfCode_eq_none_of_longer {rct : RevTable} {c : Code} (h : ∀ e ∈ rct, e.1.length < c.length) :
    symOfCode rct c = none := by
  rw [symOfCode_eq_none_iff, List.mem_map]
  rintro ⟨e, he, rfl⟩
  exact (h e he).false

/-- Settles O56, by induction on the bits: each one makes the accumulator longer still. -/
theorem longAccumulatorNeverMatches : Obligations.LongAccumulatorNeverMatches := by
  intro rct acc bits hlong
  induction bits generalizing acc with
  | nil => rw [walkStream, List.append_nil]
  | cons x bits ih =>
    have hlonger : ∀ e ∈ rct, e.1.length < (acc ++ [x]).length := fun e he => by
      rw [List.length_append]
      exact Nat.lt_add_right _ (hlong e he)
    simp only [walkStream, symOfCode_eq_none_of_longer hlonger]
    rw [ih _ hlonger, ← List.append_cons]

/-- Every symbol emitted takes at least one bit. -/
theorem walkStream_length_le (rct : RevTable) (acc bits : Code) : (walkStream rct acc bits).1.length ≤ bits.length := by
  induction bits generalizing acc with
  | nil => exact Nat.le_refl 0
  | cons x bits ih =>
    rw [walkStream]
    split
    case h_1 => exact Nat.succ_le_succ (ih [])
    case h_2 => exact (ih (acc ++ [x])).trans (Nat.le_succ _)

/-! ## A successful DECODE (44_decoder R180, R192) -/

/-- A DECODE that succeeds has found a document of the grammar, its table is accepted, and its walk leaves no bits
over. -/
theorem fDecode_ok {p : Params} {d out : List Sym} {r : Results} {last : Phase} (h : fDecode p d = .ok out r last) :
    ∃ es stream rct, es ≠ [] ∧ d = tableText es ++ bitchars stream ∧ parseTable p [] es = .ok rct ∧
      walkStream rct [] stream = (out, []) ∧ r = decodeResults d.length stream.length out.length es.length ∧
      last = .parseStream := by
  unfold fDecode at h
  split at h
  case h_1 => cases h
  case h_2 es line hvalid =>
    obtain ⟨hes, -, stream, -, rfl, hd⟩ := (validatorAcceptsExactlyTheGrammar d es line).mp hvalid
    rw [map_charbit_bitchars, bitchars_length] at h
    split at h
    case h_1 => cases h
    case h_2 rct htable =>
      split at h
      case isFalse => cases h
      case isTrue hacc =>
        cases h
        exact ⟨es, stream, rct, hes, hd, htable, Prod.ext rfl hacc, rfl, rfl⟩

/-- Settles O57: the document is its table section and its bitstream (`fDecode_ok`), and a walk emits at most one symbol
per bit. -/
theorem decodedTextFits : Obligations.DecodedTextFits := by
  intro p d out r last h
  obtain ⟨es, stream, rct, hes, rfl, -, hwalk, rfl, rfl⟩ := fDecode_ok h
  have hout : out.length ≤ stream.length := by simpa [hwalk] using walkStream_length_le rct [] stream
  have hentries : 1 ≤ es.length := List.length_pos_iff.mpr hes
  have htable := tableText_length_ge es
  simp only [decodeResults, List.length_append, bitchars_length, true_and]
  refine ⟨by omega, hout, by omega, hentries, fun hlegal hfits => ?_⟩
  obtain ⟨-, -, hcaps, -⟩ := hlegal
  omega

end Sys2Proof.Machine

/-! SUPPORT. The exceptions (60_exceptions): which errors each function can answer, in which phase, and what a block step
that ends in FAILED leaves. -/

namespace Sys2Proof.Machine

/-! ## The errors of ENCODE (60_exceptions R211, R212) -/

/-- From the code table on only OUT_CAP can be exceeded, by the table section or by the whole document. -/
theorem encodeDocument_err {p : Params} {t : List Sym} {ct : CodeTable} {code : ErrCode} {phase : Phase}
    (h : encodeDocument p t ct = .err code phase) : code = .capacity ∧ (phase = .serialize ∨ phase = .emit) := by
  unfold encodeDocument at h
  split at h
  case isTrue => cases h; exact ⟨rfl, .inl rfl⟩
  case isFalse =>
    split at h
    case isTrue => cases h; exact ⟨rfl, .inr rfl⟩
    case isFalse => cases h

theorem fEncode_nil (p : Params) : fEncode p [] = .err .emptyInput .count := if_pos rfl

/-- An ENCODE of a non-empty text has a tree, so it fails only on a capacity (41_tree_builder R132). -/
theorem fEncode_err_of_ne_nil {p : Params} {t : List Sym} {code : ErrCode} {phase : Phase} (ht : t ≠ [])
    (h : fEncode p t = .err code phase) :
    code = .capacity ∧ (phase = .derive ∨ phase = .serialize ∨ phase = .emit) := by
  obtain ⟨root, -, hroot, -⟩ := buildTree_ok (frequencies_ne_nil ht)
  rw [fEncode_of_tree p hroot] at h
  split at h
  case isTrue => cases h; exact ⟨rfl, .inl rfl⟩
  case isFalse => exact (encodeDocument_err h).imp_right .inr

/-! ## The errors of DECODE (60_exceptions R211, R212) -/

/-- PARSE_TABLE fails as one of its entries does (`addEntry_error`). -/
theorem parseTable_error {p : Params} {rct : RevTable} {es : List Entry} {code : ErrCode}
    (h : parseTable p rct es = .error code) : code = .capacity ∨ code = .duplicateCode := by
  induction es generalizing rct with
  | nil => cases h
  | cons e es ih =>
    rw [parseTable] at h
    split at h
    case h_1 hadd => cases h; exact addEntry_error hadd
    case h_2 => exact ih h

/-- The empty document has no table section. -/
theorem fDecode_nil (p : Params) : fDecode p [] = .err .invalidFormat .awaitHeader := rfl

/-- A DECODE fails in the validator, in PARSE_TABLE, or with bits left over. -/
theorem fDecode_err {p : Params} {d : List Sym} {code : ErrCode} {phase : Phase} (h : fDecode p d = .err code phase) :
    (code = .invalidFormat ∧ phase = .awaitHeader) ∨
      ((code = .capacity ∨ code = .duplicateCode) ∧ phase = .parseTable) ∨
      (code = .truncatedStream ∧ phase = .parseStream) := by
  unfold fDecode at h
  split at h
  case h_1 => cases h; exact .inl ⟨rfl, rfl⟩
  case h_2 =>
    split at h
    case h_1 htable => cases h; exact .inr (.inl ⟨parseTable_error htable, rfl⟩)
    case h_2 =>
      split at h
      case isTrue => cases h
      case isFalse => cases h; exact .inr (.inr ⟨rfl, rfl⟩)

/-- Settles O51: the errors of each function by its case, the empty text and the empty document by computation. -/
theorem errorsOfEachOperation : Obligations.ErrorsOfEachOperation := by
  intro p t code phase
  refine ⟨fun h => ?_, fun h => ?_, fEncode_nil p, fDecode_nil p⟩
  · by_cases ht : t = []
    · subst ht
      cases (fEncode_nil p).symm.trans h
      exact .inl ⟨rfl, rfl, rfl⟩
    · obtain ⟨hcode, hphase⟩ := fEncode_err_of_ne_nil ht h
      exact .inr ⟨hcode, hphase, ht⟩
  · obtain hformat | ⟨hcapacity | hduplicate, hphase⟩ | htruncated := fDecode_err h
    · exact .inl hformat
    · exact .inr (.inr (.inl ⟨hcapacity, hphase⟩))
    · exact .inr (.inl ⟨hduplicate, hphase⟩)
    · exact .inr (.inr (.inr htruncated))

/-! ## A block step that ends in FAILED (60_exceptions R214, R215) -/

/-- The error a FAILED block records is one of its OP, in its phase of detection. -/
theorem Block.Inv.errorOf_of_failed {b : Block} (h : b.Inv) (hfailed : b.state = .failed) :
    errorOf b.op b.err b.phase = true := by
  have hstatus := h.status
  rw [Block.StatusInv, hfailed] at hstatus
  exact hstatus.2

/-- Outside BUSY no internal state is held. -/
theorem Block.Inv.work_eq_empty {b : Block} (h : b.Inv) (hb : b.state ≠ .busy) : b.work = Work.empty := by
  have hworking := h.working
  rwa [Block.WorkInv, if_neg hb] at hworking

/-- Settles O25: the invariant holds after the step and fixes what a FAILED block holds; the step's frame keeps OP and
IN; and no iteration raises ILLEGAL_COMMAND (`Block.ticks_ok`). -/
theorem failureCommitsNothing : Obligations.FailureCommitsNothing := by
  intro extra s t hinv hbusy hstep hfailed
  obtain ⟨c, hticks, hinv', hframe, -, hlegal, -⟩ := s.block.ticks_ok (extra + 1) hinv hbusy
  obtain rfl : c = t.block := Except.ok.inj (hticks.symm.trans (blockStep_next hstep).1)
  obtain ⟨hzero, -⟩ := hinv'.result
  exact ⟨hframe.op ▸ hinv'.errorOf_of_failed hfailed, hlegal hfailed, hframe.op, hzero (by simp [hfailed]),
    hinv'.work_eq_empty (by simp [hfailed]), hframe.inLen, fun i hi => hframe.inSym hinv.legal hi⟩

end Sys2Proof.Machine

/-! SUPPORT. Reset and hazards (70_reset_and_hazards): an access while reset is asserted, and a reset during an
operation. -/

namespace Sys2Proof.Machine

/-! ## Accesses while reset is asserted (70_reset R240, 93 U4) -/

/-- Settles O37: `busAccess` looks at the reset input before it looks at the access. -/
theorem accessDuringResetIsRefused : Obligations.AccessDuringResetIsRefused := fun _ _ hreset => if_pos hreset

/-- Settles O20: of what a step can be (`step_cases`), a block step and an idle machine refuse nothing, and a host
operation only an access during reset (`hostStep_refused`). -/
theorem onlyAccessDuringResetIsRefused : Obligations.OnlyAccessDuringResetIsRefused := by
  intro s r hstep
  obtain ⟨extra, s', -, -, hblock⟩ | ⟨-, -, hidle⟩ | ⟨op, rest, s', -, hs', -, hhost⟩ := step_cases s
  · exact absurd (hblock.symm.trans hstep) blockStep_not_refused
  · cases hidle.symm.trans hstep
  · exact hs' ▸ hostStep_refused (hhost.symm.trans hstep)

/-! ## A reset during an operation (70_reset R241) -/

/-- The release edge at the head of the host's list releases reset, and of the rest takes only that edge. -/
theorem step_releaseReset {s : State} {rest : List HostOp} (h : s.host = .releaseReset :: rest)
    (hb : s.block.state ≠ .busy) : step s = .next { s with block := s.block.releaseReset, host := rest } :=
  step_host h hb

/-- An IDLE block has no step (40_command R117). -/
theorem Block.enabled_of_idle {b : Block} (h : b.state = .idle) : b.enabled = false := by
  simp [Block.enabled, h]

/-- Settles O42: the first edge puts the block in its reset state, where only the host can move, and the second releases
the reset input alone. -/
theorem resetAbandonsTheOperation : Obligations.ResetAbandonsTheOperation := by
  intro s rest hhost _ _ hslot
  have hidle : s.block.assertReset.state = .idle := s.block.assertReset_state
  exact ⟨_, _, step_assertReset hhost fun _ => hslot, step_releaseReset rfl (by simp), hidle, hidle,
    s.block.assertReset.releaseReset_inReset, Block.enabled_of_idle hidle, s.block.assertReset_statusWord, rfl⟩

end Sys2Proof.Machine

/-! SUPPORT. No step faults: the internal state belongs to the running operation (93_implementation_defined U12). -/

namespace Sys2Proof.Machine

/-- A block step faults only as its iterations do. -/
theorem ticks_of_blockStep_fault {extra : Nat} {s : State} {f : Fault} (h : blockStep extra s = .fault f) :
    s.block.ticks (extra + 1) = .error f := by
  unfold blockStep at h
  split at h
  case h_1 hticks => cases h; exact hticks
  case h_2 => cases h

/-- From the invariant the iterations of a running operation complete (`Block.ticks_ok`), and so does a block step. -/
theorem Block.Inv.blockStep_ne_fault {extra : Nat} {s : State} {f : Fault} (h : s.block.Inv)
    (hbusy : s.block.state = .busy) : blockStep extra s ≠ .fault f := by
  intro hfault
  obtain ⟨c, hticks, -⟩ := s.block.ticks_ok (extra + 1) h hbusy
  cases hticks.symm.trans (ticks_of_blockStep_fault hfault)

/-- Settles O19: of what a step can be (`step_cases`), a block step runs from the invariant, an idle machine stays as it
is, and a host operation faults in no state (`hostStep_fault`). -/
theorem noStepFaults : Obligations.NoStepFaults := by
  intro s f hinv hstep
  obtain ⟨extra, s', hon, hs', hblock⟩ | ⟨-, -, hidle⟩ | ⟨op, rest, s', -, -, -, hhost⟩ := step_cases s
  · have hbusy : s'.block.state = .busy := hs' ▸ (s.block.enabled_iff.mp hon).1
    exact Block.Inv.blockStep_ne_fault (hs' ▸ hinv) hbusy (hblock.symm.trans hstep)
  · cases hidle.symm.trans hstep
  · exact hostStep_fault (hhost.symm.trans hstep)

end Sys2Proof.Machine
